-- ==== Sys2Proof/Word.lean ====
section
/-! DEFINITION. The words of the machine (00_scope R8, R9), the thirteen addressing modes (30_encoding R105) and
the operand forms an instruction carries. -/

namespace Sys2Proof

/-- 00_scope R8, R9: every register but PC, and every memory cell, is 8 bits. -/
abbrev Byte := BitVec 8

/-- 00_scope R8, R9: PC and CPU addresses are 16 bits. -/
abbrev Word := BitVec 16

/-- 30_encoding R105: the thirteen addressing modes, under the spec's short names. -/
inductive Mode where
  | imp | acc | imm | zp | zpx | zpy | abs | absx | absy | ind | indx | indy | rel
  deriving DecidableEq, Repr

/-- An operand as the decoder reads it: one constructor per addressing mode, holding the operand byte `b1` or the
assembled operand word `hi:lo` of 30_encoding R100, R101. -/
inductive Operand where
  /-- R110: no operand byte. -/
  | implied
  /-- R110: no operand byte; A instead of memory. -/
  | accumulator
  /-- R111: the byte itself. -/
  | immediate (b : Byte)
  /-- R112. -/
  | zeroPage (b : Byte)
  /-- R113. -/
  | zeroPageX (b : Byte)
  /-- R114. -/
  | zeroPageY (b : Byte)
  /-- R115. -/
  | absolute (w : Word)
  /-- R116. -/
  | absoluteX (w : Word)
  /-- R117. -/
  | absoluteY (w : Word)
  /-- R118: JMP only. -/
  | indirect (w : Word)
  /-- R119: `(zp,X)`. -/
  | indexedIndirect (b : Byte)
  /-- R120: `(zp),Y`. -/
  | indirectIndexed (b : Byte)
  /-- R122: a branch's displacement byte. -/
  | relative (b : Byte)
  deriving DecidableEq, Repr

/-- The addressing mode of an operand. -/
def Operand.mode : Operand → Mode
  | .implied => .imp
  | .accumulator => .acc
  | .immediate _ => .imm
  | .zeroPage _ => .zp
  | .zeroPageX _ => .zpx
  | .zeroPageY _ => .zpy
  | .absolute _ => .abs
  | .absoluteX _ => .absx
  | .absoluteY _ => .absy
  | .indirect _ => .ind
  | .indexedIndirect _ => .indx
  | .indirectIndexed _ => .indy
  | .relative _ => .rel

end Sys2Proof
end

