-- ==== Sys2Proof/Syntax.lean ====
section
/-! DEFINITION. The instructions of spec/opcode_table.json. A constructor is one instruction rule of files 40 to 44; a row
of the table is a constructor together with the addressing mode of its operand (and, where several opcodes are identical
in effect, the number of the encoding). -/

namespace Sys2Proof

/-- Every instruction of spec/opcode_table.json, with its decoded operand. -/
inductive Instr where
  -- 40_load_store_transfer
  /-- R140. -/
  | lda (o : Operand)
  /-- R141. -/
  | ldx (o : Operand)
  /-- R142. -/
  | ldy (o : Operand)
  /-- R143. -/
  | sta (o : Operand)
  /-- R144. -/
  | stx (o : Operand)
  /-- R145. -/
  | sty (o : Operand)
  /-- R146. -/
  | tax
  /-- R147. -/
  | tay
  /-- R148. -/
  | txa
  /-- R149. -/
  | tya
  /-- R150. -/
  | tsx
  /-- R151. -/
  | txs
  -- 41_arith_logic
  /-- R160. -/
  | adc (o : Operand)
  /-- R161. -/
  | sbc (o : Operand)
  /-- R162. -/
  | and (o : Operand)
  /-- R163. -/
  | ora (o : Operand)
  /-- R164. -/
  | eor (o : Operand)
  /-- R165. -/
  | cmp (o : Operand)
  /-- R166. -/
  | cpx (o : Operand)
  /-- R167. -/
  | cpy (o : Operand)
  /-- R168. -/
  | bit (o : Operand)
  /-- R169. -/
  | inc (o : Operand)
  /-- R170. -/
  | dec (o : Operand)
  /-- R171. -/
  | inx
  /-- R172. -/
  | iny
  /-- R173. -/
  | dex
  /-- R174. -/
  | dey
  -- 42_shift_rotate
  /-- R191. -/
  | asl (o : Operand)
  /-- R192. -/
  | lsr (o : Operand)
  /-- R193. -/
  | rol (o : Operand)
  /-- R194. -/
  | ror (o : Operand)
  -- 43_control_stack_flags
  /-- R201. -/
  | bpl (disp : Byte)
  /-- R202. -/
  | bmi (disp : Byte)
  /-- R203. -/
  | bvc (disp : Byte)
  /-- R204. -/
  | bvs (disp : Byte)
  /-- R205. -/
  | bcc (disp : Byte)
  /-- R206. -/
  | bcs (disp : Byte)
  /-- R207. -/
  | bne (disp : Byte)
  /-- R208. -/
  | beq (disp : Byte)
  /-- R210. -/
  | jmpAbsolute (target : Word)
  /-- R212. -/
  | jmpIndirect (ptr : Word)
  /-- R213. -/
  | jsr (target : Word)
  /-- R214. -/
  | rts
  /-- R215. -/
  | rti
  /-- R216: the halt. -/
  | brk
  /-- R220. -/
  | clc
  /-- R221. -/
  | sec
  /-- R222. -/
  | cli
  /-- R223. -/
  | sei
  /-- R224. -/
  | cld
  /-- R225. -/
  | sed
  /-- R226. -/
  | clv
  /-- R230. -/
  | pha
  /-- R231. -/
  | php
  /-- R232. -/
  | pla
  /-- R233. -/
  | plp
  /-- R236: the documented NOP, 0xEA. -/
  | nop
  -- 44_undocumented
  /-- R241. -/
  | slo (o : Operand)
  /-- R242. -/
  | rla (o : Operand)
  /-- R243. -/
  | sre (o : Operand)
  /-- R244. -/
  | rra (o : Operand)
  /-- R245. -/
  | dcp (o : Operand)
  /-- R246. -/
  | isc (o : Operand)
  /-- R247. -/
  | sax (o : Operand)
  /-- R248. -/
  | lax (o : Operand)
  /-- R249: `k` is the number of the encoding in the rule's order (0x0B, 0x2B). -/
  | anc (k : Fin 2) (imm : Byte)
  /-- R250. -/
  | alr (imm : Byte)
  /-- R251. -/
  | arr (imm : Byte)
  /-- R252: unstable. -/
  | ane (imm : Byte)
  /-- R253: unstable. -/
  | lxa (imm : Byte)
  /-- R254. -/
  | sbx (imm : Byte)
  /-- R255. -/
  | usbc (imm : Byte)
  /-- R257: unstable. -/
  | sha (o : Operand)
  /-- R258: unstable, absolute,Y only. -/
  | tas (base : Word)
  /-- R259: unstable, absolute,X only. -/
  | shy (base : Word)
  /-- R260: unstable, absolute,Y only. -/
  | shx (base : Word)
  /-- R261: absolute,Y only. -/
  | las (base : Word)
  /-- R262: `k` is the number of the encoding in the rule's order. -/
  | nopImplied (k : Fin 6)
  /-- R263. -/
  | nopImmediate (k : Fin 5) (imm : Byte)
  /-- R264. -/
  | nopZeroPage (k : Fin 3) (b : Byte)
  /-- R265. -/
  | nopZeroPageX (k : Fin 6) (b : Byte)
  /-- R266. -/
  | nopAbsolute (w : Word)
  /-- R267. -/
  | nopAbsoluteX (k : Fin 6) (w : Word)
  /-- R268: `k` is the number of the encoding in the rule's order. -/
  | jam (k : Fin 12)
  deriving DecidableEq, Repr

end Sys2Proof
end

