-- ==== Sys2Proof/WellFormed.lean ====
section
/-! DEFINITION. Which operand forms each instruction admits (the Encoding line of its rule in files 40 to 44). -/

namespace Sys2Proof

/-- The eight modes of ORA, AND, EOR, ADC, LDA, CMP and SBC (R140, R160 to R165). -/
def readModes : List Mode := [.indx, .zp, .imm, .abs, .indy, .zpx, .absy, .absx]

/-- The seven modes of STA and of SLO, RLA, SRE, RRA, DCP, ISC (R143, R241 to R246). -/
def writeModes : List Mode := [.indx, .zp, .abs, .indy, .zpx, .absy, .absx]

/-- The four memory modes of INC, DEC and the shifts (R169, R170, R191 to R194). -/
def modifyModes : List Mode := [.zp, .abs, .zpx, .absx]

/-- The modes an instruction's operand may have; an instruction whose operand is fixed by its constructor has no list. -/
def Instr.modes : Instr → Option (Operand × List Mode)
  | .lda o | .adc o | .sbc o | .and o | .ora o | .eor o | .cmp o => some (o, readModes)
  | .ldx o => some (o, [.imm, .zp, .abs, .zpy, .absy])
  | .ldy o => some (o, [.imm, .zp, .abs, .zpx, .absx])
  | .sta o | .slo o | .rla o | .sre o | .rra o | .dcp o | .isc o => some (o, writeModes)
  | .stx o => some (o, [.zp, .abs, .zpy])
  | .sty o => some (o, [.zp, .abs, .zpx])
  | .cpx o | .cpy o => some (o, [.imm, .zp, .abs])
  | .bit o => some (o, [.zp, .abs])
  | .inc o | .dec o => some (o, modifyModes)
  | .asl o | .lsr o | .rol o | .ror o => some (o, .acc :: modifyModes)
  | .sax o => some (o, [.indx, .zp, .abs, .zpy])
  | .lax o => some (o, [.indx, .zp, .abs, .indy, .zpy, .absy])
  | .sha o => some (o, [.indy, .absy])
  | .tax | .tay | .txa | .tya | .tsx | .txs | .inx | .iny | .dex | .dey => none
  | .bpl _ | .bmi _ | .bvc _ | .bvs _ | .bcc _ | .bcs _ | .bne _ | .beq _ => none
  | .jmpAbsolute _ | .jmpIndirect _ | .jsr _ | .rts | .rti | .brk => none
  | .clc | .sec | .cli | .sei | .cld | .sed | .clv | .pha | .php | .pla | .plp | .nop => none
  | .anc _ _ | .alr _ | .arr _ | .ane _ | .lxa _ | .sbx _ | .usbc _ => none
  | .tas _ | .shy _ | .shx _ | .las _ => none
  | .nopImplied _ | .nopImmediate _ _ | .nopZeroPage _ _ | .nopZeroPageX _ _ | .nopAbsolute _ | .nopAbsoluteX _ _ => none
  | .jam _ => none

/-- An instruction is well formed when the table has a row for its operand's mode. -/
def Instr.wf (i : Instr) : Bool :=
  match i.modes with
  | none => true
  | some (o, modes) => modes.contains o.mode

end Sys2Proof
end

