-- ==== Sys2Proof/Decode.lean ====
section
/-! DEFINITION. The opcode table of 30_encoding R129 and the decoder that reads it; then the encoder, written from the
Encoding line of each instruction's own rule (files 40 to 44), so that the round trip compares two texts of the spec. -/

namespace Sys2Proof

/-- 00_scope R9: `lo(w)`. -/
def lo (w : Word) : Byte := w.extractLsb' 0 8

/-- 00_scope R9: `hi(w)`. -/
def hi (w : Word) : Byte := w.extractLsb' 8 8

/-- 00_scope R9: `h:l`, the word with high byte `h` and low byte `l`. -/
def word (h l : Byte) : Word := h ++ l

/-- 00_scope R9: `zext_16(b)`. -/
def zext (b : Byte) : Word := b.setWidth 16

/-- 00_scope R9: `sext_8(b)`, as the word that is added to an address. -/
def sext (b : Byte) : Word := b.signExtend 16

/-- 30_encoding R100: the number of operand bytes of a mode. -/
def Mode.operandBytes : Mode → Nat
  | .imp | .acc => 0
  | .imm | .zp | .zpx | .zpy | .indx | .indy | .rel => 1
  | .abs | .absx | .absy | .ind => 2

/-- 30_encoding R100: the length of an instruction in its mode. -/
def Mode.bytes (m : Mode) : Nat := m.operandBytes + 1

/-- The operand byte b1 of a two-byte form (no other form is asked). -/
def Operand.byte : Operand → Byte
  | .immediate b | .zeroPage b | .zeroPageX b | .zeroPageY b | .indexedIndirect b | .indirectIndexed b | .relative b => b
  | .implied | .accumulator | .absolute _ | .absoluteX _ | .absoluteY _ | .indirect _ => 0

/-- The operand word hi:lo of a three-byte form (no other form is asked). -/
def Operand.word : Operand → Word
  | .absolute w | .absoluteX w | .absoluteY w | .indirect w => w
  | .implied | .accumulator | .immediate _ | .zeroPage _ | .zeroPageX _ | .zeroPageY _ | .indexedIndirect _
  | .indirectIndexed _ | .relative _ => 0

/-- 30_encoding R100, R101: the operand bytes in memory order, low byte first. -/
def Operand.bytes : Operand → List Byte
  | .implied | .accumulator => []
  | .immediate b | .zeroPage b | .zeroPageX b | .zeroPageY b | .indexedIndirect b | .indirectIndexed b | .relative b => [b]
  | .absolute w | .absoluteX w | .absoluteY w | .indirect w => [lo w, hi w]

/-- 30_encoding R100, R101: the operand of a mode from the bytes that follow the opcode, and the bytes left. -/
def operandOf : Mode → List Byte → Option (Operand × List Byte)
  | .imp, rest => some (.implied, rest)
  | .acc, rest => some (.accumulator, rest)
  | .imm, b :: rest => some (.immediate b, rest)
  | .zp, b :: rest => some (.zeroPage b, rest)
  | .zpx, b :: rest => some (.zeroPageX b, rest)
  | .zpy, b :: rest => some (.zeroPageY b, rest)
  | .indx, b :: rest => some (.indexedIndirect b, rest)
  | .indy, b :: rest => some (.indirectIndexed b, rest)
  | .rel, b :: rest => some (.relative b, rest)
  | .abs, l :: h :: rest => some (.absolute (Sys2Proof.word h l), rest)
  | .absx, l :: h :: rest => some (.absoluteX (Sys2Proof.word h l), rest)
  | .absy, l :: h :: rest => some (.absoluteY (Sys2Proof.word h l), rest)
  | .ind, l :: h :: rest => some (.indirect (Sys2Proof.word h l), rest)
  | _, _ => none

/-- 30_encoding R102: the record of an opcode. The mnemonic of the record is the instruction `make` builds. -/
structure Row where
  mode : Mode
  cycles : Nat
  penalty : Bool
  make : Operand → Instr

/-- 30_encoding R129, the row 0x of the opcode map. -/
def opcodeRow0 : List Row := [
  ⟨.imp, 7, false, fun _ => .brk⟩,
  ⟨.indx, 6, false, .ora⟩,
  ⟨.imp, 2, false, fun _ => .jam 0⟩,
  ⟨.indx, 8, false, .slo⟩,
  ⟨.zp, 3, false, fun o => .nopZeroPage 0 o.byte⟩,
  ⟨.zp, 3, false, .ora⟩,
  ⟨.zp, 5, false, .asl⟩,
  ⟨.zp, 5, false, .slo⟩,
  ⟨.imp, 3, false, fun _ => .php⟩,
  ⟨.imm, 2, false, .ora⟩,
  ⟨.acc, 2, false, .asl⟩,
  ⟨.imm, 2, false, fun o => .anc 0 o.byte⟩,
  ⟨.abs, 4, false, fun o => .nopAbsolute o.word⟩,
  ⟨.abs, 4, false, .ora⟩,
  ⟨.abs, 6, false, .asl⟩,
  ⟨.abs, 6, false, .slo⟩]

/-- 30_encoding R129, the row 1x of the opcode map. -/
def opcodeRow1 : List Row := [
  ⟨.rel, 2, false, fun o => .bpl o.byte⟩,
  ⟨.indy, 5, true, .ora⟩,
  ⟨.imp, 2, false, fun _ => .jam 1⟩,
  ⟨.indy, 8, false, .slo⟩,
  ⟨.zpx, 4, false, fun o => .nopZeroPageX 0 o.byte⟩,
  ⟨.zpx, 4, false, .ora⟩,
  ⟨.zpx, 6, false, .asl⟩,
  ⟨.zpx, 6, false, .slo⟩,
  ⟨.imp, 2, false, fun _ => .clc⟩,
  ⟨.absy, 4, true, .ora⟩,
  ⟨.imp, 2, false, fun _ => .nopImplied 0⟩,
  ⟨.absy, 7, false, .slo⟩,
  ⟨.absx, 4, true, fun o => .nopAbsoluteX 0 o.word⟩,
  ⟨.absx, 4, true, .ora⟩,
  ⟨.absx, 7, false, .asl⟩,
  ⟨.absx, 7, false, .slo⟩]

/-- 30_encoding R129, the row 2x of the opcode map. -/
def opcodeRow2 : List Row := [
  ⟨.abs, 6, false, fun o => .jsr o.word⟩,
  ⟨.indx, 6, false, .and⟩,
  ⟨.imp, 2, false, fun _ => .jam 2⟩,
  ⟨.indx, 8, false, .rla⟩,
  ⟨.zp, 3, false, .bit⟩,
  ⟨.zp, 3, false, .and⟩,
  ⟨.zp, 5, false, .rol⟩,
  ⟨.zp, 5, false, .rla⟩,
  ⟨.imp, 4, false, fun _ => .plp⟩,
  ⟨.imm, 2, false, .and⟩,
  ⟨.acc, 2, false, .rol⟩,
  ⟨.imm, 2, false, fun o => .anc 1 o.byte⟩,
  ⟨.abs, 4, false, .bit⟩,
  ⟨.abs, 4, false, .and⟩,
  ⟨.abs, 6, false, .rol⟩,
  ⟨.abs, 6, false, .rla⟩]

/-- 30_encoding R129, the row 3x of the opcode map. -/
def opcodeRow3 : List Row := [
  ⟨.rel, 2, false, fun o => .bmi o.byte⟩,
  ⟨.indy, 5, true, .and⟩,
  ⟨.imp, 2, false, fun _ => .jam 3⟩,
  ⟨.indy, 8, false, .rla⟩,
  ⟨.zpx, 4, false, fun o => .nopZeroPageX 1 o.byte⟩,
  ⟨.zpx, 4, false, .and⟩,
  ⟨.zpx, 6, false, .rol⟩,
  ⟨.zpx, 6, false, .rla⟩,
  ⟨.imp, 2, false, fun _ => .sec⟩,
  ⟨.absy, 4, true, .and⟩,
  ⟨.imp, 2, false, fun _ => .nopImplied 1⟩,
  ⟨.absy, 7, false, .rla⟩,
  ⟨.absx, 4, true, fun o => .nopAbsoluteX 1 o.word⟩,
  ⟨.absx, 4, true, .and⟩,
  ⟨.absx, 7, false, .rol⟩,
  ⟨.absx, 7, false, .rla⟩]

/-- 30_encoding R129, the row 4x of the opcode map. -/
def opcodeRow4 : List Row := [
  ⟨.imp, 6, false, fun _ => .rti⟩,
  ⟨.indx, 6, false, .eor⟩,
  ⟨.imp, 2, false, fun _ => .jam 4⟩,
  ⟨.indx, 8, false, .sre⟩,
  ⟨.zp, 3, false, fun o => .nopZeroPage 1 o.byte⟩,
  ⟨.zp, 3, false, .eor⟩,
  ⟨.zp, 5, false, .lsr⟩,
  ⟨.zp, 5, false, .sre⟩,
  ⟨.imp, 3, false, fun _ => .pha⟩,
  ⟨.imm, 2, false, .eor⟩,
  ⟨.acc, 2, false, .lsr⟩,
  ⟨.imm, 2, false, fun o => .alr o.byte⟩,
  ⟨.abs, 3, false, fun o => .jmpAbsolute o.word⟩,
  ⟨.abs, 4, false, .eor⟩,
  ⟨.abs, 6, false, .lsr⟩,
  ⟨.abs, 6, false, .sre⟩]

/-- 30_encoding R129, the row 5x of the opcode map. -/
def opcodeRow5 : List Row := [
  ⟨.rel, 2, false, fun o => .bvc o.byte⟩,
  ⟨.indy, 5, true, .eor⟩,
  ⟨.imp, 2, false, fun _ => .jam 5⟩,
  ⟨.indy, 8, false, .sre⟩,
  ⟨.zpx, 4, false, fun o => .nopZeroPageX 2 o.byte⟩,
  ⟨.zpx, 4, false, .eor⟩,
  ⟨.zpx, 6, false, .lsr⟩,
  ⟨.zpx, 6, false, .sre⟩,
  ⟨.imp, 2, false, fun _ => .cli⟩,
  ⟨.absy, 4, true, .eor⟩,
  ⟨.imp, 2, false, fun _ => .nopImplied 2⟩,
  ⟨.absy, 7, false, .sre⟩,
  ⟨.absx, 4, true, fun o => .nopAbsoluteX 2 o.word⟩,
  ⟨.absx, 4, true, .eor⟩,
  ⟨.absx, 7, false, .lsr⟩,
  ⟨.absx, 7, false, .sre⟩]

/-- 30_encoding R129, the row 6x of the opcode map. -/
def opcodeRow6 : List Row := [
  ⟨.imp, 6, false, fun _ => .rts⟩,
  ⟨.indx, 6, false, .adc⟩,
  ⟨.imp, 2, false, fun _ => .jam 6⟩,
  ⟨.indx, 8, false, .rra⟩,
  ⟨.zp, 3, false, fun o => .nopZeroPage 2 o.byte⟩,
  ⟨.zp, 3, false, .adc⟩,
  ⟨.zp, 5, false, .ror⟩,
  ⟨.zp, 5, false, .rra⟩,
  ⟨.imp, 4, false, fun _ => .pla⟩,
  ⟨.imm, 2, false, .adc⟩,
  ⟨.acc, 2, false, .ror⟩,
  ⟨.imm, 2, false, fun o => .arr o.byte⟩,
  ⟨.ind, 5, false, fun o => .jmpIndirect o.word⟩,
  ⟨.abs, 4, false, .adc⟩,
  ⟨.abs, 6, false, .ror⟩,
  ⟨.abs, 6, false, .rra⟩]

/-- 30_encoding R129, the row 7x of the opcode map. -/
def opcodeRow7 : List Row := [
  ⟨.rel, 2, false, fun o => .bvs o.byte⟩,
  ⟨.indy, 5, true, .adc⟩,
  ⟨.imp, 2, false, fun _ => .jam 7⟩,
  ⟨.indy, 8, false, .rra⟩,
  ⟨.zpx, 4, false, fun o => .nopZeroPageX 3 o.byte⟩,
  ⟨.zpx, 4, false, .adc⟩,
  ⟨.zpx, 6, false, .ror⟩,
  ⟨.zpx, 6, false, .rra⟩,
  ⟨.imp, 2, false, fun _ => .sei⟩,
  ⟨.absy, 4, true, .adc⟩,
  ⟨.imp, 2, false, fun _ => .nopImplied 3⟩,
  ⟨.absy, 7, false, .rra⟩,
  ⟨.absx, 4, true, fun o => .nopAbsoluteX 3 o.word⟩,
  ⟨.absx, 4, true, .adc⟩,
  ⟨.absx, 7, false, .ror⟩,
  ⟨.absx, 7, false, .rra⟩]

/-- 30_encoding R129, the row 8x of the opcode map. -/
def opcodeRow8 : List Row := [
  ⟨.imm, 2, false, fun o => .nopImmediate 0 o.byte⟩,
  ⟨.indx, 6, false, .sta⟩,
  ⟨.imm, 2, false, fun o => .nopImmediate 1 o.byte⟩,
  ⟨.indx, 6, false, .sax⟩,
  ⟨.zp, 3, false, .sty⟩,
  ⟨.zp, 3, false, .sta⟩,
  ⟨.zp, 3, false, .stx⟩,
  ⟨.zp, 3, false, .sax⟩,
  ⟨.imp, 2, false, fun _ => .dey⟩,
  ⟨.imm, 2, false, fun o => .nopImmediate 2 o.byte⟩,
  ⟨.imp, 2, false, fun _ => .txa⟩,
  ⟨.imm, 2, false, fun o => .ane o.byte⟩,
  ⟨.abs, 4, false, .sty⟩,
  ⟨.abs, 4, false, .sta⟩,
  ⟨.abs, 4, false, .stx⟩,
  ⟨.abs, 4, false, .sax⟩]

/-- 30_encoding R129, the row 9x of the opcode map. -/
def opcodeRow9 : List Row := [
  ⟨.rel, 2, false, fun o => .bcc o.byte⟩,
  ⟨.indy, 6, false, .sta⟩,
  ⟨.imp, 2, false, fun _ => .jam 8⟩,
  ⟨.indy, 6, false, .sha⟩,
  ⟨.zpx, 4, false, .sty⟩,
  ⟨.zpx, 4, false, .sta⟩,
  ⟨.zpy, 4, false, .stx⟩,
  ⟨.zpy, 4, false, .sax⟩,
  ⟨.imp, 2, false, fun _ => .tya⟩,
  ⟨.absy, 5, false, .sta⟩,
  ⟨.imp, 2, false, fun _ => .txs⟩,
  ⟨.absy, 5, false, fun o => .tas o.word⟩,
  ⟨.absx, 5, false, fun o => .shy o.word⟩,
  ⟨.absx, 5, false, .sta⟩,
  ⟨.absy, 5, false, fun o => .shx o.word⟩,
  ⟨.absy, 5, false, .sha⟩]

/-- 30_encoding R129, the row Ax of the opcode map. -/
def opcodeRowA : List Row := [
  ⟨.imm, 2, false, .ldy⟩,
  ⟨.indx, 6, false, .lda⟩,
  ⟨.imm, 2, false, .ldx⟩,
  ⟨.indx, 6, false, .lax⟩,
  ⟨.zp, 3, false, .ldy⟩,
  ⟨.zp, 3, false, .lda⟩,
  ⟨.zp, 3, false, .ldx⟩,
  ⟨.zp, 3, false, .lax⟩,
  ⟨.imp, 2, false, fun _ => .tay⟩,
  ⟨.imm, 2, false, .lda⟩,
  ⟨.imp, 2, false, fun _ => .tax⟩,
  ⟨.imm, 2, false, fun o => .lxa o.byte⟩,
  ⟨.abs, 4, false, .ldy⟩,
  ⟨.abs, 4, false, .lda⟩,
  ⟨.abs, 4, false, .ldx⟩,
  ⟨.abs, 4, false, .lax⟩]

/-- 30_encoding R129, the row Bx of the opcode map. -/
def opcodeRowB : List Row := [
  ⟨.rel, 2, false, fun o => .bcs o.byte⟩,
  ⟨.indy, 5, true, .lda⟩,
  ⟨.imp, 2, false, fun _ => .jam 9⟩,
  ⟨.indy, 5, true, .lax⟩,
  ⟨.zpx, 4, false, .ldy⟩,
  ⟨.zpx, 4, false, .lda⟩,
  ⟨.zpy, 4, false, .ldx⟩,
  ⟨.zpy, 4, false, .lax⟩,
  ⟨.imp, 2, false, fun _ => .clv⟩,
  ⟨.absy, 4, true, .lda⟩,
  ⟨.imp, 2, false, fun _ => .tsx⟩,
  ⟨.absy, 4, true, fun o => .las o.word⟩,
  ⟨.absx, 4, true, .ldy⟩,
  ⟨.absx, 4, true, .lda⟩,
  ⟨.absy, 4, true, .ldx⟩,
  ⟨.absy, 4, true, .lax⟩]

/-- 30_encoding R129, the row Cx of the opcode map. -/
def opcodeRowC : List Row := [
  ⟨.imm, 2, false, .cpy⟩,
  ⟨.indx, 6, false, .cmp⟩,
  ⟨.imm, 2, false, fun o => .nopImmediate 3 o.byte⟩,
  ⟨.indx, 8, false, .dcp⟩,
  ⟨.zp, 3, false, .cpy⟩,
  ⟨.zp, 3, false, .cmp⟩,
  ⟨.zp, 5, false, .dec⟩,
  ⟨.zp, 5, false, .dcp⟩,
  ⟨.imp, 2, false, fun _ => .iny⟩,
  ⟨.imm, 2, false, .cmp⟩,
  ⟨.imp, 2, false, fun _ => .dex⟩,
  ⟨.imm, 2, false, fun o => .sbx o.byte⟩,
  ⟨.abs, 4, false, .cpy⟩,
  ⟨.abs, 4, false, .cmp⟩,
  ⟨.abs, 6, false, .dec⟩,
  ⟨.abs, 6, false, .dcp⟩]

/-- 30_encoding R129, the row Dx of the opcode map. -/
def opcodeRowD : List Row := [
  ⟨.rel, 2, false, fun o => .bne o.byte⟩,
  ⟨.indy, 5, true, .cmp⟩,
  ⟨.imp, 2, false, fun _ => .jam 10⟩,
  ⟨.indy, 8, false, .dcp⟩,
  ⟨.zpx, 4, false, fun o => .nopZeroPageX 4 o.byte⟩,
  ⟨.zpx, 4, false, .cmp⟩,
  ⟨.zpx, 6, false, .dec⟩,
  ⟨.zpx, 6, false, .dcp⟩,
  ⟨.imp, 2, false, fun _ => .cld⟩,
  ⟨.absy, 4, true, .cmp⟩,
  ⟨.imp, 2, false, fun _ => .nopImplied 4⟩,
  ⟨.absy, 7, false, .dcp⟩,
  ⟨.absx, 4, true, fun o => .nopAbsoluteX 4 o.word⟩,
  ⟨.absx, 4, true, .cmp⟩,
  ⟨.absx, 7, false, .dec⟩,
  ⟨.absx, 7, false, .dcp⟩]

/-- 30_encoding R129, the row Ex of the opcode map. -/
def opcodeRowE : List Row := [
  ⟨.imm, 2, false, .cpx⟩,
  ⟨.indx, 6, false, .sbc⟩,
  ⟨.imm, 2, false, fun o => .nopImmediate 4 o.byte⟩,
  ⟨.indx, 8, false, .isc⟩,
  ⟨.zp, 3, false, .cpx⟩,
  ⟨.zp, 3, false, .sbc⟩,
  ⟨.zp, 5, false, .inc⟩,
  ⟨.zp, 5, false, .isc⟩,
  ⟨.imp, 2, false, fun _ => .inx⟩,
  ⟨.imm, 2, false, .sbc⟩,
  ⟨.imp, 2, false, fun _ => .nop⟩,
  ⟨.imm, 2, false, fun o => .usbc o.byte⟩,
  ⟨.abs, 4, false, .cpx⟩,
  ⟨.abs, 4, false, .sbc⟩,
  ⟨.abs, 6, false, .inc⟩,
  ⟨.abs, 6, false, .isc⟩]

/-- 30_encoding R129, the row Fx of the opcode map. -/
def opcodeRowF : List Row := [
  ⟨.rel, 2, false, fun o => .beq o.byte⟩,
  ⟨.indy, 5, true, .sbc⟩,
  ⟨.imp, 2, false, fun _ => .jam 11⟩,
  ⟨.indy, 8, false, .isc⟩,
  ⟨.zpx, 4, false, fun o => .nopZeroPageX 5 o.byte⟩,
  ⟨.zpx, 4, false, .sbc⟩,
  ⟨.zpx, 6, false, .inc⟩,
  ⟨.zpx, 6, false, .isc⟩,
  ⟨.imp, 2, false, fun _ => .sed⟩,
  ⟨.absy, 4, true, .sbc⟩,
  ⟨.imp, 2, false, fun _ => .nopImplied 5⟩,
  ⟨.absy, 7, false, .isc⟩,
  ⟨.absx, 4, true, fun o => .nopAbsoluteX 5 o.word⟩,
  ⟨.absx, 4, true, .sbc⟩,
  ⟨.absx, 7, false, .inc⟩,
  ⟨.absx, 7, false, .isc⟩]

/-- 30_encoding R102, R129: the table of all 256 records, indexed by the opcode byte. -/
def opcodeTable : List Row :=
  opcodeRow0 ++ opcodeRow1 ++ opcodeRow2 ++ opcodeRow3 ++ opcodeRow4 ++ opcodeRow5 ++ opcodeRow6 ++ opcodeRow7 ++
  opcodeRow8 ++ opcodeRow9 ++ opcodeRowA ++ opcodeRowB ++ opcodeRowC ++ opcodeRowD ++ opcodeRowE ++ opcodeRowF

/-- 30_encoding R102: the record of a byte; `none` is the lookup miss of R104, which the complete table never gives. -/
def recordOf (opc : Byte) : Option Row := opcodeTable[opc.toNat]?

/-- Why bytes are no instruction. -/
inductive DecodeError where
  /-- no byte at all -/
  | noOpcode
  /-- 30_encoding R104: the byte has no record -/
  | unsupportedOpcode (opc : Byte)
  /-- fewer operand bytes than the mode of `opc` reads -/
  | truncated (opc : Byte)
  deriving DecidableEq, Repr

/-- 30_encoding R100, R101: the first instruction of a list of bytes, and the bytes after it. -/
def decode : List Byte → Except DecodeError (Instr × List Byte)
  | [] => .error .noOpcode
  | opc :: rest =>
    match recordOf opc with
    | none => .error (.unsupportedOpcode opc)
    | some r =>
      match operandOf r.mode rest with
      | none => .error (.truncated opc)
      | some (o, rest') => .ok (r.make o, rest')

/-- The opcode that an Encoding line gives for the mode of an operand. -/
def pick (o : Operand) (line : List (Mode × Byte)) : Option Byte := line.lookup o.mode

/-- The opcode of an instruction, from the Encoding line of its rule; `none` for an operand form the rule does not list. -/
def opcodeOf : Instr → Option Byte
  | .lda o => pick o [(.indx, 0xA1), (.zp, 0xA5), (.imm, 0xA9), (.abs, 0xAD), (.indy, 0xB1), (.zpx, 0xB5), (.absy, 0xB9), (.absx, 0xBD)]
  | .ldx o => pick o [(.imm, 0xA2), (.zp, 0xA6), (.abs, 0xAE), (.zpy, 0xB6), (.absy, 0xBE)]
  | .ldy o => pick o [(.imm, 0xA0), (.zp, 0xA4), (.abs, 0xAC), (.zpx, 0xB4), (.absx, 0xBC)]
  | .sta o => pick o [(.indx, 0x81), (.zp, 0x85), (.abs, 0x8D), (.indy, 0x91), (.zpx, 0x95), (.absy, 0x99), (.absx, 0x9D)]
  | .stx o => pick o [(.zp, 0x86), (.abs, 0x8E), (.zpy, 0x96)]
  | .sty o => pick o [(.zp, 0x84), (.abs, 0x8C), (.zpx, 0x94)]
  | .tax => some 0xAA
  | .tay => some 0xA8
  | .txa => some 0x8A
  | .tya => some 0x98
  | .tsx => some 0xBA
  | .txs => some 0x9A
  | .adc o => pick o [(.indx, 0x61), (.zp, 0x65), (.imm, 0x69), (.abs, 0x6D), (.indy, 0x71), (.zpx, 0x75), (.absy, 0x79), (.absx, 0x7D)]
  | .sbc o => pick o [(.indx, 0xE1), (.zp, 0xE5), (.imm, 0xE9), (.abs, 0xED), (.indy, 0xF1), (.zpx, 0xF5), (.absy, 0xF9), (.absx, 0xFD)]
  | .and o => pick o [(.indx, 0x21), (.zp, 0x25), (.imm, 0x29), (.abs, 0x2D), (.indy, 0x31), (.zpx, 0x35), (.absy, 0x39), (.absx, 0x3D)]
  | .ora o => pick o [(.indx, 0x01), (.zp, 0x05), (.imm, 0x09), (.abs, 0x0D), (.indy, 0x11), (.zpx, 0x15), (.absy, 0x19), (.absx, 0x1D)]
  | .eor o => pick o [(.indx, 0x41), (.zp, 0x45), (.imm, 0x49), (.abs, 0x4D), (.indy, 0x51), (.zpx, 0x55), (.absy, 0x59), (.absx, 0x5D)]
  | .cmp o => pick o [(.indx, 0xC1), (.zp, 0xC5), (.imm, 0xC9), (.abs, 0xCD), (.indy, 0xD1), (.zpx, 0xD5), (.absy, 0xD9), (.absx, 0xDD)]
  | .cpx o => pick o [(.imm, 0xE0), (.zp, 0xE4), (.abs, 0xEC)]
  | .cpy o => pick o [(.imm, 0xC0), (.zp, 0xC4), (.abs, 0xCC)]
  | .bit o => pick o [(.zp, 0x24), (.abs, 0x2C)]
  | .inc o => pick o [(.zp, 0xE6), (.abs, 0xEE), (.zpx, 0xF6), (.absx, 0xFE)]
  | .dec o => pick o [(.zp, 0xC6), (.abs, 0xCE), (.zpx, 0xD6), (.absx, 0xDE)]
  | .inx => some 0xE8
  | .iny => some 0xC8
  | .dex => some 0xCA
  | .dey => some 0x88
  | .asl o => pick o [(.zp, 0x06), (.acc, 0x0A), (.abs, 0x0E), (.zpx, 0x16), (.absx, 0x1E)]
  | .lsr o => pick o [(.zp, 0x46), (.acc, 0x4A), (.abs, 0x4E), (.zpx, 0x56), (.absx, 0x5E)]
  | .rol o => pick o [(.zp, 0x26), (.acc, 0x2A), (.abs, 0x2E), (.zpx, 0x36), (.absx, 0x3E)]
  | .ror o => pick o [(.zp, 0x66), (.acc, 0x6A), (.abs, 0x6E), (.zpx, 0x76), (.absx, 0x7E)]
  | .bpl _ => some 0x10
  | .bmi _ => some 0x30
  | .bvc _ => some 0x50
  | .bvs _ => some 0x70
  | .bcc _ => some 0x90
  | .bcs _ => some 0xB0
  | .bne _ => some 0xD0
  | .beq _ => some 0xF0
  | .jmpAbsolute _ => some 0x4C
  | .jmpIndirect _ => some 0x6C
  | .jsr _ => some 0x20
  | .rts => some 0x60
  | .rti => some 0x40
  | .brk => some 0x00
  | .clc => some 0x18
  | .sec => some 0x38
  | .cli => some 0x58
  | .sei => some 0x78
  | .cld => some 0xD8
  | .sed => some 0xF8
  | .clv => some 0xB8
  | .pha => some 0x48
  | .php => some 0x08
  | .pla => some 0x68
  | .plp => some 0x28
  | .nop => some 0xEA
  | .slo o => pick o [(.indx, 0x03), (.zp, 0x07), (.abs, 0x0F), (.indy, 0x13), (.zpx, 0x17), (.absy, 0x1B), (.absx, 0x1F)]
  | .rla o => pick o [(.indx, 0x23), (.zp, 0x27), (.abs, 0x2F), (.indy, 0x33), (.zpx, 0x37), (.absy, 0x3B), (.absx, 0x3F)]
  | .sre o => pick o [(.indx, 0x43), (.zp, 0x47), (.abs, 0x4F), (.indy, 0x53), (.zpx, 0x57), (.absy, 0x5B), (.absx, 0x5F)]
  | .rra o => pick o [(.indx, 0x63), (.zp, 0x67), (.abs, 0x6F), (.indy, 0x73), (.zpx, 0x77), (.absy, 0x7B), (.absx, 0x7F)]
  | .dcp o => pick o [(.indx, 0xC3), (.zp, 0xC7), (.abs, 0xCF), (.indy, 0xD3), (.zpx, 0xD7), (.absy, 0xDB), (.absx, 0xDF)]
  | .isc o => pick o [(.indx, 0xE3), (.zp, 0xE7), (.abs, 0xEF), (.indy, 0xF3), (.zpx, 0xF7), (.absy, 0xFB), (.absx, 0xFF)]
  | .sax o => pick o [(.indx, 0x83), (.zp, 0x87), (.abs, 0x8F), (.zpy, 0x97)]
  | .lax o => pick o [(.indx, 0xA3), (.zp, 0xA7), (.abs, 0xAF), (.indy, 0xB3), (.zpy, 0xB7), (.absy, 0xBF)]
  | .anc k _ => [0x0B, 0x2B][k.val]?
  | .alr _ => some 0x4B
  | .arr _ => some 0x6B
  | .ane _ => some 0x8B
  | .lxa _ => some 0xAB
  | .sbx _ => some 0xCB
  | .usbc _ => some 0xEB
  | .sha o => pick o [(.indy, 0x93), (.absy, 0x9F)]
  | .tas _ => some 0x9B
  | .shy _ => some 0x9C
  | .shx _ => some 0x9E
  | .las _ => some 0xBB
  | .nopImplied k => [0x1A, 0x3A, 0x5A, 0x7A, 0xDA, 0xFA][k.val]?
  | .nopImmediate k _ => [0x80, 0x82, 0x89, 0xC2, 0xE2][k.val]?
  | .nopZeroPage k _ => [0x04, 0x44, 0x64][k.val]?
  | .nopZeroPageX k _ => [0x14, 0x34, 0x54, 0x74, 0xD4, 0xF4][k.val]?
  | .nopAbsolute _ => some 0x0C
  | .nopAbsoluteX k _ => [0x1C, 0x3C, 0x5C, 0x7C, 0xDC, 0xFC][k.val]?
  | .jam k => [0x02, 0x12, 0x22, 0x32, 0x42, 0x52, 0x62, 0x72, 0x92, 0xB2, 0xD2, 0xF2][k.val]?

/-- The operand an instruction carries, in the form its mode has. -/
def Instr.operand : Instr → Operand
  | .lda o | .ldx o | .ldy o | .sta o | .stx o | .sty o => o
  | .adc o | .sbc o | .and o | .ora o | .eor o | .cmp o | .cpx o | .cpy o | .bit o | .inc o | .dec o => o
  | .asl o | .lsr o | .rol o | .ror o => o
  | .slo o | .rla o | .sre o | .rra o | .dcp o | .isc o | .sax o | .lax o | .sha o => o
  | .tax | .tay | .txa | .tya | .tsx | .txs | .inx | .iny | .dex | .dey => .implied
  | .bpl d | .bmi d | .bvc d | .bvs d | .bcc d | .bcs d | .bne d | .beq d => .relative d
  | .jmpAbsolute w | .jsr w => .absolute w
  | .jmpIndirect w => .indirect w
  | .rts | .rti | .brk => .implied
  | .clc | .sec | .cli | .sei | .cld | .sed | .clv | .pha | .php | .pla | .plp | .nop => .implied
  | .anc _ b | .alr b | .arr b | .ane b | .lxa b | .sbx b | .usbc b => .immediate b
  | .tas w | .shx w | .las w => .absoluteY w
  | .shy w => .absoluteX w
  | .nopImplied _ | .jam _ => .implied
  | .nopImmediate _ b => .immediate b
  | .nopZeroPage _ b => .zeroPage b
  | .nopZeroPageX _ b => .zeroPageX b
  | .nopAbsolute w => .absolute w
  | .nopAbsoluteX _ w => .absoluteX w

/-- The bytes of an instruction: its opcode and then its operand bytes; `none` when it is not well formed. -/
def encode (i : Instr) : Option (List Byte) := (opcodeOf i).map (· :: i.operand.bytes)

/-- Byte `k` of a table word of `nbits` bits; every bit above `nbits` is 0. -/
def tableByte (nbits w k : Nat) : Byte := BitVec.ofNat 8 (w % 2 ^ nbits / 256 ^ k)

/-- The bytes of a table word in memory order, up to the longest instruction (three bytes). -/
def tableBytes (nbits w : Nat) : List Byte := [tableByte nbits w 0, tableByte nbits w 1, tableByte nbits w 2]

/-- The instruction the decoder reads from a table word (bit 0 the least significant bit of the first byte). -/
def decodeTableWord (nbits w : Nat) : Option Instr :=
  match decode (tableBytes nbits w) with
  | .ok (i, _) => some i
  | .error _ => none

end Sys2Proof
end

