-- ==== Sys2Proof/Machine/Flags.lean ====
section
/-! DEFINITION. The status register P (10_state R26 to R35) and every flag computation of files 41, 42 and 44. -/

namespace Sys2Proof.Machine

/-- 10_state R26: the eight flags. -/
inductive Flag where
  | c | z | i | d | b | u | v | n
  deriving DecidableEq, Repr

/-- 10_state R26: the bit of P that holds a flag. -/
def Flag.index : Flag → Nat
  | .c => 0
  | .z => 1
  | .i => 2
  | .d => 3
  | .b => 4
  | .u => 5
  | .v => 6
  | .n => 7

/-- The byte with the flag's bit alone. -/
def Flag.mask (f : Flag) : Byte := 1#8 <<< f.index

/-- `P.f`. -/
def getFlag (p : Byte) (f : Flag) : Bool := p.getLsbD f.index

/-- `P.f <- v`; every other bit of P is kept. -/
def setFlag (p : Byte) (f : Flag) (v : Bool) : Byte := if v then p ||| f.mask else p &&& ~~~f.mask

/-- 00_scope R11: `SetNZ(r)`. -/
def setNZ (p r : Byte) : Byte := setFlag (setFlag p .z (r == 0)) .n (r.getLsbD 7)

/-- A flag as the integer 0 or 1. -/
def carryNat (c : Bool) : Nat := if c then 1 else 0

/-- 41_arith_logic R160: the exact sum of `AddCore`. -/
def addSum (a m : Byte) (c : Bool) : Nat := a.toNat + m.toNat + carryNat c

/-- 41_arith_logic R160: the result byte of `AddCore`. -/
def addResult (a m : Byte) (c : Bool) : Byte := BitVec.ofNat 8 (addSum a m c)

/-- 41_arith_logic R160: P after `AddCore`: C the carry out of bit 7, V the signed overflow, N and Z from the result. -/
def addFlags (p a m : Byte) : Byte :=
  let r := addResult a m (getFlag p .c)
  let p1 := setFlag p .c (decide (0xFF < addSum a m (getFlag p .c)))
  let p2 := setFlag p1 .v (a.getLsbD 7 == m.getLsbD 7 && r.getLsbD 7 != a.getLsbD 7)
  setNZ p2 r

/-- 41_arith_logic R165: P after `Compare(r, m)`. -/
def compareFlags (p r m : Byte) : Byte := setNZ (setFlag p .c (decide (m.toNat ≤ r.toNat))) (r - m)

/-- 41_arith_logic R168: P after BIT of A with m. -/
def bitFlags (p a m : Byte) : Byte :=
  setFlag (setFlag (setFlag p .z (a &&& m == 0)) .n (m.getLsbD 7)) .v (m.getLsbD 6)

/-- 42_shift_rotate R190: the four kinds of shift. -/
inductive ShiftKind where
  | asl | lsr | rol | ror
  deriving DecidableEq, Repr

/-- A bit as a byte, 0 or 1. -/
def bitByte (c : Bool) : Byte := if c then 1 else 0

/-- 42_shift_rotate R190: the result of `Shift(kind, m)`; `cin` is P.C before the shift. -/
def shiftResult (k : ShiftKind) (cin : Bool) (m : Byte) : Byte :=
  match k with
  | .asl => m <<< 1
  | .lsr => m >>> 1
  | .rol => (m <<< 1) ||| bitByte cin
  | .ror => (m >>> 1) ||| (bitByte cin <<< 7)

/-- 42_shift_rotate R190: the bit a shift moves into P.C. -/
def shiftCarry (k : ShiftKind) (m : Byte) : Bool :=
  match k with
  | .asl | .rol => m.getLsbD 7
  | .lsr | .ror => m.getLsbD 0

/-- 42_shift_rotate R190: P after `Shift(kind, m)`, which writes only C. -/
def shiftFlags (k : ShiftKind) (p m : Byte) : Byte := setFlag p .c (shiftCarry k m)

/-- 44_undocumented R249: P after ANC with the result r: N, Z from r and C = N. -/
def ancFlags (p r : Byte) : Byte := setFlag (setNZ p r) .c (r.getLsbD 7)

/-- 44_undocumented R251: P after ARR with the result r: N, Z from r, C = bit 6, V = bit 6 xor bit 5. -/
def arrFlags (p r : Byte) : Byte :=
  setFlag (setFlag (setNZ p r) .c (r.getLsbD 6)) .v (xor (r.getLsbD 6) (r.getLsbD 5))

/-- 43_control_stack_flags R231: the copy of P that PHP pushes, with B = 1 and U = 1. -/
def phpImage (p : Byte) : Byte := p ||| 0x30

/-- 60_exceptions R293, R295: the copy of P that the interrupt sequence pushes, with B = 0 and U = 1. -/
def nmiImage (p : Byte) : Byte := (p &&& 0xEF) ||| 0x20

/-- 43_control_stack_flags R215, R233: P from a pulled byte, with B = 0 and U = 1. -/
def pulledStatus (v : Byte) : Byte := (v &&& 0xEF) ||| 0x20

end Sys2Proof.Machine
end

