-- ==== Sys2Proof/Config.lean ====
section
/-! DEFINITION. The parameters of 00_scope R7 that the spec leaves to the model's caller, as plain data, and the free
values (93_implementation_defined I4, I5). A machine carries its `Config` and no step changes it, so a claim about every
state is a claim about every choice of parameters (assumption log 7). -/

namespace Sys2Proof

/-- 00_scope R7 `BUS_POLICY`: what an access with no routing does (20_memory R66, R68). -/
inductive BusPolicy where
  | fault | openBus
  deriving DecidableEq, Repr

/-- 00_scope R7 `JAM_POLICY`: what the twelve JAM opcodes do (44_undocumented R268). -/
inductive JamPolicy where
  | nop | stuck
  deriving DecidableEq, Repr

/-- 00_scope R7 `UNSTABLE_POLICY`: ANE, LXA, SHA, TAS, SHX, SHY (30_encoding R108). -/
inductive UnstablePolicy where
  | defined | refuse
  deriving DecidableEq, Repr

/-- 00_scope R7 `PC_ADVANCE`: how the loop detects a control transfer (30_encoding R124). -/
inductive PcAdvance where
  | explicit | compare
  deriving DecidableEq, Repr

/-- 00_scope R7 `SCROLL_TOGGLE`: whether the scroll port shares the address latch toggle (60_exceptions R304). -/
inductive ScrollToggle where
  | shared | separate
  deriving DecidableEq, Repr

/-- 00_scope R7 `MAGIC` (44_undocumented R252, R253): a fixed byte, or any value per execution (93 I4). -/
inductive MagicSource where
  | fixed (b : Byte)
  | draw
  deriving DecidableEq, Repr

/-- 00_scope R7 `SPRITE_STATUS` (60_exceptions R301): a draw on each STATUS read, or two fixed bits (bit 0 of the pair is
STATUS bit 5, bit 1 is STATUS bit 6). -/
inductive SpriteSource where
  | fixed (b : BitVec 2)
  | draw
  deriving DecidableEq, Repr

/-- The parameters of 00_scope R7. -/
structure Config where
  busPolicy : BusPolicy
  jamPolicy : JamPolicy
  unstablePolicy : UnstablePolicy
  magic : MagicSource
  pcAdvance : PcAdvance
  scrollToggle : ScrollToggle
  spriteStatus : SpriteSource
  deriving DecidableEq, Repr

/-- The default of every parameter (00_scope R7). -/
def Config.default : Config where
  busPolicy := .fault
  jamPolicy := .nop
  unstablePolicy := .defined
  magic := .fixed 0xFF
  pcAdvance := .explicit
  scrollToggle := .shared
  spriteStatus := .draw

/-- FREE VALUE (60_exceptions R301, 93 I5; assumption log 5): STATUS bits 5 and 6 as the n-th draw gives them. -/
opaque Config.freeSpriteBits : Nat → BitVec 2

/-- FREE VALUE (44_undocumented R252, 93 I4; assumption log 6): MAGIC as the n-th draw gives it. -/
opaque Config.freeMagic : Nat → Byte

end Sys2Proof
end

