-- ==== Sys2Proof/Machine/State.lean ====
section
/-! DEFINITION. The state of the machine (10_state), as plain data, the reasons a step can stop, and the state after reset
(70_reset_and_hazards R340, R348). -/

namespace Sys2Proof.Machine

/-- A memory: (address, byte) pairs in one canonical form (`Memory.wf`, Machine/Memory.lean). -/
abbrev Memory := List Host.Cell

/-- 00_scope R7, 20_memory R65: a program ROM is 16384 or 32768 bytes. -/
inductive PrgSize where
  | k16 | k32
  deriving DecidableEq, Repr

/-- 00_scope R7, 60_exceptions R323: the nametable mirroring mode of the cartridge. -/
inductive Mirroring where
  | horizontal | vertical
  deriving DecidableEq, Repr

/-- 10_state R38: the cartridge, read-only state supplied by the host. No step writes it. -/
structure Cartridge where
  prgSize : PrgSize
  /-- `CART.prg`, keyed by the offset in the ROM -/
  prg : Memory
  /-- `CART.chr`, keyed by the video address 0x0000-0x1FFF -/
  chr : Memory
  mirroring : Mirroring
  deriving DecidableEq, Repr

/-- 60_exceptions R305: the eight ports of the video unit, by number. -/
inductive Port where
  | ctrl | mask | status | oamAddr | oamData | scroll | addr | data
  deriving DecidableEq, Repr

/-- 60_exceptions R281: the kind of an unmapped access. -/
inductive AccessKind where
  | read | write
  deriving DecidableEq, Repr

/-- 60_exceptions R281: the info of an `InvalidAddress` fault. -/
inductive AddressFault where
  /-- a CPU access to 0x4000-0x7FFF under `BUS_POLICY = fault` (20_memory R66) -/
  | unmapped (kind : AccessKind) (a : Word)
  /-- a CPU write to 0x8000-0xFFFF (20_memory R67) -/
  | romWrite (a : Word)
  /-- a CPU read of port 0, 1, 3, 5 or 6 under `BUS_POLICY = fault` (60_exceptions R305) -/
  | writeOnlyPortRead (p : Port) (a : Word)
  /-- a CPU write of port 2 under `BUS_POLICY = fault` (60_exceptions R305) -/
  | readOnlyPortWrite (a : Word)
  /-- a data-port write at a VADDR below 0x2000 (60_exceptions R320) -/
  | chrRomWrite (v : Word)
  deriving DecidableEq, Repr

/-- 60_exceptions R281: the kinds of fault. The `(op_addr, opc)` that R281 lists as the info of two kinds stands in the
record (R282). -/
inductive FaultKind where
  | unsupportedOpcode
  | invalidAddress (info : AddressFault)
  | addressingModeUnsupported
  deriving DecidableEq, Repr

/-- 60_exceptions R282: the record of a fault. `opc` is `none` when the opcode fetch itself faulted. -/
structure FaultRecord where
  kind : FaultKind
  opAddr : Word
  opc : Option Byte
  a : Byte
  x : Byte
  y : Byte
  sp : Byte
  p : Byte
  pc : Word
  cycles : Nat
  deriving DecidableEq, Repr

/-- 10_state R43: the run state. -/
inductive RunState where
  | running
  /-- the halt opcode was executed (43_control_stack_flags R216) -/
  | halted
  | faulted (r : FaultRecord)
  /-- 30_encoding R108 -/
  | refused (opAddr : Word) (opc : Byte)
  deriving DecidableEq, Repr

/-- 10_state R39: the video timing unit. -/
structure Video where
  /-- 60_exceptions R300 -/
  ctrl : Byte
  /-- 60_exceptions R302 -/
  mask : Byte
  /-- 60_exceptions R301 -/
  status : Byte
  /-- 60_exceptions R303 -/
  oamAddr : Byte
  /-- 60_exceptions R304 -/
  scrollX : Byte
  /-- 60_exceptions R304 -/
  scrollY : Byte
  /-- WS, the scroll port's own toggle (60_exceptions R304); used only when `SCROLL_TOGGLE = separate` -/
  ws : Bool
  /-- VADDR (60_exceptions R317) -/
  vaddr : Word
  /-- W, the latch toggle: false = the next write fills the high byte (60_exceptions R317) -/
  w : Bool
  /-- RDBUF (60_exceptions R319) -/
  rdbuf : Byte
  /-- 60_exceptions R323 -/
  vram : Memory
  /-- 60_exceptions R324 -/
  palette : Memory
  /-- 60_exceptions R303 -/
  oam : Memory
  /-- 60_exceptions R306 -/
  scanline : Nat
  /-- 60_exceptions R306 -/
  dot : Nat
  /-- NMI_PENDING (60_exceptions R290) -/
  nmiPending : Bool
  /-- FRAMES (60_exceptions R310) -/
  frames : Nat
  deriving DecidableEq, Repr

/-- The machine: the one mutable aggregate of 10_state (processor, bus, video unit), with the cartridge (R38) and the
parameters (00_scope R7) that it is run under. -/
structure State where
  /-- 10_state R21 -/
  a : Byte
  /-- 10_state R22 -/
  x : Byte
  /-- 10_state R23 -/
  y : Byte
  /-- 10_state R24 -/
  sp : Byte
  /-- 10_state R26: C, Z, I, D, B, U, V, N from bit 0 upward -/
  p : Byte
  /-- 10_state R25 -/
  pc : Word
  /-- 10_state R43 -/
  run : RunState
  /-- 10_state R37: RAM, keyed by the RAM index 0..2047 -/
  ram : Memory
  /-- 10_state R39 -/
  video : Video
  /-- CYCLES (10_state R40) -/
  cycles : Nat
  /-- LATCH (10_state R41); used only when `BUS_POLICY = open_bus` -/
  latch : Byte
  /-- 10_state R38 -/
  cart : Cartridge
  /-- 00_scope R7 -/
  cfg : Config
  /-- the model's own field: how many free values have been drawn (assumption log 5) -/
  draws : Nat
  deriving DecidableEq, Repr

/-! The updates of one field, by name: every write of the machine's registers goes through them. -/

def State.setA (s : State) (v : Byte) : State := { s with a := v }
def State.setX (s : State) (v : Byte) : State := { s with x := v }
def State.setY (s : State) (v : Byte) : State := { s with y := v }
def State.setSp (s : State) (v : Byte) : State := { s with sp := v }
def State.setP (s : State) (v : Byte) : State := { s with p := v }
def State.setPc (s : State) (v : Word) : State := { s with pc := v }
def State.setRun (s : State) (v : RunState) : State := { s with run := v }
def State.setRam (s : State) (v : Memory) : State := { s with ram := v }
def State.setVideo (s : State) (v : Video) : State := { s with video := v }
def State.setCycles (s : State) (v : Nat) : State := { s with cycles := v }
def State.setLatch (s : State) (v : Byte) : State := { s with latch := v }
def State.setCart (s : State) (v : Cartridge) : State := { s with cart := v }
def State.setDraws (s : State) (v : Nat) : State := { s with draws := v }

/-- 10_state R39: the video unit at construction; its memories list nothing (assumption log 2). -/
def Video.construction : Video where
  ctrl := 0x00
  mask := 0x00
  status := 0x00
  oamAddr := 0x00
  scrollX := 0x00
  scrollY := 0x00
  ws := false
  vaddr := 0x0000
  w := false
  rdbuf := 0x00
  vram := []
  palette := []
  oam := []
  scanline := 0
  dot := 0
  nmiPending := false
  frames := 0

/-- DESIGN CHOICE (assumption log 1): the cartridge of the reset state, a 32 KiB program ROM and a character ROM of 0x00
and horizontal mirroring. The spec leaves the cartridge to the host. -/
def Cartridge.blank : Cartridge where
  prgSize := .k32
  prg := []
  chr := []
  mirroring := .horizontal

/-- 70_reset_and_hazards R340, R348: the machine after construction and `reset()`, with the cartridge `Cartridge.blank`
(whose reset vector reads 0x0000) and the default parameters of 00_scope R7. -/
def State.reset : State where
  a := 0x00
  x := 0x00
  y := 0x00
  sp := 0xFD
  p := 0x00
  pc := 0x0000
  run := .running
  ram := []
  video := .construction
  cycles := 0
  latch := 0x00
  cart := .blank
  cfg := .default
  draws := 0

/-- Why a step has no next state. `after` is the machine as the fault leaves it: its run state is `faulted(record)` and
every write made before the failing access stands (60_exceptions R282, R283). -/
inductive Fault where
  /-- 30_encoding R104. Raised by the opcode fetch on a byte with no record; the table has none, so it is unreachable.
  Safe. -/
  | unsupportedOpcode (after : State)
  /-- 60_exceptions R281. Raised by the bus access of any instruction that has no defined routing. Safe: the spec's own
  fault. -/
  | invalidAddress (info : AddressFault) (after : State)
  /-- 30_encoding R106. Raised by the meaning of an instruction whose operand form has no row; the decoder builds no such
  instruction, so it is unreachable from a step. Safe. -/
  | addressingModeUnsupported (after : State)
  /-- 30_encoding R126. Raised by a JAM under `JAM_POLICY = stuck`: the step has no outcome and `before` is kept. Safe. -/
  | stuck (before : State)
  /-- 10_state R43. Raised by a step from `halted`, `faulted` or `refused`, which have no next step (assumption log 9).
  Safe. -/
  | notRunning (run : RunState)
  deriving DecidableEq, Repr

/-- Why the model gives an instruction no meaning. -/
inductive Refusal where
  /-- Raised by `exec` for an instruction not modelled yet; no arm does. Safe. -/
  | notModelled (mnemonic : String)
  /-- 30_encoding R108. Raised by ANE, LXA, SHA, TAS, SHX, SHY under `UNSTABLE_POLICY = refuse`; `after` has the run state
  `refused(op_addr, opc)`. Safe: the spec's own refusal. -/
  | unstableOpcode (after : State)
  deriving DecidableEq, Repr

/-- The machine as a refusal of a step from `before` leaves it. -/
def Refusal.leaves (before : State) : Refusal → State
  | .notModelled _ => before
  | .unstableOpcode after => after

/-- 60_exceptions R310: whether the step from `before` to `after` raised the frame-completion signal (assumption log 15). -/
def frameCompleted (before after : State) : Bool := decide (before.video.frames < after.video.frames)

end Sys2Proof.Machine
end

