-- ==== Sys2Proof/Machine/Memory.lean ====
section
/-! DEFINITION. Byte memories in one canonical form: addresses strictly rising and no entry equal to the fill. -/

namespace Sys2Proof.Machine

/-- DESIGN CHOICE (assumption log 2): what a cell that nothing has written reads as. 93_implementation_defined I12 leaves
it unspecified. -/
def Memory.fill : Byte := 0x00

/-- The byte at an address. -/
def Memory.read : Memory → Nat → Byte
  | [], _ => Memory.fill
  | (k, v) :: m, a => if a = k then v else Memory.read m a

/-- Put an entry before a list, unless it says what an unlisted address says. -/
def Memory.cons (a : Nat) (v : Byte) (m : Memory) : Memory := if v = Memory.fill then m else (a, v) :: m

/-- Store a byte, keeping the canonical form. -/
def Memory.write : Memory → Nat → Byte → Memory
  | [], a, v => Memory.cons a v []
  | (k, w) :: m, a, v =>
    if a < k then Memory.cons a v ((k, w) :: m)
    else if a = k then Memory.cons a v m
    else (k, w) :: Memory.write m a v

/-- The canonical form, given that every address is at least `low`. -/
def Memory.wfFrom : Nat → Memory → Bool
  | _, [] => true
  | low, (k, v) :: m => decide (low ≤ k) && decide (v ≠ Memory.fill) && Memory.wfFrom (k + 1) m

/-- The canonical form: addresses strictly rising, no entry equal to the fill. -/
def Memory.wf (m : Memory) : Bool := Memory.wfFrom 0 m

/-- Every listed address is below `size`. -/
def Memory.below (size : Nat) (m : Memory) : Bool := m.all fun c => decide (c.1 < size)

/-- Store bytes at consecutive addresses. -/
def Memory.writeAll (m : Memory) (a : Nat) : List Byte → Memory
  | [] => m
  | b :: bs => Memory.writeAll (Memory.write m a b) (a + 1) bs

end Sys2Proof.Machine
end

