-- ==== Sys2Proof/Machine/Video.lean ====
section
/-! DEFINITION. The video timing unit as functions on its own state: counters (60_exceptions R306 to R313), registers
(R300 to R311), address latch, data port and memories (R317 to R324). -/

namespace Sys2Proof.Machine

/-- 00_scope R7. -/
def dotsPerLine : Nat := 341

/-- 00_scope R7. -/
def linesPerFrame : Nat := 262

/-- 00_scope R7. -/
def vblankLine : Nat := 241

/-- 00_scope R7. -/
def dotsPerCycle : Nat := 3

/-- 60_exceptions R308: entering scanline 241. -/
def Video.enterVblank (v : Video) : Video :=
  { v with status := v.status ||| 0x80, nmiPending := v.nmiPending || v.ctrl.getLsbD 7 }

/-- 60_exceptions R309: reaching scanline 262. The frame-completion signal is the change of FRAMES (R310). -/
def Video.endFrame (v : Video) : Video :=
  { v with scanline := 0, nmiPending := false, status := v.status &&& 0x7F, frames := v.frames + 1 }

/-- 60_exceptions R307: entering the scanline the counter has moved to. -/
def Video.enterLine (v : Video) : Video :=
  if v.scanline = vblankLine then v.enterVblank else if v.scanline = linesPerFrame then v.endFrame else v

/-- 60_exceptions R307: one dot. -/
def Video.dotStep (v : Video) : Video :=
  if v.dot + 1 = dotsPerLine then Video.enterLine { v with dot := 0, scanline := v.scanline + 1 }
  else { v with dot := v.dot + 1 }

/-- 60_exceptions R307: `VideoTick(n)`. -/
def Video.tick : Nat → Video → Video
  | 0, v => v
  | n + 1, v => Video.tick n v.dotStep

/-- 60_exceptions R292: `PollNMI()`, the flag and the unit with the flag cleared. -/
def Video.poll (v : Video) : Bool × Video := (v.nmiPending, { v with nmiPending := false })

/-- 60_exceptions R305, R311: a write of port 0, with the live re-trigger of `CtrlWritten`. -/
def Video.writeCtrl (v : Video) (b : Byte) : Video :=
  { v with
    ctrl := b
    nmiPending := v.nmiPending || (!v.ctrl.getLsbD 7 && b.getLsbD 7 && v.status.getLsbD 7) }

/-- 60_exceptions R301, R305: the byte a STATUS read returns; `sprite` holds bits 5 and 6. -/
def Video.statusByte (v : Video) (sprite : BitVec 2) : Byte := (v.status &&& 0x9F) ||| (sprite.setWidth 8 <<< 5)

/-- 60_exceptions R305: what a STATUS read leaves: vertical blank and the latch toggle cleared. -/
def Video.afterStatusRead (v : Video) : Video := { v with status := v.status &&& 0x7F, w := false }

/-- 60_exceptions R303: a read of port 4. -/
def Video.oamByte (v : Video) : Byte := v.oam.read v.oamAddr.toNat

/-- 60_exceptions R303: a write of port 4. -/
def Video.writeOam (v : Video) (b : Byte) : Video :=
  { v with oam := v.oam.write v.oamAddr.toNat b, oamAddr := v.oamAddr + 1 }

/-- 60_exceptions R304: the byte a scroll write fills, given the toggle it goes by. -/
def Video.fillScroll (v : Video) (second : Bool) (b : Byte) : Video :=
  if second then { v with scrollY := b } else { v with scrollX := b }

/-- 60_exceptions R304: a write of port 5. -/
def Video.writeScroll (v : Video) (t : ScrollToggle) (b : Byte) : Video :=
  match t with
  | .shared => { v.fillScroll v.w b with w := !v.w }
  | .separate => { v.fillScroll v.ws b with ws := !v.ws }

/-- 60_exceptions R317: a write of port 6. -/
def Video.writeAddr (v : Video) (b : Byte) : Video :=
  { v with
    vaddr := (if v.w then word (hi v.vaddr) b else word b (lo v.vaddr)) &&& 0x3FFF
    w := !v.w }

/-- 60_exceptions R321: `Increment()`. -/
def Video.increment (v : Video) : Video :=
  { v with vaddr := (v.vaddr + (if v.ctrl.getLsbD 2 then 32 else 1)) &&& 0x3FFF }

/-- 60_exceptions R323: `NtIndex(a)`. For an address in 0x2000-0x3FFF, `(a & 0x2FFF) - 0x2000` is its low 12 bits. -/
def ntIndex (m : Mirroring) (a : Word) : Nat :=
  let i := a.toNat % 0x1000
  let t := i / 0x400
  match m with
  | .vertical => i - (if t = 2 ∨ t = 3 then 0x800 else 0)
  | .horizontal => i - (if t = 0 then 0 else if t = 1 ∨ t = 2 then 0x400 else 0x800)

/-- 60_exceptions R324: `PalIndex(a)`. -/
def palIndex (a : Word) : Nat :=
  let i := (a.toNat - 0x3F00) % 0x20
  if i = 0x10 ∨ i = 0x14 ∨ i = 0x18 ∨ i = 0x1C then i - 0x10 else i

/-- 60_exceptions R322: `VideoMem(a)`. -/
def videoMem (c : Cartridge) (v : Video) (a : Word) : Byte :=
  if a.toNat < 0x2000 then c.chr.read a.toNat
  else if a.toNat < 0x3F00 then v.vram.read (ntIndex c.mirroring a)
  else v.palette.read (palIndex a)

/-- 60_exceptions R319: the byte `DataRead()` returns. -/
def Video.dataByte (v : Video) : Byte := if v.vaddr.toNat < 0x3F00 then v.rdbuf else v.palette.read (palIndex v.vaddr)

/-- 60_exceptions R319: the byte `DataRead()` leaves in RDBUF. -/
def Video.refill (c : Cartridge) (v : Video) : Byte :=
  if v.vaddr.toNat < 0x3F00 then videoMem c v v.vaddr else v.vram.read (ntIndex c.mirroring v.vaddr)

/-- 60_exceptions R319: what `DataRead()` leaves. -/
def Video.afterDataRead (c : Cartridge) (v : Video) : Video := Video.increment { v with rdbuf := v.refill c }

/-- 60_exceptions R320: `DataWrite(b)`; `none` is the character-ROM fault. -/
def Video.writeData (m : Mirroring) (v : Video) (b : Byte) : Option Video :=
  if v.vaddr.toNat < 0x2000 then none
  else if v.vaddr.toNat < 0x3F00 then
    some (Video.increment { v with vram := v.vram.write (ntIndex m v.vaddr) b })
  else some (Video.increment { v with palette := v.palette.write (palIndex v.vaddr) b })

end Sys2Proof.Machine
end

