-- ==== Sys2Proof/Machine/Ops.lean ====
section
/-! DEFINITION. The operations every instruction is built of: the bus (20_memory), the video ports (60_exceptions R305),
the stack, the cycle charge, faults, the interrupt sequence and the return from it, and the end of an instruction step. -/

namespace Sys2Proof.Machine

/-- 00_scope R7. -/
def stackPage : Word := 0x0100

/-- 00_scope R7. -/
def nmiVector : Word := 0xFFFA

/-- 00_scope R7. -/
def resetVector : Word := 0xFFFC

/-- 00_scope R7. -/
def nmiCycles : Nat := 7

/-- 00_scope R7. -/
def ramSize : Nat := 0x800

/-- What a bus access (or a sequence of them) does: a value and the state it leaves, or a fault and the state it leaves
(60_exceptions R283). -/
inductive Access (α : Type) where
  | ok (v : α) (s : State)
  | fail (k : FaultKind) (s : State)
  deriving DecidableEq, Repr

/-- One access after another: nothing happens after the first fault (00_scope R10). -/
def Access.bind {α β : Type} (r : Access α) (f : α → State → Access β) : Access β :=
  match r with
  | .ok v s => f v s
  | .fail k s => .fail k s

/-! ## The CPU address map (20_memory R60) -/

/-- 20_memory R60: what an address reaches. -/
inductive Region where
  /-- RAM, by its index (R63) -/
  | ram (i : Nat)
  /-- a video port (R64) -/
  | port (p : Port)
  /-- no routing (R66) -/
  | unrouted
  /-- program ROM, by the distance from 0x8000 (R65) -/
  | rom (offset : Nat)
  deriving DecidableEq, Repr

/-- 20_memory R64: the port of an address, `a & 7`. -/
def portOf (a : Word) : Port :=
  match a.toNat % 8 with
  | 0 => .ctrl
  | 1 => .mask
  | 2 => .status
  | 3 => .oamAddr
  | 4 => .oamData
  | 5 => .scroll
  | 6 => .addr
  | _ => .data

/-- 20_memory R60 to R66. `a & 0x07FF` is `a mod 2048`. -/
def regionOf (a : Word) : Region :=
  if a.toNat ≤ 0x1FFF then .ram (a.toNat % ramSize)
  else if a.toNat ≤ 0x3FFF then .port (portOf a)
  else if a.toNat ≤ 0x7FFF then .unrouted
  else .rom (a.toNat - 0x8000)

/-- 20_memory R65: `len(CART.prg)`. -/
def PrgSize.length : PrgSize → Nat
  | .k16 => 0x4000
  | .k32 => 0x8000

/-- 20_memory R65: where in `CART.prg` the ROM window's byte lies. -/
def Cartridge.prgIndex (c : Cartridge) (offset : Nat) : Nat := offset % c.prgSize.length

/-- 20_memory R65: the byte of the ROM window at a distance from 0x8000. -/
def Cartridge.prgByte (c : Cartridge) (offset : Nat) : Byte := c.prg.read (c.prgIndex offset)

/-! ## The video ports (60_exceptions R305) -/

/-- 60_exceptions R301: bits 5 and 6 of a STATUS read. A draw takes the next free value (assumption log 5). -/
def spriteBits (s : State) : BitVec 2 × State :=
  match s.cfg.spriteStatus with
  | .fixed b => (b, s)
  | .draw => (Config.freeSpriteBits s.draws, s.setDraws (s.draws + 1))

/-- 60_exceptions R305: a read of port 2. -/
def readStatus (s : State) : Access Byte :=
  let d := spriteBits s
  .ok (s.video.statusByte d.1) (d.2.setVideo s.video.afterStatusRead)

/-- 60_exceptions R305, 20_memory R68: a read of a write-only port. -/
def readWriteOnly (p : Port) (a : Word) (s : State) : Access Byte :=
  match s.cfg.busPolicy with
  | .openBus => .ok s.latch s
  | .fault => .fail (.invalidAddress (.writeOnlyPortRead p a)) s

/-- 60_exceptions R305: `PortRead(p)`. -/
def portRead (p : Port) (a : Word) (s : State) : Access Byte :=
  match p with
  | .status => readStatus s
  | .oamData => .ok s.video.oamByte s
  | .data => .ok s.video.dataByte (s.setVideo (s.video.afterDataRead s.cart))
  | .ctrl | .mask | .oamAddr | .scroll | .addr => readWriteOnly p a s

/-- 60_exceptions R305: `PortWrite(p, v)`. -/
def portWrite (p : Port) (a : Word) (v : Byte) (s : State) : Access Unit :=
  match p with
  | .ctrl => .ok () (s.setVideo (s.video.writeCtrl v))
  | .mask => .ok () (s.setVideo { s.video with mask := v })
  | .status =>
    match s.cfg.busPolicy with
    | .openBus => .ok () s
    | .fault => .fail (.invalidAddress (.readOnlyPortWrite a)) s
  | .oamAddr => .ok () (s.setVideo { s.video with oamAddr := v })
  | .oamData => .ok () (s.setVideo (s.video.writeOam v))
  | .scroll => .ok () (s.setVideo (s.video.writeScroll s.cfg.scrollToggle v))
  | .addr => .ok () (s.setVideo (s.video.writeAddr v))
  | .data =>
    match s.video.writeData s.cart.mirroring v with
    | some u => .ok () (s.setVideo u)
    | none => .fail (.invalidAddress (.chrRomWrite s.video.vaddr)) s

/-! ## The bus (20_memory R61, R62) -/

/-- 20_memory R69: LATCH takes the byte of an access, under the open-bus policy only. -/
def State.latched (s : State) (v : Byte) : State :=
  match s.cfg.busPolicy with
  | .openBus => s.setLatch v
  | .fault => s

/-- 20_memory R66, R68: `NoRoute(read, a)`. -/
def unroutedRead (a : Word) (s : State) : Access Byte :=
  match s.cfg.busPolicy with
  | .openBus => .ok s.latch s
  | .fault => .fail (.invalidAddress (.unmapped .read a)) s

/-- 20_memory R66, R68: `NoRoute(write, a)`. -/
def unroutedWrite (a : Word) (s : State) : Access Unit :=
  match s.cfg.busPolicy with
  | .openBus => .ok () s
  | .fault => .fail (.invalidAddress (.unmapped .write a)) s

/-- 20_memory R61: the region's part of a read. -/
def regionRead (a : Word) (s : State) : Access Byte :=
  match regionOf a with
  | .ram i => .ok (s.ram.read i) s
  | .port p => portRead p a s
  | .unrouted => unroutedRead a s
  | .rom offset => .ok (s.cart.prgByte offset) s

/-- 20_memory R61: `MemRead(a, 1)`. -/
def memRead (a : Word) (s : State) : Access Byte := (regionRead a s).bind fun v t => .ok v (t.latched v)

/-- 20_memory R62: the region's part of a write. -/
def regionWrite (a : Word) (v : Byte) (s : State) : Access Unit :=
  match regionOf a with
  | .ram i => .ok () (s.setRam (s.ram.write i v))
  | .port p => portWrite p a v s
  | .unrouted => unroutedWrite a s
  | .rom _ => .fail (.invalidAddress (.romWrite a)) s

/-- 20_memory R62: `MemWrite(a, 1, v)`. -/
def memWrite (a : Word) (v : Byte) (s : State) : Access Unit := regionWrite a v (s.latched v)

/-- 20_memory R72: `MemRead16(a)`, low byte first. -/
def memRead16 (a : Word) (s : State) : Access Word :=
  (memRead a s).bind fun l t => (memRead (a + 1) t).bind fun h u => .ok (word h l) u

/-! ## The stack (20_memory R74 to R77) -/

/-- 20_memory R74: the cell SP names. -/
def stackCell (sp : Byte) : Word := stackPage + zext sp

/-- 20_memory R75. -/
def push (v : Byte) (s : State) : Access Unit :=
  (memWrite (stackCell s.sp) v s).bind fun _ t => .ok () (t.setSp (t.sp - 1))

/-- 20_memory R76. -/
def pop (s : State) : Access Byte := memRead (stackCell (s.sp + 1)) (s.setSp (s.sp + 1))

/-! ## The cycle charge (30_encoding R123) -/

/-- 30_encoding R123: `Tick(n)`. -/
def tick (n : Nat) (s : State) : State :=
  (s.setCycles (s.cycles + n)).setVideo (s.video.tick (dotsPerCycle * n))

/-! ## Faults (60_exceptions R281 to R283) -/

/-- 60_exceptions R282: the record of a fault raised in a state. -/
def faultRecord (k : FaultKind) (opAddr : Word) (opc : Option Byte) (s : State) : FaultRecord where
  kind := k
  opAddr := opAddr
  opc := opc
  a := s.a
  x := s.x
  y := s.y
  sp := s.sp
  p := s.p
  pc := s.pc
  cycles := s.cycles

/-- 60_exceptions R280: the machine in the terminal run state `faulted(record)`. -/
def faulted (k : FaultKind) (opAddr : Word) (opc : Option Byte) (s : State) : State :=
  s.setRun (.faulted (faultRecord k opAddr opc s))

/-- 60_exceptions R281: `raise Fault(kind, info)`. -/
def raise (k : FaultKind) (opAddr : Word) (opc : Option Byte) (s : State) : Host.Outcome State Fault Refusal :=
  match k with
  | .unsupportedOpcode => .fault (.unsupportedOpcode (faulted k opAddr opc s))
  | .invalidAddress info => .fault (.invalidAddress info (faulted k opAddr opc s))
  | .addressingModeUnsupported => .fault (.addressingModeUnsupported (faulted k opAddr opc s))

/-! ## The interrupt sequence and the return from it (60_exceptions R295, 43_control_stack_flags R215) -/

/-- 60_exceptions R295: `InterruptSequence()`. -/
def interruptSequence (s : State) : Access Unit :=
  (push (hi s.pc) s).bind fun _ s1 =>
    (push (lo s.pc) s1).bind fun _ s2 =>
      (push (nmiImage s2.p) s2).bind fun _ s3 =>
        (memRead16 nmiVector (tick nmiCycles (s3.setP (setFlag s3.p .i true)))).bind fun target s4 =>
          .ok () (s4.setPc target)

/-- 60_exceptions R295: the interrupt sequence as one whole step. It cannot fault (R284). -/
def takeInterrupt (s : State) : Host.Outcome State Fault Refusal :=
  match interruptSequence s with
  | .ok _ t => .next t
  | .fail k t => raise k s.pc none t

/-- What an instruction's rule reports to the step (30_encoding R121, R124, R125): whether its indexed address crossed a
page, the cycles it adds itself, and whether it set PC. -/
structure Done where
  cross : Bool := false
  extra : Nat := 0
  transferred : Bool := false
  deriving DecidableEq, Repr

/-- 43_control_stack_flags R215: the pulls of RTI: P (with B = 0, U = 1), then PC low, then PC high. -/
def returnFromInterrupt (s : State) : Access Done :=
  (pop s).bind fun p s1 =>
    (pop (s1.setP (pulledStatus p))).bind fun l s2 =>
      (pop s2).bind fun h s3 => .ok { transferred := true } (s3.setPc (word h l))

/-! ## The end of an instruction step (30_encoding R121 to R125) -/

/-- 30_encoding R121, R123: the cycles an instruction charges. -/
def cost (r : Row) (d : Done) : Nat := r.cycles + (if d.cross && r.penalty then 1 else 0) + d.extra

/-- 30_encoding R124: whether the program-counter advance is skipped; `entry` is PC when the rule began, op_addr + 1. -/
def skipsAdvance (entry : Word) (d : Done) (t : State) : Bool :=
  match t.cfg.pcAdvance with
  | .explicit => d.transferred
  | .compare => t.pc != entry

/-- 30_encoding R124: PC after the advance. -/
def pcAfter (r : Row) (entry : Word) (d : Done) (t : State) : Word :=
  if skipsAdvance entry d t then t.pc else t.pc + BitVec.ofNat 16 (r.mode.bytes - 1)

/-- 30_encoding R125: the PC advance and the cycle charge after an instruction's rule has run. -/
def finish (r : Row) (entry : Word) (d : Done) (t : State) : State := tick (cost r d) (t.setPc (pcAfter r entry d t))

/-- 30_encoding R102: the opcode and the record of an instruction. -/
def rowOf (i : Instr) : Option (Byte × Row) := (opcodeOf i).bind fun opc => (recordOf opc).map fun r => (opc, r)

/-- 30_encoding R125: run the rule of an instruction. PC holds op_addr + 1 (R109). An operand form that has no row is the
mode mismatch of R106. -/
def perform (i : Instr) (rule : State → Access Done) (s : State) : Host.Outcome State Fault Refusal :=
  match rowOf i with
  | none => raise .addressingModeUnsupported (s.pc - 1) none s
  | some (opc, r) =>
    match rule s with
    | .ok d t => .next (finish r s.pc d t)
    | .fail k t => raise k (s.pc - 1) (some opc) t

/-- 30_encoding R108: the refusal of an unstable opcode. -/
def refuseUnstable (opAddr : Word) (opc : Byte) (s : State) : Host.Outcome State Fault Refusal :=
  .refused (.unstableOpcode (s.setRun (.refused opAddr opc)))

/-- 30_encoding R108: run the rule of an unstable instruction, unless the policy refuses it. -/
def performUnstable (i : Instr) (rule : State → Access Done) (s : State) : Host.Outcome State Fault Refusal :=
  match rowOf i, s.cfg.unstablePolicy with
  | some (opc, _), .refuse => refuseUnstable (s.pc - 1) opc s
  | _, _ => perform i rule s

end Sys2Proof.Machine
end

