-- ==== Sys2Proof/Machine/Operands.lean ====
section
/-! DEFINITION. The addressing modes (30_encoding R110 to R122) and the shapes of an instruction's rule over them. The
operand bytes themselves were read by the step before the rule runs (assumption log 4). -/

namespace Sys2Proof.Machine

/-- What an addressing mode resolves to: the effective address, the base it was indexed from, and the page cross. -/
structure Resolved where
  ea : Word
  base : Word
  cross : Bool
  deriving DecidableEq, Repr

/-- An address that is not indexed by 16-bit addition: no page cross. -/
def Resolved.plain (a : Word) : Resolved := ⟨a, a, false⟩

/-- 30_encoding R116, R117, R120: base plus index, with the page-cross test. -/
def Resolved.indexed (base : Word) (index : Byte) : Resolved :=
  let ea := base + zext index
  ⟨ea, base, hi ea != hi base⟩

/-- 30_encoding R119, R120: the pointer at a zero-page address, whose second byte wraps in the zero page. -/
def zeroPagePointer (z : Byte) (s : State) : Access Word :=
  (memRead (zext z) s).bind fun l t => (memRead (zext (z + 1)) t).bind fun h u => .ok (word h l) u

/-- 30_encoding R111 to R120: the effective address of a mode; R106 for the modes that have none. -/
def resolve (o : Operand) (s : State) : Access Resolved :=
  match o with
  | .immediate _ => .ok (.plain s.pc) s
  | .zeroPage b => .ok (.plain (zext b)) s
  | .zeroPageX b => .ok (.plain (zext (b + s.x))) s
  | .zeroPageY b => .ok (.plain (zext (b + s.y))) s
  | .absolute w => .ok (.plain w) s
  | .absoluteX w => .ok (.indexed w s.x) s
  | .absoluteY w => .ok (.indexed w s.y) s
  | .indexedIndirect b => (zeroPagePointer (b + s.x) s).bind fun a t => .ok (.plain a) t
  | .indirectIndexed b => (zeroPagePointer b s).bind fun a t => .ok (.indexed a t.y) t
  | .implied | .accumulator | .indirect _ | .relative _ => .fail .addressingModeUnsupported s

/-- The data read of an instruction, with the page cross. An immediate operand is the byte the fetch has read (R111). -/
def readOperand (o : Operand) (s : State) : Access (Byte × Bool) :=
  match o with
  | .immediate b => .ok (b, false) s
  | _ => (resolve o s).bind fun r t => (memRead r.ea t).bind fun m u => .ok (m, r.cross) u

/-- The rule of an instruction that reads its operand and then updates registers. -/
def readThen (o : Operand) (update : Byte → State → State) (s : State) : Access Done :=
  (readOperand o s).bind fun m t => .ok { cross := m.2 } (update m.1 t)

/-- The rule of a store of one byte (no read of EA, 20_memory R86). -/
def storeThen (o : Operand) (value : State → Byte) (s : State) : Access Done :=
  (resolve o s).bind fun r t => (memWrite r.ea (value t) t).bind fun _ u => .ok { cross := r.cross } u

/-- The rule of a read-modify-write: one read, one write, then the register updates. `before` is what the rule writes
between the read and the write. -/
def modifyThen (o : Operand) (result : Byte → State → Byte) (before : Byte → State → State)
    (after : Byte → Byte → State → State) (s : State) : Access Done :=
  (resolve o s).bind fun r t =>
    (memRead r.ea t).bind fun m u =>
      (memWrite r.ea (result m u) (before m u)).bind fun _ v =>
        .ok { cross := r.cross } (after m (result m u) v)

/-- The rule of an instruction that makes no bus access. -/
def registerOnly (update : State → State) (s : State) : Access Done := .ok {} (update s)

/-- 43_control_stack_flags R200: `Branch(cond)`. `taken` is the flag test, read before anything changes. -/
def branch (taken : Bool) (disp : Byte) (s : State) : Access Done :=
  let next := s.pc + 1
  let target := next + sext disp
  if taken then
    .ok { transferred := true, extra := 1 + (if hi target != hi next then 1 else 0) } (s.setPc target)
  else .ok {} s

/-- 44_undocumented R256: the value a high-byte store writes. -/
def highStoreValue (r : Resolved) (v : Byte) : Byte := v &&& (hi r.base + 1)

/-- 44_undocumented R256: the address a high-byte store writes to. -/
def highStoreAddress (r : Resolved) (v : Byte) : Word :=
  if r.cross then word (highStoreValue r v) (lo r.ea) else r.ea

/-- 44_undocumented R256: `HighStore(v)`. -/
def highStore (o : Operand) (value : State → Byte) (s : State) : Access Done :=
  (resolve o s).bind fun r t =>
    (memWrite (highStoreAddress r (value t)) (highStoreValue r (value t)) t).bind fun _ u =>
      .ok { cross := r.cross } u

/-- A byte into A with N and Z from it. -/
def State.loadA (s : State) (v : Byte) : State := (s.setA v).setP (setNZ s.p v)

/-- A byte into X with N and Z from it. -/
def State.loadX (s : State) (v : Byte) : State := (s.setX v).setP (setNZ s.p v)

/-- A byte into Y with N and Z from it. -/
def State.loadY (s : State) (v : Byte) : State := (s.setY v).setP (setNZ s.p v)

/-- 41_arith_logic R160: `AddCore(m)`. -/
def State.addCore (s : State) (m : Byte) : State :=
  (s.setA (addResult s.a m (getFlag s.p .c))).setP (addFlags s.p s.a m)

/-- 41_arith_logic R165: `Compare(r, m)`. -/
def State.compare (s : State) (r m : Byte) : State := s.setP (compareFlags s.p r m)

/-- 00_scope R10: `P.f <- v`. -/
def State.writeFlag (s : State) (f : Flag) (v : Bool) : State := s.setP (setFlag s.p f v)

end Sys2Proof.Machine
end

