-- ==== Sys2Proof/Machine/Arith.lean ====
section
/-! DEFINITION. Arithmetic, logic, compare and increment instructions (41_arith_logic). -/

namespace Sys2Proof.Machine

/-- R160. -/
def execAdc (o : Operand) (s : State) : Host.Outcome State Fault Refusal :=
  perform (.adc o) (readThen o fun m t => t.addCore m) s

/-- R161. -/
def execSbc (o : Operand) (s : State) : Host.Outcome State Fault Refusal :=
  perform (.sbc o) (readThen o fun m t => t.addCore (~~~m)) s

/-- R162. -/
def execAnd (o : Operand) (s : State) : Host.Outcome State Fault Refusal :=
  perform (.and o) (readThen o fun m t => t.loadA (t.a &&& m)) s

/-- R163. -/
def execOra (o : Operand) (s : State) : Host.Outcome State Fault Refusal :=
  perform (.ora o) (readThen o fun m t => t.loadA (t.a ||| m)) s

/-- R164. -/
def execEor (o : Operand) (s : State) : Host.Outcome State Fault Refusal :=
  perform (.eor o) (readThen o fun m t => t.loadA (t.a ^^^ m)) s

/-- R165. -/
def execCmp (o : Operand) (s : State) : Host.Outcome State Fault Refusal :=
  perform (.cmp o) (readThen o fun m t => t.compare t.a m) s

/-- R166. -/
def execCpx (o : Operand) (s : State) : Host.Outcome State Fault Refusal :=
  perform (.cpx o) (readThen o fun m t => t.compare t.x m) s

/-- R167. -/
def execCpy (o : Operand) (s : State) : Host.Outcome State Fault Refusal :=
  perform (.cpy o) (readThen o fun m t => t.compare t.y m) s

/-- R168. -/
def execBit (o : Operand) (s : State) : Host.Outcome State Fault Refusal :=
  perform (.bit o) (readThen o fun m t => t.setP (bitFlags t.p t.a m)) s

/-- R169. -/
def execInc (o : Operand) (s : State) : Host.Outcome State Fault Refusal :=
  perform (.inc o) (modifyThen o (fun m _ => m + 1) (fun _ t => t) fun _ r t => t.setP (setNZ t.p r)) s

/-- R170. -/
def execDec (o : Operand) (s : State) : Host.Outcome State Fault Refusal :=
  perform (.dec o) (modifyThen o (fun m _ => m - 1) (fun _ t => t) fun _ r t => t.setP (setNZ t.p r)) s

/-- R171. -/
def execInx (s : State) : Host.Outcome State Fault Refusal :=
  perform .inx (registerOnly fun t => t.loadX (t.x + 1)) s

/-- R172. -/
def execIny (s : State) : Host.Outcome State Fault Refusal :=
  perform .iny (registerOnly fun t => t.loadY (t.y + 1)) s

/-- R173. -/
def execDex (s : State) : Host.Outcome State Fault Refusal :=
  perform .dex (registerOnly fun t => t.loadX (t.x - 1)) s

/-- R174. -/
def execDey (s : State) : Host.Outcome State Fault Refusal :=
  perform .dey (registerOnly fun t => t.loadY (t.y - 1)) s

end Sys2Proof.Machine
end

