-- ==== Sys2Proof/Machine/Control.lean ====
section
/-! DEFINITION. Branches, jumps, subroutines, returns and the halt (43_control_stack_flags R200 to R217). -/

namespace Sys2Proof.Machine

/-- R201. -/
def execBpl (disp : Byte) (s : State) : Host.Outcome State Fault Refusal :=
  perform (.bpl disp) (branch (!getFlag s.p .n) disp) s

/-- R202. -/
def execBmi (disp : Byte) (s : State) : Host.Outcome State Fault Refusal :=
  perform (.bmi disp) (branch (getFlag s.p .n) disp) s

/-- R203. -/
def execBvc (disp : Byte) (s : State) : Host.Outcome State Fault Refusal :=
  perform (.bvc disp) (branch (!getFlag s.p .v) disp) s

/-- R204. -/
def execBvs (disp : Byte) (s : State) : Host.Outcome State Fault Refusal :=
  perform (.bvs disp) (branch (getFlag s.p .v) disp) s

/-- R205. -/
def execBcc (disp : Byte) (s : State) : Host.Outcome State Fault Refusal :=
  perform (.bcc disp) (branch (!getFlag s.p .c) disp) s

/-- R206. -/
def execBcs (disp : Byte) (s : State) : Host.Outcome State Fault Refusal :=
  perform (.bcs disp) (branch (getFlag s.p .c) disp) s

/-- R207. -/
def execBne (disp : Byte) (s : State) : Host.Outcome State Fault Refusal :=
  perform (.bne disp) (branch (!getFlag s.p .z) disp) s

/-- R208. -/
def execBeq (disp : Byte) (s : State) : Host.Outcome State Fault Refusal :=
  perform (.beq disp) (branch (getFlag s.p .z) disp) s

/-- R210. -/
def execJmpAbsolute (target : Word) (s : State) : Host.Outcome State Fault Refusal :=
  perform (.jmpAbsolute target) (fun t => .ok { transferred := true } (t.setPc target)) s

/-- R118, R212: where the second target byte of JMP indirect is read, in the page of the first. -/
def samePageNext (ptr : Word) : Word := word (hi ptr) (lo ptr + 1)

/-- R212. -/
def jumpIndirect (ptr : Word) (s : State) : Access Done :=
  (memRead ptr s).bind fun l t =>
    (memRead (samePageNext ptr) t).bind fun h u => .ok { transferred := true } (u.setPc (word h l))

/-- R212. -/
def execJmpIndirect (ptr : Word) (s : State) : Host.Outcome State Fault Refusal :=
  perform (.jmpIndirect ptr) (jumpIndirect ptr) s

/-- R213: the return address is that of the JSR's last byte. -/
def callSubroutine (target : Word) (s : State) : Access Done :=
  let ret := s.pc + 1
  (push (hi ret) s).bind fun _ t =>
    (push (lo ret) t).bind fun _ u => .ok { transferred := true } (u.setPc target)

/-- R213. -/
def execJsr (target : Word) (s : State) : Host.Outcome State Fault Refusal :=
  perform (.jsr target) (callSubroutine target) s

/-- R214. -/
def returnFromSubroutine (s : State) : Access Done :=
  (pop s).bind fun l t => (pop t).bind fun h u => .ok { transferred := true } (u.setPc (word h l + 1))

/-- R214. -/
def execRts (s : State) : Host.Outcome State Fault Refusal := perform .rts returnFromSubroutine s

/-- R215. -/
def execRti (s : State) : Host.Outcome State Fault Refusal := perform .rti returnFromInterrupt s

/-- R216: the halt. No cycles are charged and nothing but the run state changes. -/
def execBrk (s : State) : Host.Outcome State Fault Refusal := .next (s.setRun .halted)

end Sys2Proof.Machine
end

