-- ==== Sys2Proof/Machine/FlagStack.lean ====
section
/-! DEFINITION. Flag and stack instructions and the documented NOP (43_control_stack_flags R220 to R236). -/

namespace Sys2Proof.Machine

/-- R220. -/
def execClc (s : State) : Host.Outcome State Fault Refusal := perform .clc (registerOnly fun t => t.writeFlag .c false) s

/-- R221. -/
def execSec (s : State) : Host.Outcome State Fault Refusal := perform .sec (registerOnly fun t => t.writeFlag .c true) s

/-- R222. -/
def execCli (s : State) : Host.Outcome State Fault Refusal := perform .cli (registerOnly fun t => t.writeFlag .i false) s

/-- R223. -/
def execSei (s : State) : Host.Outcome State Fault Refusal := perform .sei (registerOnly fun t => t.writeFlag .i true) s

/-- R224. -/
def execCld (s : State) : Host.Outcome State Fault Refusal := perform .cld (registerOnly fun t => t.writeFlag .d false) s

/-- R225. -/
def execSed (s : State) : Host.Outcome State Fault Refusal := perform .sed (registerOnly fun t => t.writeFlag .d true) s

/-- R226. -/
def execClv (s : State) : Host.Outcome State Fault Refusal := perform .clv (registerOnly fun t => t.writeFlag .v false) s

/-- The rule of a push of one byte. -/
def pushThen (value : State → Byte) (s : State) : Access Done := (push (value s) s).bind fun _ t => .ok {} t

/-- The rule of a pull of one byte. -/
def popThen (update : Byte → State → State) (s : State) : Access Done := (pop s).bind fun v t => .ok {} (update v t)

/-- R230. -/
def execPha (s : State) : Host.Outcome State Fault Refusal := perform .pha (pushThen State.a) s

/-- R231. -/
def execPhp (s : State) : Host.Outcome State Fault Refusal := perform .php (pushThen fun t => phpImage t.p) s

/-- R232. -/
def execPla (s : State) : Host.Outcome State Fault Refusal := perform .pla (popThen fun v t => t.loadA v) s

/-- R233. -/
def execPlp (s : State) : Host.Outcome State Fault Refusal := perform .plp (popThen fun v t => t.setP (pulledStatus v)) s

/-- R236. -/
def execNop (s : State) : Host.Outcome State Fault Refusal := perform .nop (registerOnly fun t => t) s

end Sys2Proof.Machine
end

