-- ==== Sys2Proof/Machine/LoadStore.lean ====
section
/-! DEFINITION. Loads, stores and register transfers (40_load_store_transfer). -/

namespace Sys2Proof.Machine

/-- R140. -/
def execLda (o : Operand) (s : State) : Host.Outcome State Fault Refusal :=
  perform (.lda o) (readThen o fun m t => t.loadA m) s

/-- R141. -/
def execLdx (o : Operand) (s : State) : Host.Outcome State Fault Refusal :=
  perform (.ldx o) (readThen o fun m t => t.loadX m) s

/-- R142. -/
def execLdy (o : Operand) (s : State) : Host.Outcome State Fault Refusal :=
  perform (.ldy o) (readThen o fun m t => t.loadY m) s

/-- R143. -/
def execSta (o : Operand) (s : State) : Host.Outcome State Fault Refusal :=
  perform (.sta o) (storeThen o State.a) s

/-- R144. -/
def execStx (o : Operand) (s : State) : Host.Outcome State Fault Refusal :=
  perform (.stx o) (storeThen o State.x) s

/-- R145. -/
def execSty (o : Operand) (s : State) : Host.Outcome State Fault Refusal :=
  perform (.sty o) (storeThen o State.y) s

/-- R146. -/
def execTax (s : State) : Host.Outcome State Fault Refusal :=
  perform .tax (registerOnly fun t => t.loadX t.a) s

/-- R147. -/
def execTay (s : State) : Host.Outcome State Fault Refusal :=
  perform .tay (registerOnly fun t => t.loadY t.a) s

/-- R148. -/
def execTxa (s : State) : Host.Outcome State Fault Refusal :=
  perform .txa (registerOnly fun t => t.loadA t.x) s

/-- R149. -/
def execTya (s : State) : Host.Outcome State Fault Refusal :=
  perform .tya (registerOnly fun t => t.loadA t.y) s

/-- R150. -/
def execTsx (s : State) : Host.Outcome State Fault Refusal :=
  perform .tsx (registerOnly fun t => t.loadX t.sp) s

/-- R151: the only transfer that writes no flag. -/
def execTxs (s : State) : Host.Outcome State Fault Refusal :=
  perform .txs (registerOnly fun t => t.setSp t.x) s

end Sys2Proof.Machine
end

