-- ==== Sys2Proof/Machine/Shift.lean ====
section
/-! DEFINITION. Shift and rotate instructions (42_shift_rotate). -/

namespace Sys2Proof.Machine

/-- R190: the accumulator form. -/
def shiftAccumulator (k : ShiftKind) (s : State) : State :=
  let r := shiftResult k (getFlag s.p .c) s.a
  (s.setA r).setP (setNZ (shiftFlags k s.p s.a) r)

/-- R190: the memory form. `Shift` writes P.C before the write of EA, so it stands if that write faults (assumption log
11). -/
def shiftMemory (k : ShiftKind) (o : Operand) (s : State) : Access Done :=
  modifyThen o (fun m t => shiftResult k (getFlag t.p .c) m) (fun m t => t.setP (shiftFlags k t.p m))
    (fun _ r t => t.setP (setNZ t.p r)) s

/-- R190: a shift or rotate of its operand. -/
def shiftOperand (k : ShiftKind) (o : Operand) (s : State) : Access Done :=
  match o with
  | .accumulator => registerOnly (shiftAccumulator k) s
  | _ => shiftMemory k o s

/-- R191. -/
def execAsl (o : Operand) (s : State) : Host.Outcome State Fault Refusal := perform (.asl o) (shiftOperand .asl o) s

/-- R192. -/
def execLsr (o : Operand) (s : State) : Host.Outcome State Fault Refusal := perform (.lsr o) (shiftOperand .lsr o) s

/-- R193. -/
def execRol (o : Operand) (s : State) : Host.Outcome State Fault Refusal := perform (.rol o) (shiftOperand .rol o) s

/-- R194. -/
def execRor (o : Operand) (s : State) : Host.Outcome State Fault Refusal := perform (.ror o) (shiftOperand .ror o) s

end Sys2Proof.Machine
end

