-- ==== Sys2Proof/Machine/Undocumented.lean ====
section
/-! DEFINITION. Undocumented instructions (44_undocumented). -/

namespace Sys2Proof.Machine

/-- Section 1: a read-modify-write whose result is then combined with A. A and P are written only after the write of EA
(assumption log 11). -/
def modifyCombine (o : Operand) (result : Byte → State → Byte) (combine : Byte → Byte → State → State) (s : State) :
    Access Done :=
  modifyThen o result (fun _ t => t) combine s

/-- R190, R241 to R244: P.C from the shift that made the result. -/
def State.shiftC (s : State) (k : ShiftKind) (m : Byte) : State := s.setP (shiftFlags k s.p m)

/-- R190: the result of a shift of a memory byte. -/
def shifted (k : ShiftKind) (m : Byte) (t : State) : Byte := shiftResult k (getFlag t.p .c) m

/-- R241. -/
def execSlo (o : Operand) (s : State) : Host.Outcome State Fault Refusal :=
  perform (.slo o) (modifyCombine o (shifted .asl) fun m r t => (t.shiftC .asl m).loadA (t.a ||| r)) s

/-- R242. -/
def execRla (o : Operand) (s : State) : Host.Outcome State Fault Refusal :=
  perform (.rla o) (modifyCombine o (shifted .rol) fun m r t => (t.shiftC .rol m).loadA (t.a &&& r)) s

/-- R243. -/
def execSre (o : Operand) (s : State) : Host.Outcome State Fault Refusal :=
  perform (.sre o) (modifyCombine o (shifted .lsr) fun m r t => (t.shiftC .lsr m).loadA (t.a ^^^ r)) s

/-- R244: the carry out of the rotate is the carry into the add. -/
def execRra (o : Operand) (s : State) : Host.Outcome State Fault Refusal :=
  perform (.rra o) (modifyCombine o (shifted .ror) fun m r t => (t.shiftC .ror m).addCore r) s

/-- R245. -/
def execDcp (o : Operand) (s : State) : Host.Outcome State Fault Refusal :=
  perform (.dcp o) (modifyCombine o (fun m _ => m - 1) fun _ r t => t.compare t.a r) s

/-- R246. -/
def execIsc (o : Operand) (s : State) : Host.Outcome State Fault Refusal :=
  perform (.isc o) (modifyCombine o (fun m _ => m + 1) fun _ r t => t.addCore (r ^^^ 0xFF)) s

/-- R247. -/
def execSax (o : Operand) (s : State) : Host.Outcome State Fault Refusal :=
  perform (.sax o) (storeThen o fun t => t.a &&& t.x) s

/-- R248. -/
def execLax (o : Operand) (s : State) : Host.Outcome State Fault Refusal :=
  perform (.lax o) (readThen o fun m t => (t.setX m).loadA m) s

/-- R249. -/
def execAnc (k : Fin 2) (imm : Byte) (s : State) : Host.Outcome State Fault Refusal :=
  perform (.anc k imm) (readThen (.immediate imm) fun m t => (t.setA (t.a &&& m)).setP (ancFlags t.p (t.a &&& m))) s

/-- R250. -/
def State.alr (s : State) (m : Byte) : State :=
  let t := s.a &&& m
  (s.writeFlag .c (t.getLsbD 0)).loadA (t >>> 1)

/-- R250. -/
def execAlr (imm : Byte) (s : State) : Host.Outcome State Fault Refusal :=
  perform (.alr imm) (readThen (.immediate imm) fun m t => t.alr m) s

/-- R251. -/
def State.arr (s : State) (m : Byte) : State :=
  let r := ((s.a &&& m) >>> 1) ||| (bitByte (getFlag s.p .c) <<< 7)
  (s.setA r).setP (arrFlags s.p r)

/-- R251. -/
def execArr (imm : Byte) (s : State) : Host.Outcome State Fault Refusal :=
  perform (.arr imm) (readThen (.immediate imm) fun m t => t.arr m) s

/-- R252, R253: MAGIC, and the state after taking it. A draw takes the next free value (assumption log 6). -/
def magicByte (s : State) : Byte × State :=
  match s.cfg.magic with
  | .fixed b => (b, s)
  | .draw => (Config.freeMagic s.draws, s.setDraws (s.draws + 1))

/-- R252. -/
def State.ane (s : State) (m : Byte) : State :=
  let k := magicByte s
  k.2.loadA ((s.a ||| k.1) &&& s.x &&& m)

/-- R252. -/
def execAne (imm : Byte) (s : State) : Host.Outcome State Fault Refusal :=
  performUnstable (.ane imm) (readThen (.immediate imm) fun m t => t.ane m) s

/-- R253. -/
def State.lxa (s : State) (m : Byte) : State :=
  let k := magicByte s
  let v := (s.a ||| k.1) &&& m
  (k.2.setX v).loadA v

/-- R253. -/
def execLxa (imm : Byte) (s : State) : Host.Outcome State Fault Refusal :=
  performUnstable (.lxa imm) (readThen (.immediate imm) fun m t => t.lxa m) s

/-- R254. -/
def State.sbx (s : State) (m : Byte) : State :=
  let t := s.a &&& s.x
  (s.writeFlag .c (decide (m.toNat ≤ t.toNat))).loadX (t - m)

/-- R254. -/
def execSbx (imm : Byte) (s : State) : Host.Outcome State Fault Refusal :=
  perform (.sbx imm) (readThen (.immediate imm) fun m t => t.sbx m) s

/-- R255. -/
def execUsbc (imm : Byte) (s : State) : Host.Outcome State Fault Refusal :=
  perform (.usbc imm) (readThen (.immediate imm) fun m t => t.addCore (m ^^^ 0xFF)) s

/-- R257. -/
def execSha (o : Operand) (s : State) : Host.Outcome State Fault Refusal :=
  performUnstable (.sha o) (highStore o fun t => t.a &&& t.x) s

/-- R258. -/
def execTas (base : Word) (s : State) : Host.Outcome State Fault Refusal :=
  performUnstable (.tas base) (fun t => highStore (.absoluteY base) State.sp (t.setSp (t.a &&& t.x))) s

/-- R259. -/
def execShy (base : Word) (s : State) : Host.Outcome State Fault Refusal :=
  performUnstable (.shy base) (highStore (.absoluteX base) State.y) s

/-- R260. -/
def execShx (base : Word) (s : State) : Host.Outcome State Fault Refusal :=
  performUnstable (.shx base) (highStore (.absoluteY base) State.x) s

/-- R261. -/
def execLas (base : Word) (s : State) : Host.Outcome State Fault Refusal :=
  perform (.las base)
    (readThen (.absoluteY base) fun m t => ((t.setX (m &&& t.sp)).setSp (m &&& t.sp)).loadA (m &&& t.sp)) s

/-- Section 5: the data read of a no-operation form, whose value is discarded. -/
def readDiscard (o : Operand) (s : State) : Access Done := readThen o (fun _ t => t) s

/-- R262. -/
def execNopImplied (k : Fin 6) (s : State) : Host.Outcome State Fault Refusal :=
  perform (.nopImplied k) (registerOnly fun t => t) s

/-- R263. -/
def execNopImmediate (k : Fin 5) (imm : Byte) (s : State) : Host.Outcome State Fault Refusal :=
  perform (.nopImmediate k imm) (readDiscard (.immediate imm)) s

/-- R264. -/
def execNopZeroPage (k : Fin 3) (b : Byte) (s : State) : Host.Outcome State Fault Refusal :=
  perform (.nopZeroPage k b) (readDiscard (.zeroPage b)) s

/-- R265. -/
def execNopZeroPageX (k : Fin 6) (b : Byte) (s : State) : Host.Outcome State Fault Refusal :=
  perform (.nopZeroPageX k b) (readDiscard (.zeroPageX b)) s

/-- R266. -/
def execNopAbsolute (w : Word) (s : State) : Host.Outcome State Fault Refusal :=
  perform (.nopAbsolute w) (readDiscard (.absolute w)) s

/-- R267. -/
def execNopAbsoluteX (k : Fin 6) (w : Word) (s : State) : Host.Outcome State Fault Refusal :=
  perform (.nopAbsoluteX k w) (readDiscard (.absoluteX w)) s

/-- R268: a no-operation, or no outcome at all under `JAM_POLICY = stuck` (30_encoding R126). -/
def execJam (k : Fin 12) (s : State) : Host.Outcome State Fault Refusal :=
  match s.cfg.jamPolicy with
  | .nop => perform (.jam k) (registerOnly fun t => t) s
  | .stuck => .fault (.stuck s)

end Sys2Proof.Machine
end

