-- ==== Sys2Proof/Machine/Dispatch.lean ====
section
/-! DEFINITION. The meaning of every instruction (30_encoding R125, `Execute`): one arm per constructor of Instr. `exec` runs
an instruction whose bytes have been fetched: PC holds op_addr + 1 (30_encoding R109). -/

namespace Sys2Proof.Machine

def exec (i : Instr) (s : State) : Host.Outcome State Fault Refusal :=
  match i with
  | .lda o => Sys2Proof.Machine.execLda o s
  | .ldx o => Sys2Proof.Machine.execLdx o s
  | .ldy o => Sys2Proof.Machine.execLdy o s
  | .sta o => Sys2Proof.Machine.execSta o s
  | .stx o => Sys2Proof.Machine.execStx o s
  | .sty o => Sys2Proof.Machine.execSty o s
  | .tax => Sys2Proof.Machine.execTax s
  | .tay => Sys2Proof.Machine.execTay s
  | .txa => Sys2Proof.Machine.execTxa s
  | .tya => Sys2Proof.Machine.execTya s
  | .tsx => Sys2Proof.Machine.execTsx s
  | .txs => Sys2Proof.Machine.execTxs s
  | .adc o => Sys2Proof.Machine.execAdc o s
  | .sbc o => Sys2Proof.Machine.execSbc o s
  | .and o => Sys2Proof.Machine.execAnd o s
  | .ora o => Sys2Proof.Machine.execOra o s
  | .eor o => Sys2Proof.Machine.execEor o s
  | .cmp o => Sys2Proof.Machine.execCmp o s
  | .cpx o => Sys2Proof.Machine.execCpx o s
  | .cpy o => Sys2Proof.Machine.execCpy o s
  | .bit o => Sys2Proof.Machine.execBit o s
  | .inc o => Sys2Proof.Machine.execInc o s
  | .dec o => Sys2Proof.Machine.execDec o s
  | .inx => Sys2Proof.Machine.execInx s
  | .iny => Sys2Proof.Machine.execIny s
  | .dex => Sys2Proof.Machine.execDex s
  | .dey => Sys2Proof.Machine.execDey s
  | .asl o => Sys2Proof.Machine.execAsl o s
  | .lsr o => Sys2Proof.Machine.execLsr o s
  | .rol o => Sys2Proof.Machine.execRol o s
  | .ror o => Sys2Proof.Machine.execRor o s
  | .bpl disp => Sys2Proof.Machine.execBpl disp s
  | .bmi disp => Sys2Proof.Machine.execBmi disp s
  | .bvc disp => Sys2Proof.Machine.execBvc disp s
  | .bvs disp => Sys2Proof.Machine.execBvs disp s
  | .bcc disp => Sys2Proof.Machine.execBcc disp s
  | .bcs disp => Sys2Proof.Machine.execBcs disp s
  | .bne disp => Sys2Proof.Machine.execBne disp s
  | .beq disp => Sys2Proof.Machine.execBeq disp s
  | .jmpAbsolute target => Sys2Proof.Machine.execJmpAbsolute target s
  | .jmpIndirect ptr => Sys2Proof.Machine.execJmpIndirect ptr s
  | .jsr target => Sys2Proof.Machine.execJsr target s
  | .rts => Sys2Proof.Machine.execRts s
  | .rti => Sys2Proof.Machine.execRti s
  | .brk => Sys2Proof.Machine.execBrk s
  | .clc => Sys2Proof.Machine.execClc s
  | .sec => Sys2Proof.Machine.execSec s
  | .cli => Sys2Proof.Machine.execCli s
  | .sei => Sys2Proof.Machine.execSei s
  | .cld => Sys2Proof.Machine.execCld s
  | .sed => Sys2Proof.Machine.execSed s
  | .clv => Sys2Proof.Machine.execClv s
  | .pha => Sys2Proof.Machine.execPha s
  | .php => Sys2Proof.Machine.execPhp s
  | .pla => Sys2Proof.Machine.execPla s
  | .plp => Sys2Proof.Machine.execPlp s
  | .nop => Sys2Proof.Machine.execNop s
  | .slo o => Sys2Proof.Machine.execSlo o s
  | .rla o => Sys2Proof.Machine.execRla o s
  | .sre o => Sys2Proof.Machine.execSre o s
  | .rra o => Sys2Proof.Machine.execRra o s
  | .dcp o => Sys2Proof.Machine.execDcp o s
  | .isc o => Sys2Proof.Machine.execIsc o s
  | .sax o => Sys2Proof.Machine.execSax o s
  | .lax o => Sys2Proof.Machine.execLax o s
  | .anc k imm => Sys2Proof.Machine.execAnc k imm s
  | .alr imm => Sys2Proof.Machine.execAlr imm s
  | .arr imm => Sys2Proof.Machine.execArr imm s
  | .ane imm => Sys2Proof.Machine.execAne imm s
  | .lxa imm => Sys2Proof.Machine.execLxa imm s
  | .sbx imm => Sys2Proof.Machine.execSbx imm s
  | .usbc imm => Sys2Proof.Machine.execUsbc imm s
  | .sha o => Sys2Proof.Machine.execSha o s
  | .tas base => Sys2Proof.Machine.execTas base s
  | .shy base => Sys2Proof.Machine.execShy base s
  | .shx base => Sys2Proof.Machine.execShx base s
  | .las base => Sys2Proof.Machine.execLas base s
  | .nopImplied k => Sys2Proof.Machine.execNopImplied k s
  | .nopImmediate k imm => Sys2Proof.Machine.execNopImmediate k imm s
  | .nopZeroPage k b => Sys2Proof.Machine.execNopZeroPage k b s
  | .nopZeroPageX k b => Sys2Proof.Machine.execNopZeroPageX k b s
  | .nopAbsolute w => Sys2Proof.Machine.execNopAbsolute w s
  | .nopAbsoluteX k w => Sys2Proof.Machine.execNopAbsoluteX k w s
  | .jam k => Sys2Proof.Machine.execJam k s

end Sys2Proof.Machine
end

