-- ==== Sys2Proof/Machine/Fetch.lean ====
section
/-! DEFINITION. The step of the `running` state (30_encoding R125): the NMI poll, the fetch of an instruction's bytes, and
`exec`; and how a word is put where the step fetches. -/

namespace Sys2Proof.Machine

/-- 44_undocumented R268: the twelve JAM opcodes. -/
def jamOpcodes : List Byte := [0x02, 0x12, 0x22, 0x32, 0x42, 0x52, 0x62, 0x72, 0x92, 0xB2, 0xD2, 0xF2]

/-- 30_encoding R108: the opcodes of ANE, LXA, SHA, TAS, SHX and SHY. -/
def unstableOpcodes : List Byte := [0x8B, 0xAB, 0x93, 0x9F, 0x9B, 0x9E, 0x9C]

/-- 30_encoding R126: whether the fetch of this opcode leaves the step without an outcome. -/
def sticks (c : Config) (opc : Byte) : Bool := decide (c.jamPolicy = .stuck) && jamOpcodes.contains opc

/-- 30_encoding R108: whether this opcode is refused after its fetch. -/
def refuses (c : Config) (opc : Byte) : Bool := decide (c.unstablePolicy = .refuse) && unstableOpcodes.contains opc

/-- 30_encoding R109, 20_memory R79: `n` operand bytes through the bus, at consecutive addresses. -/
def readBytes : Nat → Word → State → Access (List Byte)
  | 0, _, s => .ok [] s
  | n + 1, a, s => (memRead a s).bind fun b t => (readBytes n (a + 1) t).bind fun bs u => .ok (b :: bs) u

/-- 30_encoding R125: the operand bytes of a fetched opcode are read, decoded and executed. PC holds op_addr + 1. -/
def executeFetched (opc : Byte) (r : Row) (t : State) : Host.Outcome State Fault Refusal :=
  match readBytes r.mode.operandBytes t.pc t with
  | .fail k u => raise k (t.pc - 1) (some opc) u
  | .ok bytes u =>
    match decode (opc :: bytes) with
    | .ok (i, _) => exec i u
    | .error _ => raise .unsupportedOpcode (t.pc - 1) (some opc) u

/-- 30_encoding R125: fetch and execute one instruction. -/
def fetchExecute (s : State) : Host.Outcome State Fault Refusal :=
  match memRead s.pc s with
  | .fail k t => raise k s.pc none t
  | .ok opc t =>
    match recordOf opc with
    | none => raise .unsupportedOpcode s.pc (some opc) (t.setPc (s.pc + 1))
    | some r =>
      if sticks s.cfg opc then .fault (.stuck s)
      else if refuses s.cfg opc then refuseUnstable s.pc opc (t.setPc (s.pc + 1))
      else executeFetched opc r (t.setPc (s.pc + 1))

/-- 30_encoding R125: one step of the machine in the `running` state. The poll consumes NMI_PENDING (60_exceptions R292). -/
def runningStep (s : State) : Host.Outcome State Fault Refusal :=
  let polled := s.setVideo s.video.poll.2
  if s.video.poll.1 then takeInterrupt polled else fetchExecute polled

/-- Whether an address is a cell of RAM or of the program ROM, so that a byte can be placed there. -/
def placeable (a : Word) : Bool :=
  match regionOf a with
  | .ram _ | .rom _ => true
  | .port _ | .unrouted => false

/-- Put a byte at a cell of RAM or of the program ROM (the host's act, not a bus write). -/
def place (a : Word) (v : Byte) (s : State) : State :=
  match regionOf a with
  | .ram i => s.setRam (s.ram.write i v)
  | .rom offset => s.setCart { s.cart with prg := s.cart.prg.write (s.cart.prgIndex offset) v }
  | .port _ | .unrouted => s

/-- Put bytes at consecutive addresses. -/
def placeAll : List Byte → Word → State → State
  | [], _, s => s
  | b :: bs, a, s => placeAll bs (a + 1) (place a b s)

/-- 00_scope R7: where a loaded program starts. -/
def startAddr : Word := 0x0600

/-- A state whose next step is an instruction fetch from cells that can be placed: running, no NMI pending, and PC at
three placeable cells (else at `startAddr`). -/
def readyToFetch (s : State) : State :=
  let t := (s.setRun .running).setVideo { s.video with nmiPending := false }
  if placeable t.pc && placeable (t.pc + 1) && placeable (t.pc + 2) then t else t.setPc startAddr

end Sys2Proof.Machine
end

