-- ==== Sys2Proof/Machine/Step.lean ====
section
/-! DEFINITION. One step of the machine (10_state R43, 30_encoding R125), and the state that holds a table word where the
step fetches (assumption log 12). -/

namespace Sys2Proof.Machine

/-- 10_state R43: only `running` has a next step. -/
def step (s : State) : Host.Outcome State Fault Refusal :=
  match s.run with
  | .running => runningStep s
  | .halted => .fault (.notRunning .halted)
  | .faulted r => .fault (.notRunning (.faulted r))
  | .refused a opc => .fault (.notRunning (.refused a opc))

/-- `s` with the instruction of a table word where its next step fetches. -/
def State.withFetchWord (s : State) (nbits w : Nat) : State :=
  placeAll (tableBytes nbits w) (readyToFetch s).pc (readyToFetch s)

end Sys2Proof.Machine
end

