-- ==== Sys2Proof/Machine/Footprint.lean ====
section
/-! DEFINITION. What each instruction may write, from the tables of 10_state R20 (registers), R35 (flags) and 43 R211 (PC),
and the CPU addresses its data accesses go to. Claims about what an instruction leaves alone are made in these terms; no
step uses them. -/

namespace Sys2Proof.Machine

/-- What an instruction's rule may write besides memory. -/
structure Footprint where
  a : Bool := false
  x : Bool := false
  y : Bool := false
  sp : Bool := false
  flags : List Flag := []
  /-- the instruction may set PC other than by the advance (43_control_stack_flags R211) -/
  transfers : Bool := false
  deriving DecidableEq, Repr

/-- Every flag, as PLP and RTI write. -/
def allFlags : List Flag := [.c, .z, .i, .d, .b, .u, .v, .n]

/-- 10_state R20, R35, 43_control_stack_flags R211. -/
def footprint : Instr → Footprint
  | .lda _ | .txa | .tya | .and _ | .ora _ | .eor _ | .ane _ => { a := true, flags := [.n, .z] }
  | .ldx _ | .tax | .tsx | .inx | .dex => { x := true, flags := [.n, .z] }
  | .ldy _ | .tay | .iny | .dey => { y := true, flags := [.n, .z] }
  | .lax _ | .lxa _ => { a := true, x := true, flags := [.n, .z] }
  | .las _ => { a := true, x := true, sp := true, flags := [.n, .z] }
  | .pla => { a := true, sp := true, flags := [.n, .z] }
  | .inc _ | .dec _ => { flags := [.n, .z] }
  | .adc _ | .sbc _ | .usbc _ | .rra _ | .isc _ | .arr _ => { a := true, flags := [.n, .v, .z, .c] }
  | .slo _ | .rla _ | .sre _ | .anc _ _ | .alr _ => { a := true, flags := [.n, .z, .c] }
  | .asl o | .lsr o | .rol o | .ror o => { a := decide (o = .accumulator), flags := [.n, .z, .c] }
  | .cmp _ | .cpx _ | .cpy _ | .dcp _ => { flags := [.n, .z, .c] }
  | .sbx _ => { x := true, flags := [.n, .z, .c] }
  | .bit _ => { flags := [.n, .v, .z] }
  | .clc | .sec => { flags := [.c] }
  | .cli | .sei => { flags := [.i] }
  | .cld | .sed => { flags := [.d] }
  | .clv => { flags := [.v] }
  | .plp => { sp := true, flags := allFlags }
  | .rti => { sp := true, flags := allFlags, transfers := true }
  | .txs | .tas _ | .pha | .php => { sp := true }
  | .jsr _ | .rts => { sp := true, transfers := true }
  | .jmpAbsolute _ | .jmpIndirect _ => { transfers := true }
  | .bpl _ | .bmi _ | .bvc _ | .bvs _ | .bcc _ | .bcs _ | .bne _ | .beq _ => { transfers := true }
  | .sta _ | .stx _ | .sty _ | .sax _ | .sha _ | .shy _ | .shx _ => {}
  | .brk | .nop | .nopImplied _ | .nopImmediate _ _ | .nopZeroPage _ _ | .nopZeroPageX _ _ | .nopAbsolute _
  | .nopAbsoluteX _ _ | .jam _ => {}

/-- The effective address of an operand, as the rules compute it. -/
def effective (o : Operand) (s : State) : List Word :=
  match resolve o s with
  | .ok r _ => [r.ea]
  | .fail _ _ => []

/-- The address of a data read; an immediate operand is read by the fetch. -/
def readAddress (o : Operand) (s : State) : List Word :=
  match o with
  | .immediate _ => []
  | _ => effective o s

/-- 44_undocumented R256: the address a high-byte store of `v` goes to. -/
def highAddress (o : Operand) (v : Byte) (s : State) : List Word :=
  match resolve o s with
  | .ok r _ => [highStoreAddress r v]
  | .fail _ _ => []

/-- The addresses an instruction stores to. -/
def stores (i : Instr) (s : State) : List Word :=
  match i with
  | .sta o | .stx o | .sty o | .sax o | .inc o | .dec o | .asl o | .lsr o | .rol o | .ror o => effective o s
  | .slo o | .rla o | .sre o | .rra o | .dcp o | .isc o => effective o s
  | .sha o => highAddress o (s.a &&& s.x) s
  | .tas w => highAddress (.absoluteY w) (s.a &&& s.x) s
  | .shy w => highAddress (.absoluteX w) s.y s
  | .shx w => highAddress (.absoluteY w) s.x s
  | .pha | .php => [stackCell s.sp]
  | .jsr _ => [stackCell s.sp, stackCell (s.sp - 1)]
  | .lda _ | .ldx _ | .ldy _ | .tax | .tay | .txa | .tya | .tsx | .txs => []
  | .adc _ | .sbc _ | .and _ | .ora _ | .eor _ | .cmp _ | .cpx _ | .cpy _ | .bit _ | .inx | .iny | .dex | .dey => []
  | .bpl _ | .bmi _ | .bvc _ | .bvs _ | .bcc _ | .bcs _ | .bne _ | .beq _ => []
  | .jmpAbsolute _ | .jmpIndirect _ | .rts | .rti | .brk => []
  | .clc | .sec | .cli | .sei | .cld | .sed | .clv | .pla | .plp | .nop => []
  | .lax _ | .anc _ _ | .alr _ | .arr _ | .ane _ | .lxa _ | .sbx _ | .usbc _ | .las _ => []
  | .nopImplied _ | .nopImmediate _ _ | .nopZeroPage _ _ | .nopZeroPageX _ _ | .nopAbsolute _ | .nopAbsoluteX _ _ => []
  | .jam _ => []

/-- The addresses an instruction reads data from. The two bytes of a zero-page pointer are not listed: they are RAM. -/
def loads (i : Instr) (s : State) : List Word :=
  match i with
  | .lda o | .ldx o | .ldy o | .adc o | .sbc o | .and o | .ora o | .eor o | .cmp o | .cpx o | .cpy o | .bit o | .lax o =>
    readAddress o s
  | .inc o | .dec o | .asl o | .lsr o | .rol o | .ror o => effective o s
  | .slo o | .rla o | .sre o | .rra o | .dcp o | .isc o => effective o s
  | .las w => effective (.absoluteY w) s
  | .nopZeroPage _ b => effective (.zeroPage b) s
  | .nopZeroPageX _ b => effective (.zeroPageX b) s
  | .nopAbsolute w => effective (.absolute w) s
  | .nopAbsoluteX _ w => effective (.absoluteX w) s
  | .jmpIndirect ptr => [ptr, samePageNext ptr]
  | .pla | .plp => [stackCell (s.sp + 1)]
  | .rts => [stackCell (s.sp + 1), stackCell (s.sp + 2)]
  | .rti => [stackCell (s.sp + 1), stackCell (s.sp + 2), stackCell (s.sp + 3)]
  | .sta _ | .stx _ | .sty _ | .sax _ | .sha _ | .tas _ | .shy _ | .shx _ | .pha | .php | .jsr _ => []
  | .tax | .tay | .txa | .tya | .tsx | .txs | .inx | .iny | .dex | .dey => []
  | .bpl _ | .bmi _ | .bvc _ | .bvs _ | .bcc _ | .bcs _ | .bne _ | .beq _ | .jmpAbsolute _ | .brk => []
  | .clc | .sec | .cli | .sei | .cld | .sed | .clv | .nop => []
  | .anc _ _ | .alr _ | .arr _ | .ane _ | .lxa _ | .sbx _ | .usbc _ => []
  | .nopImplied _ | .nopImmediate _ _ | .jam _ => []

end Sys2Proof.Machine
end

