-- ==== Sys2Proof/Machine/HostSurface.lean ====
section
/-! DEFINITION. The host's acts between steps (60_exceptions R330, R331, 70_reset_and_hazards R340 to R347). They are no part
of a step. -/

namespace Sys2Proof.Machine

/-- 00_scope R7. -/
def spReset : Byte := 0xFD

/-- 00_scope R7. -/
def loadAddr : Word := 0x0600

/-- 70_reset_and_hazards R343. -/
def loadMax : Nat := 0x200

/-- 70_reset_and_hazards R340: the registers and the run state that `reset()` writes. -/
def State.resetRegisters (s : State) (entry : Word) : State :=
  ((((((s.setA 0).setX 0).setY 0).setP 0).setSp spReset).setPc entry).setRun .running

/-- 70_reset_and_hazards R340 to R342: `reset()`. The vector read is a bus read of program ROM, which cannot fault. -/
def hostReset (s : State) : State :=
  match s.run with
  | .faulted _ | .refused _ _ => s
  | .running | .halted =>
    match memRead16 resetVector s with
    | .ok entry t => t.resetRegisters entry
    | .fail _ _ => s

/-- Bus writes of bytes at consecutive addresses. -/
def storeBytes : List Byte → Word → State → Access Unit
  | [], _, s => .ok () s
  | b :: bs, a, s => (memWrite a b s).bind fun _ t => storeBytes bs (a + 1) t

/-- 70_reset_and_hazards R343: `load(bytes)`; `none` is the refusal of a load longer than the window. -/
def load (bytes : List Byte) (s : State) : Option State :=
  if bytes.length ≤ loadMax then
    match storeBytes bytes loadAddr s with
    | .ok _ t => some t
    | .fail _ _ => none
  else none

/-- 70_reset_and_hazards R344: `load_and_run(bytes)` up to its `run()`. PC is written in every run state, also in the two
in which `reset()` does nothing (R342). -/
def loadAndStart (bytes : List Byte) (s : State) : Option State :=
  (load bytes s).map fun t => (hostReset t).setPc startAddr

/-- 70_reset_and_hazards R346: the first act of `run()`. -/
def resume (s : State) : State :=
  match s.run with
  | .halted => s.setRun .running
  | .running | .faulted _ | .refused _ _ => s

/-- 60_exceptions R331: the trace hook, which may change A, X, Y, SP, P, PC and RAM and nothing else. -/
def applyHook (hook : State → State) (s : State) : State :=
  let h := hook s
  ((((((s.setA h.a).setX h.x).setY h.y).setSp h.sp).setP h.p).setPc h.pc).setRam h.ram

/-- 70_reset_and_hazards R346: what `run()` returns; `stuck` and `outOfFuel` are the runs that never return
(assumption log 21). -/
inductive RunResult where
  | programEnd (s : State)
  | failure (r : FaultRecord) (s : State)
  | refused (opAddr : Word) (opc : Byte) (s : State)
  | stuck (s : State)
  | outOfFuel (s : State)
  deriving DecidableEq, Repr

/-- The machine as a step that has no next state leaves it. -/
def stopped (s : State) : Host.Outcome State Fault Refusal → State
  | .next t => t
  | .fault (.unsupportedOpcode t) | .fault (.invalidAddress _ t) | .fault (.addressingModeUnsupported t) => t
  | .fault (.stuck t) => t
  | .fault (.notRunning _) => s
  | .refused r => r.leaves s

/-- 70_reset_and_hazards R346, R347: the loop of `run()` under a step budget, with the hook after every retired
instruction and not after an interrupt sequence or a step that faults or refuses (60_exceptions R331). -/
def runLoop (hook : State → State) : Nat → State → RunResult
  | 0, s => .outOfFuel s
  | n + 1, s =>
    match s.run with
    | .halted => .programEnd s
    | .faulted r => .failure r s
    | .refused a opc => .refused a opc s
    | .running =>
      match step s with
      | .next t => runLoop hook n (if s.video.nmiPending then t else applyHook hook t)
      | .fault (.stuck t) => .stuck t
      | o => runLoop hook n (stopped s o)

/-- 70_reset_and_hazards R346: `run()`. -/
def runMachine (n : Nat) (s : State) : RunResult := runLoop id n (resume s)

/-- 70_reset_and_hazards R347: `run_with_callback(hook)`. -/
def runWithCallback (hook : State → State) (n : Nat) (s : State) : RunResult := runLoop hook n (resume s)

/-- 70_reset_and_hazards R344: `load_and_run(bytes)`; `none` is a refused load. -/
def loadAndRun (bytes : List Byte) (n : Nat) (s : State) : Option RunResult :=
  (loadAndStart bytes s).map (runMachine n)

end Sys2Proof.Machine
end

