-- ==== Sys2Proof/Safety.lean ====
section
/-! DEFINITION. What counts as a well-kept machine and as a safe run, in the terms claims use. -/

namespace Sys2Proof.Machine

/-- A memory of `size` cells in canonical form. -/
abbrev Memory.Kept (size : Nat) (m : Memory) : Prop := m.wf = true ∧ m.below size = true

/-- The video unit between steps: its memories are kept and its counters and VADDR are in range (60_exceptions R303, R306,
R317, R323, R324); STATUS bits 0 to 6 are 0 (R301); vertical blank and a pending NMI lie in scanlines 241 to 261 (R308,
R309, R311). -/
abbrev Video.Inv (v : Video) : Prop :=
  v.vram.Kept 2048 ∧ v.palette.Kept 32 ∧ v.oam.Kept 256 ∧ v.dot < 341 ∧ v.scanline < 262 ∧ v.vaddr.toNat < 0x4000 ∧
    v.status &&& 0x7F = 0 ∧ (v.status.getLsbD 7 = true → 241 ≤ v.scanline) ∧ (v.nmiPending = true → 241 ≤ v.scanline)

/-- The cartridge's memories are kept (20_memory R65, 60_exceptions R322). -/
abbrev Cartridge.Inv (c : Cartridge) : Prop := c.prg.Kept c.prgSize.length ∧ c.chr.Kept 0x2000

/-- The machine between steps: its memories are kept, the video unit is well kept, and no NMI is pending in the `halted`
state (43_control_stack_flags R216). -/
abbrev State.Inv (s : State) : Prop :=
  s.ram.Kept ramSize ∧ s.video.Inv ∧ s.cart.Inv ∧ (s.run = .halted → s.video.nmiPending = false)

/-- 70_reset_and_hazards R361: the cycle-dot identity. -/
abbrev State.Synced (s : State) : Prop :=
  s.video.dot = 3 * s.cycles % 341 ∧ s.video.scanline = 3 * s.cycles / 341 % 262 ∧ s.video.frames = 3 * s.cycles / 89342

/-- A run of `n` steps that neither faults nor is refused. -/
def SafeFor (n : Nat) (s : State) : Prop := ∃ t, Host.Core.run core n s = .next t

end Sys2Proof.Machine
end

