-- ==== Sys2Proof/Certificates/Slice0/Obligations.lean ====
section
/-! DEFINITION. The statements for the provers, and the words they are made of (namespace `Sys2Proof.Claims`), written from
the spec without the meanings of Machine/. -/

namespace Sys2Proof.Claims

open Sys2Proof.Machine

/-! ## The words of the statements -/

/-- 20_memory R65: the byte of program ROM at a CPU address of 0x8000-0xFFFF. -/
def rom (c : Cartridge) (a : Nat) : Byte :=
  c.prg.read ((a - 0x8000) % (match c.prgSize with | .k16 => 16384 | .k32 => 32768))

/-- 20_memory R63, R65: the byte at a CPU address of RAM or program ROM, whose read has no side effect but LATCH. -/
def peek (s : State) (a : Word) : Option Byte :=
  if a.toNat < 0x2000 then some (s.ram.read (a.toNat % 0x800))
  else if 0x8000 ≤ a.toNat then some (rom s.cart a.toNat)
  else none

/-- 20_memory R64: `a` reaches port `p`. -/
def portAt (a : Word) (p : Nat) : Prop := 0x2000 ≤ a.toNat ∧ a.toNat ≤ 0x3FFF ∧ a.toNat % 8 = p

/-- 30_encoding R119, R120: the 16-bit pointer at a zero-page address, both bytes from the zero page. -/
def pointer (s : State) (z : Nat) : Nat :=
  (s.ram.read (z % 256)).toNat + 256 * (s.ram.read ((z + 1) % 256)).toNat

/-- 30_encoding R112 to R120: the effective address and the page cross of a mode; `none` for the modes without one, and for
immediate, whose byte the fetch reads. -/
def address (o : Operand) (s : State) : Option (Nat × Bool) :=
  match o with
  | .zeroPage b => some (b.toNat, false)
  | .zeroPageX b => some ((b.toNat + s.x.toNat) % 256, false)
  | .zeroPageY b => some ((b.toNat + s.y.toNat) % 256, false)
  | .absolute w => some (w.toNat, false)
  | .absoluteX w => some ((w.toNat + s.x.toNat) % 65536, decide ((w.toNat + s.x.toNat) / 256 ≠ w.toNat / 256))
  | .absoluteY w => some ((w.toNat + s.y.toNat) % 65536, decide ((w.toNat + s.y.toNat) / 256 ≠ w.toNat / 256))
  | .indexedIndirect b => some (pointer s (b.toNat + s.x.toNat), false)
  | .indirectIndexed b =>
    some ((pointer s b.toNat + s.y.toNat) % 65536,
      decide ((pointer s b.toNat + s.y.toNat) / 256 ≠ pointer s b.toNat / 256))
  | .implied | .accumulator | .immediate _ | .indirect _ | .relative _ => none

/-- 30_encoding R123, R124: what an instruction of `len` bytes and `n` cycles that sets no PC leaves, `t` being what its rule
left. -/
def retired (len n : Nat) (t : State) : State := tick n (t.setPc (t.pc + BitVec.ofNat 16 (len - 1)))

/-- 30_encoding R124: where an instruction of `len` bytes that sets PC to `target` goes on; `entry` is op_addr + 1. -/
def landing (c : Config) (entry target : Word) (len : Nat) : Word :=
  if c.pcAdvance = .compare ∧ target = entry then target + BitVec.ofNat 16 (len - 1) else target

/-- The cycles of a reading instruction by mode (30_encoding R121, R129; Encoding lines of R140 and the like). -/
def readCost (m : Mode) (cross : Bool) : Nat :=
  match m with
  | .imm => 2
  | .zp => 3
  | .zpx | .zpy | .abs => 4
  | .absx | .absy => if cross then 5 else 4
  | .indx => 6
  | .indy => if cross then 6 else 5
  | .imp | .acc | .ind | .rel => 0

/-- The cycles of a store by mode (Encoding lines of R143 to R145, R247, R257). -/
def storeCost (m : Mode) : Nat :=
  match m with
  | .zp => 3
  | .zpx | .zpy | .abs => 4
  | .absx | .absy => 5
  | .indx | .indy => 6
  | .imm | .imp | .acc | .ind | .rel => 0

/-- The cycles of a read-modify-write by mode (Encoding lines of R169, R191, R241 and the like). -/
def modifyCost (m : Mode) : Nat :=
  match m with
  | .acc => 2
  | .zp => 5
  | .zpx | .abs => 6
  | .absx | .absy => 7
  | .indx | .indy => 8
  | .imm | .zpy | .imp | .ind | .rel => 0

/-- A byte into A, N and Z from it. -/
def withA (t : State) (r : Byte) : State := (t.setA r).setP (setNZ t.p r)

/-- A byte into X, N and Z from it. -/
def withX (t : State) (r : Byte) : State := (t.setX r).setP (setNZ t.p r)

/-- A byte into Y, N and Z from it. -/
def withY (t : State) (r : Byte) : State := (t.setY r).setP (setNZ t.p r)

/-- 30_encoding R100: `bytes` are an encoding of `i`, whatever bytes follow. -/
def Encoded (bytes : List Byte) (i : Instr) : Prop := ∀ rest, decode (bytes ++ rest) = .ok (i, rest)

/-- P as an instruction leaves it: the flags listed have the values listed, every other flag is kept. -/
def Writes (p q : Byte) (l : List (Flag × Bool)) : Prop :=
  (∀ f v, (f, v) ∈ l → getFlag q f = v) ∧ ∀ f, (∀ v, (f, v) ∉ l) → getFlag q f = getFlag p f

/-- 0 or 1. -/
def bit (c : Bool) : Nat := if c then 1 else 0

/-- 41_arith_logic R160: A + m + C into A, by exact arithmetic. -/
def Added (t : State) (m : Byte) (u : State) : Prop :=
  ∃ q, u = (t.setA (BitVec.ofNat 8 (t.a.toNat + m.toNat + bit (getFlag t.p .c)))).setP q ∧
    Writes t.p q [
      (.c, decide (255 < t.a.toNat + m.toNat + bit (getFlag t.p .c))),
      (.v, decide (t.a.toInt + m.toInt + bit (getFlag t.p .c) < -128 ∨ 127 < t.a.toInt + m.toInt + bit (getFlag t.p .c))),
      (.n, u.a.getLsbD 7),
      (.z, decide (u.a = 0))]

/-- 41_arith_logic R161: A - m - (1 - C) into A, by exact arithmetic. -/
def Subtracted (t : State) (m : Byte) (u : State) : Prop :=
  ∃ q, u = (t.setA (BitVec.ofInt 8 (t.a.toNat - m.toNat - bit (!getFlag t.p .c)))).setP q ∧
    Writes t.p q [
      (.c, decide (m.toNat + bit (!getFlag t.p .c) ≤ t.a.toNat)),
      (.v, decide (t.a.toInt - m.toInt - bit (!getFlag t.p .c) < -128 ∨ 127 < t.a.toInt - m.toInt - bit (!getFlag t.p .c))),
      (.n, u.a.getLsbD 7),
      (.z, decide (u.a = 0))]

/-- 41_arith_logic R165: P after a comparison of `r` with `m`. -/
def Compared (t : State) (r m : Byte) (u : State) : Prop :=
  ∃ q, u = t.setP q ∧ Writes t.p q [(.c, decide (m.toNat ≤ r.toNat)), (.z, decide (r = m)), (.n, (r - m).getLsbD 7)]

/-- 42_shift_rotate R190: the result of a shift, by arithmetic; `c` is the carry in. -/
def shiftValue (k : ShiftKind) (c : Bool) (m : Byte) : Byte :=
  match k with
  | .asl => BitVec.ofNat 8 (2 * m.toNat)
  | .lsr => BitVec.ofNat 8 (m.toNat / 2)
  | .rol => BitVec.ofNat 8 (2 * m.toNat + bit c)
  | .ror => BitVec.ofNat 8 (m.toNat / 2 + 128 * bit c)

/-- 42_shift_rotate R190: the carry out of a shift. -/
def shiftOut (k : ShiftKind) (m : Byte) : Bool :=
  match k with
  | .asl | .rol => decide (128 ≤ m.toNat)
  | .lsr | .ror => decide (m.toNat % 2 = 1)

/-- 42_shift_rotate R191 to R194: the instruction of a kind of shift. -/
def shiftInstr (k : ShiftKind) (o : Operand) : Instr :=
  match k with
  | .asl => .asl o
  | .lsr => .lsr o
  | .rol => .rol o
  | .ror => .ror o

/-- 43_control_stack_flags R200: what a branch leaves. -/
def branched (taken : Bool) (disp : Byte) (s : State) : State :=
  let next := s.pc + 1
  let target := next + BitVec.ofInt 16 disp.toInt
  if taken then tick (if hi target = hi next then 3 else 4) (s.setPc (landing s.cfg s.pc target 2))
  else tick 2 (s.setPc next)

/-- The cell of RAM that a stack pointer names. -/
def cell (sp : Byte) : Nat := 0x100 + sp.toNat

/-- 30_encoding R108: the instructions that `UNSTABLE_POLICY = refuse` refuses. -/
def Unstable (i : Instr) : Prop :=
  (∃ b, i = .ane b) ∨ (∃ b, i = .lxa b) ∨ (∃ o, i = .sha o) ∨ (∃ w, i = .tas w) ∨ (∃ w, i = .shx w) ∨ ∃ w, i = .shy w

/-- 60_exceptions R282: the run state holds the record of a fault at `opAddr`, of the registers as they stand. -/
def Records (info : AddressFault) (opAddr : Word) (opc : Option Byte) (t : State) : Prop :=
  t.run = .faulted ⟨.invalidAddress info, opAddr, opc, t.a, t.x, t.y, t.sp, t.p, t.pc, t.cycles⟩

/-- 60_exceptions R283: A, X, Y, RAM, the cartridge, CYCLES and the video counters are as before. -/
def Uncharged (s t : State) : Prop :=
  t.a = s.a ∧ t.x = s.x ∧ t.y = s.y ∧ t.ram = s.ram ∧ t.cart = s.cart ∧ t.cycles = s.cycles ∧
    t.video.scanline = s.video.scanline ∧ t.video.dot = s.video.dot ∧ t.video.frames = s.video.frames

/-- 60_exceptions R282, R283: the instruction ends in the fault `info`, at the state `u` of the failing access. -/
def FaultsIn (i : Instr) (s : State) (info : AddressFault) (u : State) : Prop :=
  ∃ v, exec i s = .fault (.invalidAddress info v) ∧ Records info (s.pc - 1) (opcodeOf i) v ∧ v = u.setRun v.run

/-- The instructions that read the byte of their operand and store nothing, in every form that can fail (a read of the zero
page and an immediate byte cannot). -/
def Reads (i : Instr) (o : Operand) : Prop :=
  i ∈ [.lda o, .ldx o, .ldy o, .lax o, .adc o, .sbc o, .and o, .ora o, .eor o, .cmp o, .cpx o, .cpy o, .bit o] ∨
  (∃ w, o = .absoluteY w ∧ i = .las w) ∨ (∃ w, o = .absolute w ∧ i = .nopAbsolute w) ∨
  ∃ k w, o = .absoluteX w ∧ i = .nopAbsoluteX k w

/-- The stores of a form, each with the byte it stores. -/
def stored (o : Operand) (s : State) : List (Instr × Byte) :=
  [(.sta o, s.a), (.stx o, s.x), (.sty o, s.y), (.sax o, s.a &&& s.x)]

/-- The read-modify-writes of a form but for the shifts, each with the byte it writes back; `c` is the carry in. -/
def rewritten (o : Operand) (c : Bool) (m : Byte) : List (Instr × Byte) :=
  [(.inc o, m + 1), (.dec o, m - 1), (.slo o, shiftValue .asl c m), (.rla o, shiftValue .rol c m),
    (.sre o, shiftValue .lsr c m), (.rra o, shiftValue .ror c m), (.dcp o, m - 1), (.isc o, m + 1)]

/-- The read-modify-writes of a form. -/
def Modifies (i : Instr) (o : Operand) : Prop :=
  i ∈ [.inc o, .dec o, .slo o, .rla o, .sre o, .rra o, .dcp o, .isc o] ∨ ∃ k, i = shiftInstr k o

/-- An instruction again and again. -/
def times (i : Instr) : Nat → State → Host.Outcome State Fault Refusal
  | 0, s => .next s
  | n + 1, s =>
    match exec i s with
    | .next t => times i n t
    | .fault f => .fault f
    | .refused r => .refused r

end Sys2Proof.Claims

open Sys2Proof Sys2Proof.Machine Sys2Proof.Claims

/-! ## Encoding -/

/-- 30_encoding R100, R101, R129: bytes written out from the Encoding lines decode to the instruction they stand for. -/
def Obligations.DecodeWords : Prop :=
  decode [0xA9, 0x05, 0x00] = .ok (.lda (.immediate 0x05), [0x00]) ∧
  decode [0xBD, 0xF0, 0x12] = .ok (.lda (.absoluteX 0x12F0), []) ∧
  decode [0xA5, 0x10] = .ok (.lda (.zeroPage 0x10), []) ∧
  decode [0xB5, 0xF0] = .ok (.lda (.zeroPageX 0xF0), []) ∧
  decode [0xAD, 0x02, 0x20] = .ok (.lda (.absolute 0x2002), []) ∧
  decode [0x96, 0xFF] = .ok (.stx (.zeroPageY 0xFF), []) ∧
  decode [0x0A] = .ok (.asl .accumulator, []) ∧
  decode [0x71, 0x10] = .ok (.adc (.indirectIndexed 0x10), []) ∧
  decode [0x6C, 0xFF, 0x02] = .ok (.jmpIndirect 0x02FF, []) ∧
  decode [0x20, 0x00, 0x07] = .ok (.jsr 0x0700, []) ∧
  decode [0xD0, 0x20] = .ok (.bne 0x20, []) ∧
  decode [0x28] = .ok (.plp, []) ∧
  decode [0x00] = .ok (.brk, []) ∧
  decode [0xA3, 0x0E] = .ok (.lax (.indexedIndirect 0x0E), []) ∧
  decode [0x9B, 0x00, 0x02] = .ok (.tas 0x0200, []) ∧
  decode [0xB2] = .ok (.jam 9, []) ∧
  decode [] = .error .noOpcode ∧
  decode [0xAD, 0x02] = .error (.truncated 0xAD)

/-- Decoding the bytes of any well-formed instruction, whatever bytes follow, gives it back with every operand bit. -/
def Obligations.DecodeEncode : Prop :=
  ∀ i : Instr, i.wf = true →
    ∃ bytes, encode i = some bytes ∧ ∀ rest, decode (bytes ++ rest) = .ok (i, rest)

/-- What decodes is well formed and its own bytes are the ones that were read: no other bytes decode to it. -/
def Obligations.EncodeDecode : Prop :=
  ∀ (bytes rest : List Byte) (i : Instr), decode bytes = .ok (i, rest) →
    i.wf = true ∧ ∃ own, encode i = some own ∧ bytes = own ++ rest

/-- 30_encoding R100, R102, R103, R107, R121: every byte value begins an instruction of 1 to 3 bytes; its record costs 2 to 8
cycles and carries the page-cross penalty exactly for the opcodes that R121 lists. -/
def Obligations.TableComplete : Prop :=
  (∀ opc b1 b2 : Byte, ∃ i rest, decode [opc, b1, b2] = .ok (i, rest) ∧ opcodeOf i = some opc ∧
    rest.length + i.operand.mode.bytes = 3) ∧
  ∀ (opc : Byte) (r : Row), recordOf opc = some r →
    2 ≤ r.cycles ∧ r.cycles ≤ 8 ∧
    (r.penalty = true ↔ opc ∈ [0x11, 0x19, 0x1D, 0x31, 0x39, 0x3D, 0x51, 0x59, 0x5D, 0x71, 0x79, 0x7D, 0xB1, 0xB9, 0xBD,
      0xD1, 0xD9, 0xDD, 0xF1, 0xF9, 0xFD, 0xBE, 0xBC, 0xBF, 0xB3, 0xBB, 0x1C, 0x3C, 0x5C, 0x7C, 0xDC, 0xFC])

/-! ## The step -/

/-- 30_encoding R125: with no NMI pending, a running machine that fetches an opcode and the operand bytes of its mode runs
the instruction they decode to, with PC at op_addr + 1 (R109). -/
def Obligations.StepRunsDecoded : Prop :=
  ∀ (s t u : State) (opc : Byte) (r : Row) (bytes rest : List Byte) (i : Instr),
    s.run = .running → s.video.nmiPending = false →
    memRead s.pc s = .ok opc t → recordOf opc = some r →
    ¬(s.cfg.jamPolicy = .stuck ∧ opc ∈ jamOpcodes) → ¬(s.cfg.unstablePolicy = .refuse ∧ opc ∈ unstableOpcodes) →
    readBytes r.mode.operandBytes (s.pc + 1) (t.setPc (s.pc + 1)) = .ok bytes u →
    decode (opc :: bytes) = .ok (i, rest) →
    step s = exec i u

/-- 30_encoding R125, 20_memory R79: an instruction whose bytes lie in RAM or program ROM at PC is run by the step, from the
state with PC past its opcode (and LATCH its last byte under the open-bus policy). -/
def Obligations.StepRunsPlaced : Prop :=
  ∀ (s : State) (i : Instr) (bytes : List Byte) (last : Byte),
    s.run = .running → s.video.nmiPending = false →
    encode i = some bytes → bytes.getLast? = some last →
    (∀ k b, bytes[k]? = some b → peek s (s.pc + BitVec.ofNat 16 k) = some b) →
    ¬(s.cfg.jamPolicy = .stuck ∧ ∃ k, i = .jam k) → ¬(s.cfg.unstablePolicy = .refuse ∧ Unstable i) →
    step s = exec i ((s.setPc (s.pc + 1)).latched last)

/-- 60_exceptions R284, R292, R295: with an NMI pending the step is the interrupt sequence: it cannot fault, and this is all
it changes. -/
def Obligations.InterruptTaken : Prop :=
  ∀ s : State, s.run = .running → s.video.nmiPending = true →
    ∃ t, step s = .next t ∧
      t.ram = ((s.ram.write (cell s.sp) (hi s.pc)).write (cell (s.sp - 1)) (lo s.pc)).write (cell (s.sp - 2))
        ((s.p &&& 0xEF) ||| 0x20) ∧
      t.sp = s.sp - 3 ∧ t.p = setFlag s.p .i true ∧ t.pc = word (rom s.cart 0xFFFB) (rom s.cart 0xFFFA) ∧
      t.cycles = s.cycles + 7 ∧ t.video = Video.tick 21 { s.video with nmiPending := false } ∧
      t.a = s.a ∧ t.x = s.x ∧ t.y = s.y ∧ t.run = .running ∧ t.cart = s.cart ∧ t.cfg = s.cfg ∧ t.draws = s.draws ∧
      t.latch = if s.cfg.busPolicy = .openBus then rom s.cart 0xFFFB else s.latch

/-- 60_exceptions R296, 43_control_stack_flags R215: an RTI that finds SP and the three stacked bytes as the interrupt sequence
left them, whatever else has changed, resumes at the pre-empted instruction with SP as before and P as before but B = 0 and
U = 1. -/
def Obligations.InterruptReturns : Prop :=
  ∀ s t u : State, s.run = .running → s.video.nmiPending = true → s.ram.wf = true → step s = .next t →
    u.sp = t.sp → (∀ k ∈ [s.sp, s.sp - 1, s.sp - 2], u.ram.read (cell k) = t.ram.read (cell k)) →
    ∃ v, exec .rti u = .next v ∧ v.pc = s.pc ∧ v.sp = s.sp ∧ v.p = (s.p &&& 0xEF) ||| 0x20

/-- 10_state R43: only `running` has a next step; `reset` sets `running` only from `halted` or `running`, and a faulted or
refused state is left by nothing. -/
def Obligations.OnlyRunningSteps : Prop :=
  (∀ s t : State, step s = .next t → s.run = .running) ∧
  (∀ s : State, (hostReset s).run = .running → s.run = .running ∨ s.run = .halted) ∧
  (∀ s : State, s.run = .running ∨ s.run = .halted → (hostReset s).run = .running) ∧
  ∀ s : State, ((∃ r, s.run = .faulted r) ∨ ∃ a opc, s.run = .refused a opc) → hostReset s = s

/-! ## Reset and load -/

/-- 70_reset_and_hazards R340 to R342: what `reset()` does in every run state. -/
def Obligations.HostReset : Prop :=
  (∀ s : State, s.run = .running ∨ s.run = .halted →
    hostReset s =
      { s with
        a := 0, x := 0, y := 0, p := 0, sp := 0xFD, run := .running
        pc := word (rom s.cart 0xFFFD) (rom s.cart 0xFFFC)
        latch := if s.cfg.busPolicy = .openBus then rom s.cart 0xFFFD else s.latch }) ∧
  ∀ s : State, ((∃ r, s.run = .faulted r) ∨ ∃ a opc, s.run = .refused a opc) → hostReset s = s

/-- 70_reset_and_hazards R343, R344: a load of at most 0x200 bytes puts them at 0x0600 and changes nothing else (but LATCH
under the open-bus policy); a longer one is refused. `load_and_run` loads, resets, puts PC at 0x0600 in every run state, and
runs; from a faulted or refused state, which the reset leaves as it is, the run returns that record at once (R346). -/
def Obligations.HostLoad : Prop :=
  ∀ (s : State) (bytes : List Byte), s.ram.wf = true →
    (bytes.length ≤ 0x200 → ∃ t, load bytes s = some t ∧
      (∀ k b, bytes[k]? = some b → t.ram.read (0x600 + k) = b) ∧
      (∀ j, j < 0x600 ∨ 0x600 + bytes.length ≤ j → t.ram.read j = s.ram.read j) ∧
      t = { s with ram := t.ram, latch := t.latch } ∧ (s.cfg.busPolicy = .fault → t.latch = s.latch)) ∧
    (0x200 < bytes.length → load bytes s = none ∧ ∀ n, loadAndRun bytes n s = none) ∧
    ∀ t, load bytes s = some t →
      (∀ n, loadAndRun bytes n s = some (runMachine n ((hostReset t).setPc 0x0600))) ∧
      (∀ r, s.run = .faulted r → ∀ n, loadAndRun bytes (n + 1) s = some (.failure r (t.setPc 0x0600))) ∧
      ∀ a opc, s.run = .refused a opc → ∀ n, loadAndRun bytes (n + 1) s = some (.refused a opc (t.setPc 0x0600))

/-- The reset state meets the invariants that every step keeps. -/
def Obligations.ResetInvariants : Prop := State.reset.Inv ∧ State.reset.Synced

/-- 70_reset_and_hazards R340, R348: the values the spec gives the state after reset, and that `reset()` leaves it so. -/
def Obligations.ResetValues : Prop :=
  State.reset.a = 0x00 ∧ State.reset.x = 0x00 ∧ State.reset.y = 0x00 ∧ State.reset.sp = 0xFD ∧ State.reset.p = 0x00 ∧
  State.reset.run = .running ∧ State.reset.cycles = 0 ∧
  State.reset.pc = word (rom State.reset.cart 0xFFFD) (rom State.reset.cart 0xFFFC) ∧
  State.reset.video.ctrl = 0x00 ∧ State.reset.video.mask = 0x00 ∧ State.reset.video.status = 0x00 ∧
  State.reset.video.oamAddr = 0x00 ∧ State.reset.video.scrollX = 0x00 ∧ State.reset.video.scrollY = 0x00 ∧
  State.reset.video.vaddr = 0x0000 ∧ State.reset.video.w = false ∧ State.reset.video.rdbuf = 0x00 ∧
  State.reset.video.scanline = 0 ∧ State.reset.video.dot = 0 ∧ State.reset.video.nmiPending = false ∧
  State.reset.video.frames = 0 ∧ hostReset State.reset = State.reset

/-! ## Invariants -/

/-- Every step keeps the machine well kept: canonical memories, counters and VADDR in range, STATUS bits 0 to 6 zero,
vertical blank and a pending NMI only in scanlines 241 to 261, and no NMI pending in `halted` (43_control_stack_flags
R216). -/
def Obligations.StepKeepsInv : Prop := ∀ s t : State, s.Inv → step s = .next t → t.Inv

/-- 70_reset_and_hazards R361: the cycle-dot identity, at reset and through every step and every act of the host. -/
def Obligations.CycleDotIdentity : Prop :=
  State.reset.Synced ∧
  (∀ s t : State, s.Synced → step s = .next t → t.Synced) ∧
  (∀ s : State, s.Synced → (hostReset s).Synced) ∧
  ∀ (s t : State) (bytes : List Byte), s.Synced → load bytes s = some t → t.Synced

/-! ## The bus -/

/-- 20_memory R63, R65: RAM through any of its four mirrors, and program ROM. No such access fails or has a side effect but
LATCH under the open-bus policy. -/
def Obligations.MemoryWindows : Prop :=
  (∀ (a : Word) (s : State), a.toNat ≤ 0x1FFF →
    memRead a s = .ok (s.ram.read (a.toNat % 0x800)) (s.latched (s.ram.read (a.toNat % 0x800)))) ∧
  (∀ (a : Word) (v : Byte) (s : State), a.toNat ≤ 0x1FFF →
    memWrite a v s = .ok () ((s.latched v).setRam (s.ram.write (a.toNat % 0x800) v))) ∧
  (∀ (a b : Word) (v : Byte) (s t : State), a.toNat ≤ 0x1FFF → b.toNat ≤ 0x1FFF → a.toNat % 0x800 = b.toNat % 0x800 →
    s.ram.wf = true → memWrite a v s = .ok () t → memRead b t = .ok v (t.latched v)) ∧
  ∀ (a : Word) (s : State), 0x8000 ≤ a.toNat → memRead a s = .ok (rom s.cart a.toNat) (s.latched (rom s.cart a.toNat))

/-- 20_memory R66, R67, R68, 60_exceptions R281, R305, R320: which bus accesses fault, with which fault, under either
policy; a failed read changes nothing and a failed write changes nothing but LATCH under the open-bus policy. -/
def Obligations.AccessFaults : Prop :=
  (∀ (a : Word) (s t : State) (k : FaultKind), memRead a s = .fail k t ↔
    t = s ∧ s.cfg.busPolicy = .fault ∧
      ((0x4000 ≤ a.toNat ∧ a.toNat ≤ 0x7FFF ∧ k = .invalidAddress (.unmapped .read a)) ∨
        ((portAt a 0 ∨ portAt a 1 ∨ portAt a 3 ∨ portAt a 5 ∨ portAt a 6) ∧
          k = .invalidAddress (.writeOnlyPortRead (portOf a) a)))) ∧
  ∀ (a : Word) (v : Byte) (s t : State) (k : FaultKind), memWrite a v s = .fail k t ↔
    t = s.latched v ∧
      ((0x4000 ≤ a.toNat ∧ a.toNat ≤ 0x7FFF ∧ s.cfg.busPolicy = .fault ∧ k = .invalidAddress (.unmapped .write a)) ∨
        (0x8000 ≤ a.toNat ∧ k = .invalidAddress (.romWrite a)) ∨
        (portAt a 2 ∧ s.cfg.busPolicy = .fault ∧ k = .invalidAddress (.readOnlyPortWrite a)) ∨
        (portAt a 7 ∧ s.video.vaddr.toNat < 0x2000 ∧ k = .invalidAddress (.chrRomWrite s.video.vaddr)))

/-- 20_memory R68, R69: under the open-bus policy LATCH holds the byte of the last access, whatever the region, and an
unrouted read, or a read of a write-only port, returns it. -/
def Obligations.OpenBus : Prop :=
  ∀ (a : Word) (s : State), s.cfg.busPolicy = .openBus →
    (∀ v t, memRead a s = .ok v t → t.latch = v) ∧
    (∀ v t, memWrite a v s = .ok () t → t.latch = v) ∧
    (∀ v k t, memWrite a v s = .fail k t → t.latch = v) ∧
    ((0x4000 ≤ a.toNat ∧ a.toNat ≤ 0x7FFF) ∨ portAt a 0 ∨ portAt a 1 ∨ portAt a 3 ∨ portAt a 5 ∨ portAt a 6 →
      memRead a s = .ok s.latch s) ∧
    ((0x4000 ≤ a.toNat ∧ a.toNat ≤ 0x7FFF) ∨ portAt a 2 → ∀ v, memWrite a v s = .ok () (s.setLatch v))

/-- 20_memory R75 to R77: push and pop, which never fault, and whose pointer wraps in the stack page. -/
def Obligations.PushPop : Prop :=
  (∀ (v : Byte) (s : State),
    push v s = .ok () (((s.latched v).setRam (s.ram.write (cell s.sp) v)).setSp (s.sp - 1))) ∧
  (∀ s : State, pop s = .ok (s.ram.read (cell (s.sp + 1))) ((s.setSp (s.sp + 1)).latched (s.ram.read (cell (s.sp + 1))))) ∧
  ∀ (v : Byte) (s t : State), s.ram.wf = true → push v s = .ok () t → ∃ u, pop t = .ok v u ∧ u.sp = s.sp

/-! ## The video unit -/

/-- 60_exceptions R307 to R309, R312: after n dots from scanline 0, dot 0, with vertical blank and NMI_PENDING clear. -/
def Obligations.TickLaw : Prop :=
  ∀ (v : Video) (n : Nat), v.dot = 0 → v.scanline = 0 →
    (v.tick n).dot = n % 341 ∧ (v.tick n).scanline = n / 341 % 262 ∧ (v.tick n).frames = v.frames + n / 89342 ∧
    (v.status.getLsbD 7 = false → (v.tick n).status.getLsbD 7 = decide (241 ≤ n / 341 % 262)) ∧
    (v.nmiPending = false → (v.tick n).nmiPending = (v.ctrl.getLsbD 7 && decide (241 ≤ n / 341 % 262))) ∧
    (v.tick n).ctrl = v.ctrl ∧ (v.tick n).vaddr = v.vaddr ∧ (v.tick n).w = v.w ∧ (v.tick n).rdbuf = v.rdbuf ∧
    (v.tick n).vram = v.vram ∧ (v.tick n).palette = v.palette ∧ (v.tick n).oam = v.oam

/-- 60_exceptions R307 to R309: one dot, with the entry to vertical blank and the end of the frame. -/
def Obligations.DotEdges : Prop :=
  (∀ v : Video, v.dot < 340 → v.dotStep = { v with dot := v.dot + 1 }) ∧
  (∀ v : Video, v.dot = 340 → v.scanline ≠ 240 → v.scanline ≠ 261 →
    v.dotStep = { v with dot := 0, scanline := v.scanline + 1 }) ∧
  (∀ v : Video, v.dot = 340 → v.scanline = 240 →
    v.dotStep = { v with
      dot := 0, scanline := 241, status := v.status ||| 0x80, nmiPending := v.nmiPending || v.ctrl.getLsbD 7 }) ∧
  ∀ v : Video, v.dot = 340 → v.scanline = 261 →
    v.dotStep = { v with
      dot := 0, scanline := 0, status := v.status &&& 0x7F, nmiPending := false, frames := v.frames + 1 }

/-- 60_exceptions R301, R305: a STATUS read returns vertical blank with bits 5 and 6 as SPRITE_STATUS, then clears vertical
blank and the toggle. Under `draw` the two bits are a free value (assumption log 5): some value, whichever it is. -/
def Obligations.StatusRead : Prop :=
  ∀ (a : Word) (s : State), portAt a 2 →
    (∀ b, s.cfg.spriteStatus = .fixed b →
      memRead a s = .ok ((s.video.status &&& 0x9F) ||| (b.setWidth 8 <<< 5))
        ((s.setVideo { s.video with status := s.video.status &&& 0x7F, w := false }).latched
          ((s.video.status &&& 0x9F) ||| (b.setWidth 8 <<< 5)))) ∧
    (s.cfg.spriteStatus = .draw → ∃ b : BitVec 2,
      memRead a s = .ok ((s.video.status &&& 0x9F) ||| (b.setWidth 8 <<< 5))
        (((s.setDraws (s.draws + 1)).setVideo { s.video with status := s.video.status &&& 0x7F, w := false }).latched
          ((s.video.status &&& 0x9F) ||| (b.setWidth 8 <<< 5))))

/-- 60_exceptions R311: a CTRL write, with the live re-trigger; it changes nothing else, W among it. -/
def Obligations.CtrlWrite : Prop :=
  ∀ (a : Word) (v : Byte) (s : State), portAt a 0 →
    memWrite a v s = .ok () ((s.latched v).setVideo { s.video with
      ctrl := v
      nmiPending := s.video.nmiPending || (!s.video.ctrl.getLsbD 7 && v.getLsbD 7 && s.video.status.getLsbD 7) })

/-- 60_exceptions R302 to R304: the MASK, OAMADDR, OAMDATA and SCROLL ports. -/
def Obligations.StoredPorts : Prop :=
  (∀ (a : Word) (v : Byte) (s : State), portAt a 1 →
    memWrite a v s = .ok () ((s.latched v).setVideo { s.video with mask := v })) ∧
  (∀ (a : Word) (v : Byte) (s : State), portAt a 3 →
    memWrite a v s = .ok () ((s.latched v).setVideo { s.video with oamAddr := v })) ∧
  (∀ (a : Word) (v : Byte) (s : State), portAt a 4 →
    memWrite a v s = .ok () ((s.latched v).setVideo { s.video with
      oam := s.video.oam.write s.video.oamAddr.toNat v, oamAddr := s.video.oamAddr + 1 })) ∧
  (∀ (a : Word) (s : State), portAt a 4 →
    memRead a s = .ok (s.video.oam.read s.video.oamAddr.toNat) (s.latched (s.video.oam.read s.video.oamAddr.toNat))) ∧
  (∀ (a : Word) (v : Byte) (s : State), portAt a 5 → s.cfg.scrollToggle = .shared →
    memWrite a v s = .ok () ((s.latched v).setVideo { s.video with
      scrollX := if s.video.w then s.video.scrollX else v
      scrollY := if s.video.w then v else s.video.scrollY
      w := !s.video.w })) ∧
  ∀ (a : Word) (v : Byte) (s : State), portAt a 5 → s.cfg.scrollToggle = .separate →
    memWrite a v s = .ok () ((s.latched v).setVideo { s.video with
      scrollX := if s.video.ws then s.video.scrollX else v
      scrollY := if s.video.ws then v else s.video.scrollY
      ws := !s.video.ws })

/-- 60_exceptions R317: the address port fills the high byte and then the low byte of VADDR, kept below 0x4000. -/
def Obligations.AddressLatch : Prop :=
  (∀ (a : Word) (v : Byte) (s : State), portAt a 6 → s.video.w = false →
    memWrite a v s = .ok () ((s.latched v).setVideo { s.video with
      vaddr := BitVec.ofNat 16 ((v.toNat * 256 + s.video.vaddr.toNat % 256) % 0x4000), w := true })) ∧
  (∀ (a : Word) (v : Byte) (s : State), portAt a 6 → s.video.w = true →
    memWrite a v s = .ok () ((s.latched v).setVideo { s.video with
      vaddr := BitVec.ofNat 16 ((s.video.vaddr.toNat / 256 * 256 + v.toNat) % 0x4000), w := false })) ∧
  ∀ (a b : Word) (h l : Byte) (s : State), portAt a 6 → portAt b 6 → s.video.w = false →
    ∃ t u, memWrite a h s = .ok () t ∧ memWrite b l t = .ok () u ∧
      u.video.vaddr = BitVec.ofNat 16 ((h.toNat * 256 + l.toNat) % 0x4000) ∧ u.video.w = false

/-- 60_exceptions R319 to R322: the data port, with its buffered read, its palette exception, its regions and its
increment. -/
def Obligations.DataPort : Prop :=
  ∀ (a : Word) (s : State), portAt a 7 →
    let v := s.video
    let next := BitVec.ofNat 16 ((v.vaddr.toNat + if v.ctrl.getLsbD 2 then 32 else 1) % 0x4000)
    let cell := v.vram.read (ntIndex s.cart.mirroring v.vaddr)
    let colour := v.palette.read (palIndex v.vaddr)
    (v.vaddr.toNat < 0x2000 →
      memRead a s = .ok v.rdbuf
        ((s.setVideo { v with rdbuf := s.cart.chr.read v.vaddr.toNat, vaddr := next }).latched v.rdbuf)) ∧
    (0x2000 ≤ v.vaddr.toNat → v.vaddr.toNat < 0x3F00 →
      memRead a s = .ok v.rdbuf ((s.setVideo { v with rdbuf := cell, vaddr := next }).latched v.rdbuf)) ∧
    (0x3F00 ≤ v.vaddr.toNat →
      memRead a s = .ok colour ((s.setVideo { v with rdbuf := cell, vaddr := next }).latched colour)) ∧
    (∀ b, 0x2000 ≤ v.vaddr.toNat → v.vaddr.toNat < 0x3F00 →
      memWrite a b s = .ok () ((s.latched b).setVideo { v with
        vram := v.vram.write (ntIndex s.cart.mirroring v.vaddr) b, vaddr := next })) ∧
    ∀ b, 0x3F00 ≤ v.vaddr.toNat →
      memWrite a b s = .ok () ((s.latched b).setVideo { v with
        palette := v.palette.write (palIndex v.vaddr) b, vaddr := next })

/-- 60_exceptions R323, R324: which VRAM cell a nametable address names under each mirroring mode (tables 0 and 1, 2 and 3
share one horizontally; 0 and 2, 1 and 3 vertically), and which palette cell an address names. -/
def Obligations.VideoMirrors : Prop :=
  ∀ a : Word,
    ntIndex .horizontal a = a.toNat / 0x800 % 2 * 0x400 + a.toNat % 0x400 ∧
    ntIndex .vertical a = a.toNat / 0x400 % 2 * 0x400 + a.toNat % 0x400 ∧
    (0x3F00 ≤ a.toNat → a.toNat ≤ 0x3FFF →
      palIndex a = if a.toNat % 4 = 0 then a.toNat % 0x10 else a.toNat % 0x20)

/-! ## Operands and flags -/

/-- 00_scope R11: SetNZ. -/
def Obligations.FlagHelper : Prop :=
  ∀ (p r : Byte), Writes p (setNZ p r) [(.z, decide (r = 0)), (.n, r.getLsbD 7)]

/-- 30_encoding R111 to R120: the data read of an operand. An immediate is the byte itself; any other mode makes one bus read
at its effective address, whatever region that is in, from the state that resolving it leaves (which differs in LATCH alone),
and ends as that read ends; for RAM and program ROM the byte is `peek`, with no other effect than LATCH. -/
def Obligations.OperandRead : Prop :=
  (∀ (b : Byte) (s : State), readOperand (.immediate b) s = .ok (b, false) s) ∧
  (∀ (o : Operand) (s : State) (ea : Nat) (cross : Bool) (m : Byte), address o s = some (ea, cross) →
    peek s (BitVec.ofNat 16 ea) = some m → readOperand o s = .ok (m, cross) (s.latched m)) ∧
  ∀ (o : Operand) (s : State) (ea : Nat) (cross : Bool), address o s = some (ea, cross) →
    ∃ r t, resolve o s = .ok r t ∧ r.ea = BitVec.ofNat 16 ea ∧ r.cross = cross ∧
      t = { s with latch := t.latch } ∧ (s.cfg.busPolicy = .fault → t = s) ∧
      (∀ m u, memRead (BitVec.ofNat 16 ea) t = .ok m u → readOperand o s = .ok (m, cross) u) ∧
      ∀ k u, memRead (BitVec.ofNat 16 ea) t = .fail k u → readOperand o s = .fail k u

/-! ## Results and completion: loads, stores, transfers -/

/-- 40_load_store_transfer R140 to R142, 44_undocumented R248, R261: a load whose operand is readable completes. -/
def Obligations.LoadsComplete : Prop :=
  ∀ (o : Operand) (s t : State) (m : Byte) (cross : Bool), readOperand o s = .ok (m, cross) t →
    let len := o.mode.bytes
    let n := readCost o.mode cross
    ((Instr.lda o).wf = true → exec (.lda o) s = .next (retired len n (withA t m))) ∧
    ((Instr.ldx o).wf = true → exec (.ldx o) s = .next (retired len n (withX t m))) ∧
    ((Instr.ldy o).wf = true → exec (.ldy o) s = .next (retired len n (withY t m))) ∧
    ((Instr.lax o).wf = true → exec (.lax o) s = .next (retired len n (withA (t.setX m) m))) ∧
    ∀ w, o = .absoluteY w →
      exec (.las w) s = .next (retired 3 n (withA ((t.setX (m &&& t.sp)).setSp (m &&& t.sp)) (m &&& t.sp)))

/-- 40_load_store_transfer R143 to R145, 44_undocumented R247: a store whose address takes the byte completes, and writes no
register and no flag. -/
def Obligations.StoresComplete : Prop :=
  ∀ (o : Operand) (s t u : State) (r : Resolved), resolve o s = .ok r t →
    let done := Host.Outcome.next (retired o.mode.bytes (storeCost o.mode) u)
    ((Instr.sta o).wf = true → memWrite r.ea s.a t = .ok () u → exec (.sta o) s = done) ∧
    ((Instr.stx o).wf = true → memWrite r.ea s.x t = .ok () u → exec (.stx o) s = done) ∧
    ((Instr.sty o).wf = true → memWrite r.ea s.y t = .ok () u → exec (.sty o) s = done) ∧
    ((Instr.sax o).wf = true → memWrite r.ea (s.a &&& s.x) t = .ok () u → exec (.sax o) s = done)

/-- 40_load_store_transfer R146 to R151: the register transfers, with their one-byte encodings. -/
def Obligations.TransfersComplete : Prop :=
  (Encoded [0xAA] .tax ∧ Encoded [0xA8] .tay ∧ Encoded [0x8A] .txa ∧ Encoded [0x98] .tya ∧ Encoded [0xBA] .tsx ∧
    Encoded [0x9A] .txs) ∧
  ∀ s : State,
    exec .tax s = .next (retired 1 2 (withX s s.a)) ∧ exec .tay s = .next (retired 1 2 (withY s s.a)) ∧
    exec .txa s = .next (retired 1 2 (withA s s.x)) ∧ exec .tya s = .next (retired 1 2 (withA s s.y)) ∧
    exec .tsx s = .next (retired 1 2 (withX s s.sp)) ∧ exec .txs s = .next (retired 1 2 (s.setSp s.x))

/-! ## Results and completion: arithmetic, logic, compare, increment -/

/-- 41_arith_logic R160, R161, 44_undocumented R255: addition and subtraction by exact integer arithmetic. D takes no part. -/
def Obligations.AddSubtractComplete : Prop :=
  ∀ (o : Operand) (s t : State) (m : Byte) (cross : Bool), readOperand o s = .ok (m, cross) t →
    ((Instr.adc o).wf = true → ∃ u, Added t m u ∧ exec (.adc o) s = .next (retired o.mode.bytes (readCost o.mode cross) u)) ∧
    ((Instr.sbc o).wf = true →
      ∃ u, Subtracted t m u ∧ exec (.sbc o) s = .next (retired o.mode.bytes (readCost o.mode cross) u)) ∧
    ∀ b, o = .immediate b → ∃ u, Subtracted s b u ∧ exec (.usbc b) s = .next (retired 2 2 u)

/-- 41_arith_logic R162 to R164: the logic instructions. -/
def Obligations.LogicComplete : Prop :=
  ∀ (o : Operand) (s t : State) (m : Byte) (cross : Bool), readOperand o s = .ok (m, cross) t →
    let len := o.mode.bytes
    let n := readCost o.mode cross
    ((Instr.and o).wf = true → exec (.and o) s = .next (retired len n (withA t (t.a &&& m)))) ∧
    ((Instr.ora o).wf = true → exec (.ora o) s = .next (retired len n (withA t (t.a ||| m)))) ∧
    ((Instr.eor o).wf = true → exec (.eor o) s = .next (retired len n (withA t (t.a ^^^ m))))

/-- 41_arith_logic R165 to R168: the comparisons and BIT, which write flags alone. -/
def Obligations.CompareComplete : Prop :=
  ∀ (o : Operand) (s t : State) (m : Byte) (cross : Bool), readOperand o s = .ok (m, cross) t →
    let len := o.mode.bytes
    let n := readCost o.mode cross
    ((Instr.cmp o).wf = true → ∃ u, Compared t t.a m u ∧ exec (.cmp o) s = .next (retired len n u)) ∧
    ((Instr.cpx o).wf = true → ∃ u, Compared t t.x m u ∧ exec (.cpx o) s = .next (retired len n u)) ∧
    ((Instr.cpy o).wf = true → ∃ u, Compared t t.y m u ∧ exec (.cpy o) s = .next (retired len n u)) ∧
    ((Instr.bit o).wf = true →
      ∃ q, Writes t.p q [(.z, decide (t.a &&& m = 0)), (.n, m.getLsbD 7), (.v, m.getLsbD 6)] ∧
        exec (.bit o) s = .next (retired len n (t.setP q)))

/-- 41_arith_logic R169, R170: increment and decrement of memory, by one read and one write of EA. -/
def Obligations.MemoryIncrementsComplete : Prop :=
  ∀ (o : Operand) (s t u v : State) (r : Resolved) (m : Byte), resolve o s = .ok r t → memRead r.ea t = .ok m u →
    ((Instr.inc o).wf = true → memWrite r.ea (m + 1) u = .ok () v →
      exec (.inc o) s = .next (retired o.mode.bytes (modifyCost o.mode) (v.setP (setNZ s.p (m + 1))))) ∧
    ((Instr.dec o).wf = true → memWrite r.ea (m - 1) u = .ok () v →
      exec (.dec o) s = .next (retired o.mode.bytes (modifyCost o.mode) (v.setP (setNZ s.p (m - 1)))))

/-- 41_arith_logic R171 to R174: increments and decrements of X and Y, with their one-byte encodings. -/
def Obligations.IndexIncrementsComplete : Prop :=
  (Encoded [0xE8] .inx ∧ Encoded [0xC8] .iny ∧ Encoded [0xCA] .dex ∧ Encoded [0x88] .dey) ∧
  ∀ s : State,
    exec .inx s = .next (retired 1 2 (withX s (s.x + 1))) ∧ exec .iny s = .next (retired 1 2 (withY s (s.y + 1))) ∧
    exec .dex s = .next (retired 1 2 (withX s (s.x - 1))) ∧ exec .dey s = .next (retired 1 2 (withY s (s.y - 1)))

/-- 42_shift_rotate R190 to R194: the shifts and rotates of A and of memory, by arithmetic. -/
def Obligations.ShiftsComplete : Prop :=
  (∀ (k : ShiftKind) (s : State),
    let r := shiftValue k (getFlag s.p .c) s.a
    ∃ q, Writes s.p q [(.c, shiftOut k s.a), (.z, decide (r = 0)), (.n, r.getLsbD 7)] ∧
      exec (shiftInstr k .accumulator) s = .next (retired 1 2 ((s.setA r).setP q))) ∧
  ∀ (k : ShiftKind) (o : Operand) (s t u v : State) (e : Resolved) (m : Byte),
    (shiftInstr k o).wf = true → resolve o s = .ok e t → memRead e.ea t = .ok m u →
    let r := shiftValue k (getFlag s.p .c) m
    memWrite e.ea r u = .ok () v →
    ∃ q, Writes s.p q [(.c, shiftOut k m), (.z, decide (r = 0)), (.n, r.getLsbD 7)] ∧
      exec (shiftInstr k o) s = .next (retired o.mode.bytes (modifyCost o.mode) (v.setP q))

/-! ## Results and completion: control flow, flags, stack -/

/-- 43_control_stack_flags R200 to R208: the eight branches, taken and not, with their cost. -/
def Obligations.BranchesComplete : Prop :=
  ∀ (disp : Byte) (s : State),
    exec (.bpl disp) s = .next (branched (!getFlag s.p .n) disp s) ∧
    exec (.bmi disp) s = .next (branched (getFlag s.p .n) disp s) ∧
    exec (.bvc disp) s = .next (branched (!getFlag s.p .v) disp s) ∧
    exec (.bvs disp) s = .next (branched (getFlag s.p .v) disp s) ∧
    exec (.bcc disp) s = .next (branched (!getFlag s.p .c) disp s) ∧
    exec (.bcs disp) s = .next (branched (getFlag s.p .c) disp s) ∧
    exec (.bne disp) s = .next (branched (!getFlag s.p .z) disp s) ∧
    exec (.beq disp) s = .next (branched (getFlag s.p .z) disp s)

/-- 43_control_stack_flags R210, R212: JMP absolute; JMP indirect, whose second target byte comes from the pointer's page. -/
def Obligations.JumpsComplete : Prop :=
  (∀ (w : Word) (s : State), exec (.jmpAbsolute w) s = .next (tick 3 (s.setPc (landing s.cfg s.pc w 3)))) ∧
  ∀ (ptr : Word) (s t u : State) (l h : Byte), memRead ptr s = .ok l t →
    memRead (BitVec.ofNat 16 (ptr.toNat / 256 * 256 + (ptr.toNat + 1) % 256)) t = .ok h u →
    exec (.jmpIndirect ptr) s = .next (tick 5 (u.setPc (landing s.cfg s.pc (word h l) 3)))

/-- 43_control_stack_flags R213 to R215: JSR, RTS and RTI. -/
def Obligations.SubroutinesComplete : Prop :=
  ∀ s : State,
    (∀ w, exec (.jsr w) s = .next (tick 6 ((((s.setRam
      ((s.ram.write (cell s.sp) (hi (s.pc + 1))).write (cell (s.sp - 1)) (lo (s.pc + 1)))).setSp (s.sp - 2)).latched
      (lo (s.pc + 1))).setPc (landing s.cfg s.pc w 3)))) ∧
    (exec .rts s = .next (tick 6 (((s.setSp (s.sp + 2)).latched (s.ram.read (cell (s.sp + 2)))).setPc
      (word (s.ram.read (cell (s.sp + 2))) (s.ram.read (cell (s.sp + 1))) + 1)))) ∧
    exec .rti s = .next (tick 6 ((((s.setSp (s.sp + 3)).setP ((s.ram.read (cell (s.sp + 1)) &&& 0xEF) ||| 0x20)).latched
      (s.ram.read (cell (s.sp + 3)))).setPc (word (s.ram.read (cell (s.sp + 3))) (s.ram.read (cell (s.sp + 2))))))

/-- 43_control_stack_flags R216: 0x00 is the halt: the run state changes, PC is op_addr + 1, no cycle is charged. -/
def Obligations.HaltCompletes : Prop :=
  (∀ s : State, exec .brk s = .next (s.setRun .halted)) ∧
  ∀ s t : State, s.run = .running → s.video.nmiPending = false → memRead s.pc s = .ok 0x00 t →
    step s = .next ((t.setPc (s.pc + 1)).setRun .halted)

/-- 43_control_stack_flags R220 to R226: the flag instructions, with their one-byte encodings. -/
def Obligations.FlagInstructionsComplete : Prop :=
  (Encoded [0x18] .clc ∧ Encoded [0x38] .sec ∧ Encoded [0x58] .cli ∧ Encoded [0x78] .sei ∧ Encoded [0xD8] .cld ∧
    Encoded [0xF8] .sed ∧ Encoded [0xB8] .clv) ∧
  ∀ s : State,
    exec .clc s = .next (retired 1 2 (s.setP (s.p &&& 0xFE))) ∧ exec .sec s = .next (retired 1 2 (s.setP (s.p ||| 0x01))) ∧
    exec .cli s = .next (retired 1 2 (s.setP (s.p &&& 0xFB))) ∧ exec .sei s = .next (retired 1 2 (s.setP (s.p ||| 0x04))) ∧
    exec .cld s = .next (retired 1 2 (s.setP (s.p &&& 0xF7))) ∧ exec .sed s = .next (retired 1 2 (s.setP (s.p ||| 0x08))) ∧
    exec .clv s = .next (retired 1 2 (s.setP (s.p &&& 0xBF)))

/-- 43_control_stack_flags R230 to R233: the pushes and the pulls. -/
def Obligations.StackComplete : Prop :=
  ∀ s : State,
    let m := s.ram.read (cell (s.sp + 1))
    let popped := (s.setSp (s.sp + 1)).latched m
    exec .pha s = .next (retired 1 3 (((s.setRam (s.ram.write (cell s.sp) s.a)).setSp (s.sp - 1)).latched s.a)) ∧
    exec .php s = .next (retired 1 3 (((s.setRam (s.ram.write (cell s.sp) (s.p ||| 0x30))).setSp (s.sp - 1)).latched
      (s.p ||| 0x30))) ∧
    exec .pla s = .next (retired 1 4 (withA popped m)) ∧
    exec .plp s = .next (retired 1 4 (popped.setP ((m &&& 0xEF) ||| 0x20)))

/-! ## Results and completion: undocumented instructions -/

/-- 44_undocumented R241 to R246: the read-modify-write combinations. -/
def Obligations.CombinationsComplete : Prop :=
  ∀ (o : Operand) (s t u v : State) (e : Resolved) (m : Byte), resolve o s = .ok e t → memRead e.ea t = .ok m u →
    let c := getFlag s.p .c
    let done (w : State) := Host.Outcome.next (retired o.mode.bytes (modifyCost o.mode) w)
    ((Instr.slo o).wf = true → memWrite e.ea (shiftValue .asl c m) u = .ok () v →
      ∃ q, Writes s.p q [(.c, shiftOut .asl m)] ∧
        exec (.slo o) s = done (withA (v.setP q) (s.a ||| shiftValue .asl c m))) ∧
    ((Instr.rla o).wf = true → memWrite e.ea (shiftValue .rol c m) u = .ok () v →
      ∃ q, Writes s.p q [(.c, shiftOut .rol m)] ∧
        exec (.rla o) s = done (withA (v.setP q) (s.a &&& shiftValue .rol c m))) ∧
    ((Instr.sre o).wf = true → memWrite e.ea (shiftValue .lsr c m) u = .ok () v →
      ∃ q, Writes s.p q [(.c, shiftOut .lsr m)] ∧
        exec (.sre o) s = done (withA (v.setP q) (s.a ^^^ shiftValue .lsr c m))) ∧
    ((Instr.rra o).wf = true → memWrite e.ea (shiftValue .ror c m) u = .ok () v →
      ∃ q w, Writes s.p q [(.c, shiftOut .ror m)] ∧ Added (v.setP q) (shiftValue .ror c m) w ∧
        exec (.rra o) s = done w) ∧
    ((Instr.dcp o).wf = true → memWrite e.ea (m - 1) u = .ok () v →
      ∃ w, Compared v s.a (m - 1) w ∧ exec (.dcp o) s = done w) ∧
    ((Instr.isc o).wf = true → memWrite e.ea (m + 1) u = .ok () v →
      ∃ w, Subtracted v (m + 1) w ∧ exec (.isc o) s = done w)

/-- 44_undocumented R249, R250, R251, R254: the immediate combinations. -/
def Obligations.ImmediatesComplete : Prop :=
  ∀ (b : Byte) (s : State),
    (∀ k, ∃ q, Writes s.p q [(.c, (s.a &&& b).getLsbD 7), (.n, (s.a &&& b).getLsbD 7), (.z, decide (s.a &&& b = 0))] ∧
      exec (.anc k b) s = .next (retired 2 2 ((s.setA (s.a &&& b)).setP q))) ∧
    (let r := BitVec.ofNat 8 ((s.a &&& b).toNat / 2)
      ∃ q, Writes s.p q [(.c, (s.a &&& b).getLsbD 0), (.n, false), (.z, decide (r = 0))] ∧
        exec (.alr b) s = .next (retired 2 2 ((s.setA r).setP q))) ∧
    (let r := BitVec.ofNat 8 ((s.a &&& b).toNat / 2 + 128 * bit (getFlag s.p .c))
      ∃ q, Writes s.p q [(.c, r.getLsbD 6), (.v, r.getLsbD 6 != r.getLsbD 5), (.n, r.getLsbD 7), (.z, decide (r = 0))] ∧
        exec (.arr b) s = .next (retired 2 2 ((s.setA r).setP q))) ∧
    (let r := (s.a &&& s.x) - b
      ∃ q, Writes s.p q [(.c, decide (b.toNat ≤ (s.a &&& s.x).toNat)), (.n, r.getLsbD 7), (.z, decide (r = 0))] ∧
        exec (.sbx b) s = .next (retired 2 2 ((s.setX r).setP q)))

/-- 44_undocumented R252, R253: ANE and LXA, where they are defined, with a fixed MAGIC and with one that is drawn (some
byte, whichever it is: assumption log 6). -/
def Obligations.MagicComplete : Prop :=
  ∀ (b : Byte) (s : State), s.cfg.unstablePolicy = .defined →
    (∀ k, s.cfg.magic = .fixed k →
      exec (.ane b) s = .next (retired 2 2 (withA s ((s.a ||| k) &&& s.x &&& b))) ∧
      exec (.lxa b) s = .next (retired 2 2 (withA (s.setX ((s.a ||| k) &&& b)) ((s.a ||| k) &&& b)))) ∧
    (s.cfg.magic = .draw → ∃ k : Byte,
      exec (.ane b) s = .next (retired 2 2 (withA (s.setDraws (s.draws + 1)) ((s.a ||| k) &&& s.x &&& b))) ∧
      exec (.lxa b) s =
        .next (retired 2 2 (withA ((s.setDraws (s.draws + 1)).setX ((s.a ||| k) &&& b)) ((s.a ||| k) &&& b))))

/-- 44_undocumented R256 to R260: the high-byte stores, where they are defined. The stored byte is and-ed with the high byte
of the base plus one, and is the high byte of the address when the index crosses a page. -/
def Obligations.HighStoresComplete : Prop :=
  ∀ (o : Operand) (s t u : State) (r : Resolved), s.cfg.unstablePolicy = .defined → resolve o s = .ok r t →
    let value (v : Byte) := v &&& (hi r.base + 1)
    let target (v : Byte) := if r.cross then word (value v) (lo r.ea) else r.ea
    ((Instr.sha o).wf = true → memWrite (target (s.a &&& s.x)) (value (s.a &&& s.x)) t = .ok () u →
      exec (.sha o) s = .next (retired o.mode.bytes (storeCost o.mode) u)) ∧
    (∀ w, o = .absoluteY w → memWrite (target (s.a &&& s.x)) (value (s.a &&& s.x)) (s.setSp (s.a &&& s.x)) = .ok () u →
      exec (.tas w) s = .next (retired 3 5 u)) ∧
    (∀ w, o = .absoluteX w → memWrite (target s.y) (value s.y) t = .ok () u →
      exec (.shy w) s = .next (retired 3 5 u)) ∧
    ∀ w, o = .absoluteY w → memWrite (target s.x) (value s.x) t = .ok () u → exec (.shx w) s = .next (retired 3 5 u)

/-- 43_control_stack_flags R236, 44_undocumented R262 to R268: the no-operations change nothing beyond their data read; JAM
is one under `JAM_POLICY = nop`. -/
def Obligations.NoOperationsComplete : Prop :=
  (∀ s : State, exec .nop s = .next (retired 1 2 s) ∧ (∀ k, exec (.nopImplied k) s = .next (retired 1 2 s)) ∧
    (∀ k b, exec (.nopImmediate k b) s = .next (retired 2 2 s)) ∧
    (s.cfg.jamPolicy = .nop → ∀ k, exec (.jam k) s = .next (retired 1 2 s))) ∧
  ∀ (o : Operand) (s t : State) (m : Byte) (cross : Bool), readOperand o s = .ok (m, cross) t →
    (∀ k b, o = .zeroPage b → exec (.nopZeroPage k b) s = .next (retired 2 3 t)) ∧
    (∀ k b, o = .zeroPageX b → exec (.nopZeroPageX k b) s = .next (retired 2 4 t)) ∧
    (∀ w, o = .absolute w → exec (.nopAbsolute w) s = .next (retired 3 4 t)) ∧
    ∀ k w, o = .absoluteX w → exec (.nopAbsoluteX k w) s = .next (retired 3 (if cross then 5 else 4) t)

/-! ## Where an instruction stops -/

/-- 30_encoding R126: under `JAM_POLICY = stuck` the step that fetches a JAM opcode has no outcome, the state is the one
before it, and no run goes past it. -/
def Obligations.StuckJam : Prop :=
  ∀ (s t : State) (opc : Byte), s.run = .running → s.video.nmiPending = false → s.cfg.jamPolicy = .stuck →
    memRead s.pc s = .ok opc t →
    opc ∈ [0x02, 0x12, 0x22, 0x32, 0x42, 0x52, 0x62, 0x72, 0x92, 0xB2, 0xD2, 0xF2] →
    step s = .fault (.stuck s) ∧ ∀ n, runMachine (n + 1) s = .stuck s

/-- 30_encoding R108, R125, 10_state R43: under `UNSTABLE_POLICY = refuse` the seven opcodes are refused right after their
fetch; a refused state is never left; under `defined` no step is refused. -/
def Obligations.RefusedUnstable : Prop :=
  (∀ (s t : State) (opc : Byte), s.run = .running → s.video.nmiPending = false → s.cfg.unstablePolicy = .refuse →
    memRead s.pc s = .ok opc t → opc ∈ [0x8B, 0xAB, 0x93, 0x9F, 0x9B, 0x9E, 0x9C] →
    step s = .refused (.unstableOpcode ((t.setPc (s.pc + 1)).setRun (.refused s.pc opc)))) ∧
  (∀ (s : State) (a : Word) (opc : Byte), s.run = .refused a opc → ∀ t, step s ≠ .next t) ∧
  ∀ s : State, s.cfg.unstablePolicy = .defined → ∀ f, step s ≠ .refused f

/-- 60_exceptions R282, R283: a fault ends the step at the failing access, and its record is of the registers as they stand.
In turn: a fault of a well-formed instruction, with PC at op_addr + 1 and nothing stored (the other way to stop is JAM under
`stuck`); an instruction whose data access fails faults with that access's fault: a read, a store, the read and the write of
a read-modify-write (a documented shift has written C by then, the others no flag: assumption log 11), a high-byte store, and
the two reads of JMP indirect; a fault of the opcode fetch, which changes nothing but the run state; of an operand fetch,
which keeps what the earlier reads did; and of any running step, which charges no cycle and lets no dot pass. -/
def Obligations.PreciseFaults : Prop :=
  (∀ (i : Instr) (s : State) (f : Fault), i.wf = true → exec i s = .fault f →
    (s.cfg.jamPolicy = .stuck ∧ f = .stuck s ∧ ∃ k, i = .jam k) ∨
    ∃ info opc t, f = .invalidAddress info t ∧ opcodeOf i = some opc ∧ Records info (s.pc - 1) (some opc) t ∧
      t.pc = s.pc ∧ Uncharged s t ∧ ((footprint i).sp = false → t.sp = s.sp) ∧
      ∀ g, g ∉ (footprint i).flags → getFlag t.p g = getFlag s.p g) ∧
  (∀ (i : Instr) (o : Operand) (s u : State) (info : AddressFault), i.wf = true → Reads i o →
    readOperand o s = .fail (.invalidAddress info) u → FaultsIn i s info u) ∧
  (∀ (i : Instr) (o : Operand) (v : Byte) (s t u : State) (e : Resolved) (info : AddressFault), i.wf = true →
    (i, v) ∈ stored o s → resolve o s = .ok e t → memWrite e.ea v t = .fail (.invalidAddress info) u → FaultsIn i s info u) ∧
  (∀ (i : Instr) (o : Operand) (s t u : State) (e : Resolved) (info : AddressFault), i.wf = true → Modifies i o →
    resolve o s = .ok e t → memRead e.ea t = .fail (.invalidAddress info) u → FaultsIn i s info u) ∧
  (∀ (i : Instr) (o : Operand) (m r : Byte) (s t u v : State) (e : Resolved) (info : AddressFault), i.wf = true →
    (i, r) ∈ rewritten o (getFlag s.p .c) m → resolve o s = .ok e t → memRead e.ea t = .ok m u →
    memWrite e.ea r u = .fail (.invalidAddress info) v → FaultsIn i s info v) ∧
  (∀ (k : ShiftKind) (o : Operand) (m : Byte) (s t u v : State) (e : Resolved) (info : AddressFault),
    (shiftInstr k o).wf = true → resolve o s = .ok e t → memRead e.ea t = .ok m u →
    memWrite e.ea (shiftValue k (getFlag s.p .c) m) u = .fail (.invalidAddress info) v →
    ∃ q, Writes s.p q [(.c, shiftOut k m)] ∧ FaultsIn (shiftInstr k o) s info (v.setP q)) ∧
  (∀ (o : Operand) (s t u : State) (e : Resolved) (info : AddressFault), s.cfg.unstablePolicy = .defined →
    resolve o s = .ok e t →
    let value (v : Byte) := v &&& (hi e.base + 1)
    let fails (v : Byte) (w : State) :=
      memWrite (if e.cross then word (value v) (lo e.ea) else e.ea) (value v) w = .fail (.invalidAddress info) u
    ((Instr.sha o).wf = true → fails (s.a &&& s.x) t → FaultsIn (.sha o) s info u) ∧
    (∀ w, o = .absoluteY w → fails (s.a &&& s.x) (s.setSp (s.a &&& s.x)) → FaultsIn (.tas w) s info u) ∧
    (∀ w, o = .absoluteX w → fails s.y t → FaultsIn (.shy w) s info u) ∧
    ∀ w, o = .absoluteY w → fails s.x t → FaultsIn (.shx w) s info u) ∧
  (∀ (ptr : Word) (s u : State) (info : AddressFault),
    memRead ptr s = .fail (.invalidAddress info) u → FaultsIn (.jmpIndirect ptr) s info u) ∧
  (∀ (ptr : Word) (l : Byte) (s t u : State) (info : AddressFault), memRead ptr s = .ok l t →
    memRead (BitVec.ofNat 16 (ptr.toNat / 256 * 256 + (ptr.toNat + 1) % 256)) t = .fail (.invalidAddress info) u →
    FaultsIn (.jmpIndirect ptr) s info u) ∧
  (∀ (s t : State) (k : FaultKind), s.run = .running → s.video.nmiPending = false → memRead s.pc s = .fail k t →
    ∃ info u, k = .invalidAddress info ∧ step s = .fault (.invalidAddress info u) ∧ Records info s.pc none u ∧
      u = s.setRun u.run) ∧
  (∀ (s t u : State) (opc : Byte) (r : Row) (k : FaultKind), s.run = .running → s.video.nmiPending = false →
    memRead s.pc s = .ok opc t → recordOf opc = some r →
    ¬(s.cfg.jamPolicy = .stuck ∧ opc ∈ jamOpcodes) → ¬(s.cfg.unstablePolicy = .refuse ∧ opc ∈ unstableOpcodes) →
    readBytes r.mode.operandBytes (s.pc + 1) (t.setPc (s.pc + 1)) = .fail k u →
    ∃ info v, k = .invalidAddress info ∧ step s = .fault (.invalidAddress info v) ∧ Records info s.pc (some opc) v ∧
      v = u.setRun v.run ∧ v.pc = s.pc + 1 ∧ v.sp = s.sp ∧ v.p = s.p ∧ Uncharged s v) ∧
  ∀ (s : State) (f : Fault), s.run = .running → step s = .fault f →
    (s.cfg.jamPolicy = .stuck ∧ f = .stuck s) ∨
    ∃ info opc t, f = .invalidAddress info t ∧ Records info s.pc opc t ∧
      t.pc = (if opc = none then s.pc else s.pc + 1) ∧ Uncharged s t

/-- 30_encoding R104, R106, R107, 10_state R38: no step answers `UnsupportedOpcode` or `AddressingModeUnsupported`, the
only refusal is that of an unstable opcode (R108), and no step changes the cartridge or the parameters. -/
def Obligations.StepOutcomes : Prop :=
  (∀ s t : State, step s ≠ .fault (.unsupportedOpcode t) ∧ step s ≠ .fault (.addressingModeUnsupported t)) ∧
  (∀ (s : State) (r : Refusal), step s = .refused r → ∃ t, r = .unstableOpcode t) ∧
  ∀ s t : State, step s = .next t → t.cart = s.cart ∧ t.cfg = s.cfg

/-! ## Laws -/

/-- 41_arith_logic R176: ADC then SBC of the same byte, with C = c1 before the one and C = c2 before the other. -/
def Obligations.AddSubtractLaw : Prop :=
  ∀ (o1 o2 : Operand) (s s1 t w w1 u : State) (m : Byte) (x1 x2 : Bool),
    readOperand o1 s = .ok (m, x1) s1 → exec (.adc o1) s = .next t →
    w.a = t.a → readOperand o2 w = .ok (m, x2) w1 → exec (.sbc o2) w = .next u →
    u.a = BitVec.ofInt 8 (s.a.toNat + bit (getFlag s.p .c) + bit (getFlag w.p .c) - 1) ∧
    (u.a = s.a ↔ bit (getFlag s.p .c) + bit (getFlag w.p .c) = 1)

/-- 42_shift_rotate R195: nine rotations return A and C to their start; ASL is ROL and LSR is ROR with C = 0, in result and
flags; every form writes C, N and Z and nothing else of P. -/
def Obligations.ShiftLaws : Prop :=
  (∀ s : State, ∃ t u, times (.rol .accumulator) 9 s = .next t ∧ times (.ror .accumulator) 9 s = .next u ∧
    t.a = s.a ∧ getFlag t.p .c = getFlag s.p .c ∧ u.a = s.a ∧ getFlag u.p .c = getFlag s.p .c) ∧
  (∀ (o : Operand) (s t : State), getFlag s.p .c = false →
    (exec (.asl o) s = .next t ↔ exec (.rol o) s = .next t) ∧ (exec (.lsr o) s = .next t ↔ exec (.ror o) s = .next t)) ∧
  ∀ (k : ShiftKind) (o : Operand) (s t : State), exec (shiftInstr k o) s = .next t →
    ∀ f, f ∉ [Flag.c, .n, .z] → getFlag t.p f = getFlag s.p f

/-- 43_control_stack_flags R217, R234: JSR and a later RTS that finds SP and the two stacked bytes return past the JSR; PHA
then PLA returns the byte, PHP then PLP returns P with U = 1 and B = 0, and SP as before. -/
def Obligations.SubroutineAndStackLaws : Prop :=
  ∀ s : State, s.ram.wf = true →
    (∀ w, ∃ t, exec (.jsr w) s = .next t ∧
      ∀ u : State, u.sp = t.sp → u.ram.read (cell s.sp) = t.ram.read (cell s.sp) →
        u.ram.read (cell (s.sp - 1)) = t.ram.read (cell (s.sp - 1)) →
        ∃ v, exec .rts u = .next v ∧ v.pc = s.pc + 2 ∧ v.sp = s.sp) ∧
    (∃ t, exec .pha s = .next t ∧
      ∀ u : State, u.sp = t.sp → u.ram = t.ram → ∃ v, exec .pla u = .next v ∧ v.a = s.a ∧ v.sp = s.sp) ∧
    ∃ t, exec .php s = .next t ∧
      ∀ u : State, u.sp = t.sp → u.ram = t.ram →
        ∃ v, exec .plp u = .next v ∧ v.p = (s.p ||| 0x20) &&& 0xEF ∧ v.sp = s.sp

/-! ## Frames, for every instruction -/

/-- 10_state R20, R35: an instruction writes no register and no flag that the tables do not name for it, nor the cartridge,
the parameters or (but for the halt) the run state. -/
def Obligations.RegisterFrame : Prop :=
  ∀ (i : Instr) (s t : State), exec i s = .next t →
    ((footprint i).a = false → t.a = s.a) ∧ ((footprint i).x = false → t.x = s.x) ∧
    ((footprint i).y = false → t.y = s.y) ∧ ((footprint i).sp = false → t.sp = s.sp) ∧
    (∀ f, f ∉ (footprint i).flags → getFlag t.p f = getFlag s.p f) ∧
    t.cart = s.cart ∧ t.cfg = s.cfg ∧ (i ≠ .brk → t.run = s.run)

/-- 20_memory R86, 60_exceptions R305: every byte of RAM and program ROM reads as before except where the instruction stores,
and LATCH is kept under the default policy. An instruction that accesses no port leaves the video unit as its cycles alone
make it; one that stores to neither port 4 nor port 7 leaves VRAM, PALETTE and OAM. -/
def Obligations.MemoryFrame : Prop :=
  ∀ (i : Instr) (s t : State), exec i s = .next t →
    (∀ a, (∀ b ∈ stores i s, regionOf b ≠ regionOf a) → peek t a = peek s a) ∧
    ((∀ b ∈ loads i s ++ stores i s, ∀ p, regionOf b ≠ .port p) → t.video = s.video.tick (3 * (t.cycles - s.cycles))) ∧
    ((∀ b ∈ stores i s, regionOf b ≠ .port .oamData ∧ regionOf b ≠ .port .data) →
      t.video.vram = s.video.vram ∧ t.video.palette = s.video.palette ∧ t.video.oam = s.video.oam) ∧
    (s.cfg.busPolicy = .fault → t.latch = s.latch)

/-- 30_encoding R123, R124, 43_control_stack_flags R211, 70_reset_and_hazards R362: an instruction costs 2 to 8 cycles, the
halt none; PC moves past the operand bytes unless the instruction is a jump, JSR, RTS, RTI or a branch. -/
def Obligations.CostAndAdvance : Prop :=
  ∀ (i : Instr) (s t : State), exec i s = .next t →
    (i = .brk ∧ t.cycles = s.cycles ∧ t.pc = s.pc) ∨
    (i ≠ .brk ∧ s.cycles + 2 ≤ t.cycles ∧ t.cycles ≤ s.cycles + 8 ∧
      ((footprint i).transfers = false → t.pc = s.pc + BitVec.ofNat 16 i.operand.mode.operandBytes))

/-- 10_state R29 to R32: I, D, B and U change nothing. An instruction other than PHP that completes from a state completes
from the state with that flag changed, and the two ends differ at most in that flag. -/
def Obligations.InertFlags : Prop :=
  ∀ (i : Instr) (s t : State) (f : Flag) (v : Bool), f = .i ∨ f = .d ∨ f = .b ∨ f = .u → i ≠ .php →
    exec i s = .next t →
    ∃ q, exec i (s.setP (setFlag s.p f v)) = .next (t.setP q) ∧ ∀ g, g ≠ f → getFlag q g = getFlag t.p g
end

