-- ==== Sys2Proof/Laws/PerInstr.lean ====
section
/-! SUPPORT. One lemma per constructor of Instr about its encoding: the Encoding line of the instruction's rule (files 40 to
44) and the opcode map (30_encoding R129) agree on it. -/

namespace Sys2Proof.Laws.Encodes

/-- A well-formed instruction has an opcode; the record of that opcode has the mode of its operand and a cost of 2 to 8
cycles, and builds it back from its operand. An instruction that is not well formed has no opcode. -/
def Statement (i : Instr) : Prop :=
  (i.wf = true → ∃ opc r, opcodeOf i = some opc ∧ recordOf opc = some r ∧ r.mode = i.operand.mode ∧
    r.make i.operand = i ∧ 2 ≤ r.cycles ∧ r.cycles ≤ 8) ∧
  (i.wf = false → opcodeOf i = none)

/-- An instruction with one fixed mode. -/
theorem fixed {i : Instr} {opc : Byte} {r : Row} (h1 : opcodeOf i = some opc) (h2 : recordOf opc = some r)
    (h3 : r.mode = i.operand.mode) (h4 : r.make i.operand = i) (h5 : 2 ≤ r.cycles) (h6 : r.cycles ≤ 8)
    (h7 : i.wf = true) : Statement i :=
  ⟨fun _ => ⟨opc, r, h1, h2, h3, h4, h5, h6⟩, fun h => by rw [h7] at h; cases h⟩

/-- An operand form without a row. -/
theorem absent {i : Instr} (h1 : opcodeOf i = none) (h2 : i.wf = false) : Statement i :=
  ⟨fun h => absurd h (by simp [h2]), fun _ => h1⟩

theorem lda (o : Operand) : Statement (.lda o) := by
  cases o <;> first | exact fixed rfl rfl rfl rfl (by decide) (by decide) rfl | exact absent rfl rfl
theorem ldx (o : Operand) : Statement (.ldx o) := by
  cases o <;> first | exact fixed rfl rfl rfl rfl (by decide) (by decide) rfl | exact absent rfl rfl
theorem ldy (o : Operand) : Statement (.ldy o) := by
  cases o <;> first | exact fixed rfl rfl rfl rfl (by decide) (by decide) rfl | exact absent rfl rfl
theorem sta (o : Operand) : Statement (.sta o) := by
  cases o <;> first | exact fixed rfl rfl rfl rfl (by decide) (by decide) rfl | exact absent rfl rfl
theorem stx (o : Operand) : Statement (.stx o) := by
  cases o <;> first | exact fixed rfl rfl rfl rfl (by decide) (by decide) rfl | exact absent rfl rfl
theorem sty (o : Operand) : Statement (.sty o) := by
  cases o <;> first | exact fixed rfl rfl rfl rfl (by decide) (by decide) rfl | exact absent rfl rfl
theorem tax : Statement .tax := fixed rfl rfl rfl rfl (by decide) (by decide) rfl
theorem tay : Statement .tay := fixed rfl rfl rfl rfl (by decide) (by decide) rfl
theorem txa : Statement .txa := fixed rfl rfl rfl rfl (by decide) (by decide) rfl
theorem tya : Statement .tya := fixed rfl rfl rfl rfl (by decide) (by decide) rfl
theorem tsx : Statement .tsx := fixed rfl rfl rfl rfl (by decide) (by decide) rfl
theorem txs : Statement .txs := fixed rfl rfl rfl rfl (by decide) (by decide) rfl
theorem adc (o : Operand) : Statement (.adc o) := by
  cases o <;> first | exact fixed rfl rfl rfl rfl (by decide) (by decide) rfl | exact absent rfl rfl
theorem sbc (o : Operand) : Statement (.sbc o) := by
  cases o <;> first | exact fixed rfl rfl rfl rfl (by decide) (by decide) rfl | exact absent rfl rfl
theorem and (o : Operand) : Statement (.and o) := by
  cases o <;> first | exact fixed rfl rfl rfl rfl (by decide) (by decide) rfl | exact absent rfl rfl
theorem ora (o : Operand) : Statement (.ora o) := by
  cases o <;> first | exact fixed rfl rfl rfl rfl (by decide) (by decide) rfl | exact absent rfl rfl
theorem eor (o : Operand) : Statement (.eor o) := by
  cases o <;> first | exact fixed rfl rfl rfl rfl (by decide) (by decide) rfl | exact absent rfl rfl
theorem cmp (o : Operand) : Statement (.cmp o) := by
  cases o <;> first | exact fixed rfl rfl rfl rfl (by decide) (by decide) rfl | exact absent rfl rfl
theorem cpx (o : Operand) : Statement (.cpx o) := by
  cases o <;> first | exact fixed rfl rfl rfl rfl (by decide) (by decide) rfl | exact absent rfl rfl
theorem cpy (o : Operand) : Statement (.cpy o) := by
  cases o <;> first | exact fixed rfl rfl rfl rfl (by decide) (by decide) rfl | exact absent rfl rfl
theorem bit (o : Operand) : Statement (.bit o) := by
  cases o <;> first | exact fixed rfl rfl rfl rfl (by decide) (by decide) rfl | exact absent rfl rfl
theorem inc (o : Operand) : Statement (.inc o) := by
  cases o <;> first | exact fixed rfl rfl rfl rfl (by decide) (by decide) rfl | exact absent rfl rfl
theorem dec (o : Operand) : Statement (.dec o) := by
  cases o <;> first | exact fixed rfl rfl rfl rfl (by decide) (by decide) rfl | exact absent rfl rfl
theorem inx : Statement .inx := fixed rfl rfl rfl rfl (by decide) (by decide) rfl
theorem iny : Statement .iny := fixed rfl rfl rfl rfl (by decide) (by decide) rfl
theorem dex : Statement .dex := fixed rfl rfl rfl rfl (by decide) (by decide) rfl
theorem dey : Statement .dey := fixed rfl rfl rfl rfl (by decide) (by decide) rfl
theorem asl (o : Operand) : Statement (.asl o) := by
  cases o <;> first | exact fixed rfl rfl rfl rfl (by decide) (by decide) rfl | exact absent rfl rfl
theorem lsr (o : Operand) : Statement (.lsr o) := by
  cases o <;> first | exact fixed rfl rfl rfl rfl (by decide) (by decide) rfl | exact absent rfl rfl
theorem rol (o : Operand) : Statement (.rol o) := by
  cases o <;> first | exact fixed rfl rfl rfl rfl (by decide) (by decide) rfl | exact absent rfl rfl
theorem ror (o : Operand) : Statement (.ror o) := by
  cases o <;> first | exact fixed rfl rfl rfl rfl (by decide) (by decide) rfl | exact absent rfl rfl
theorem bpl (disp : Byte) : Statement (.bpl disp) := fixed rfl rfl rfl rfl (by decide) (by decide) rfl
theorem bmi (disp : Byte) : Statement (.bmi disp) := fixed rfl rfl rfl rfl (by decide) (by decide) rfl
theorem bvc (disp : Byte) : Statement (.bvc disp) := fixed rfl rfl rfl rfl (by decide) (by decide) rfl
theorem bvs (disp : Byte) : Statement (.bvs disp) := fixed rfl rfl rfl rfl (by decide) (by decide) rfl
theorem bcc (disp : Byte) : Statement (.bcc disp) := fixed rfl rfl rfl rfl (by decide) (by decide) rfl
theorem bcs (disp : Byte) : Statement (.bcs disp) := fixed rfl rfl rfl rfl (by decide) (by decide) rfl
theorem bne (disp : Byte) : Statement (.bne disp) := fixed rfl rfl rfl rfl (by decide) (by decide) rfl
theorem beq (disp : Byte) : Statement (.beq disp) := fixed rfl rfl rfl rfl (by decide) (by decide) rfl
theorem jmpAbsolute (target : Word) : Statement (.jmpAbsolute target) := fixed rfl rfl rfl rfl (by decide) (by decide) rfl
theorem jmpIndirect (ptr : Word) : Statement (.jmpIndirect ptr) := fixed rfl rfl rfl rfl (by decide) (by decide) rfl
theorem jsr (target : Word) : Statement (.jsr target) := fixed rfl rfl rfl rfl (by decide) (by decide) rfl
theorem rts : Statement .rts := fixed rfl rfl rfl rfl (by decide) (by decide) rfl
theorem rti : Statement .rti := fixed rfl rfl rfl rfl (by decide) (by decide) rfl
theorem brk : Statement .brk := fixed rfl rfl rfl rfl (by decide) (by decide) rfl
theorem clc : Statement .clc := fixed rfl rfl rfl rfl (by decide) (by decide) rfl
theorem sec : Statement .sec := fixed rfl rfl rfl rfl (by decide) (by decide) rfl
theorem cli : Statement .cli := fixed rfl rfl rfl rfl (by decide) (by decide) rfl
theorem sei : Statement .sei := fixed rfl rfl rfl rfl (by decide) (by decide) rfl
theorem cld : Statement .cld := fixed rfl rfl rfl rfl (by decide) (by decide) rfl
theorem sed : Statement .sed := fixed rfl rfl rfl rfl (by decide) (by decide) rfl
theorem clv : Statement .clv := fixed rfl rfl rfl rfl (by decide) (by decide) rfl
theorem pha : Statement .pha := fixed rfl rfl rfl rfl (by decide) (by decide) rfl
theorem php : Statement .php := fixed rfl rfl rfl rfl (by decide) (by decide) rfl
theorem pla : Statement .pla := fixed rfl rfl rfl rfl (by decide) (by decide) rfl
theorem plp : Statement .plp := fixed rfl rfl rfl rfl (by decide) (by decide) rfl
theorem nop : Statement .nop := fixed rfl rfl rfl rfl (by decide) (by decide) rfl
theorem slo (o : Operand) : Statement (.slo o) := by
  cases o <;> first | exact fixed rfl rfl rfl rfl (by decide) (by decide) rfl | exact absent rfl rfl
theorem rla (o : Operand) : Statement (.rla o) := by
  cases o <;> first | exact fixed rfl rfl rfl rfl (by decide) (by decide) rfl | exact absent rfl rfl
theorem sre (o : Operand) : Statement (.sre o) := by
  cases o <;> first | exact fixed rfl rfl rfl rfl (by decide) (by decide) rfl | exact absent rfl rfl
theorem rra (o : Operand) : Statement (.rra o) := by
  cases o <;> first | exact fixed rfl rfl rfl rfl (by decide) (by decide) rfl | exact absent rfl rfl
theorem dcp (o : Operand) : Statement (.dcp o) := by
  cases o <;> first | exact fixed rfl rfl rfl rfl (by decide) (by decide) rfl | exact absent rfl rfl
theorem isc (o : Operand) : Statement (.isc o) := by
  cases o <;> first | exact fixed rfl rfl rfl rfl (by decide) (by decide) rfl | exact absent rfl rfl
theorem sax (o : Operand) : Statement (.sax o) := by
  cases o <;> first | exact fixed rfl rfl rfl rfl (by decide) (by decide) rfl | exact absent rfl rfl
theorem lax (o : Operand) : Statement (.lax o) := by
  cases o <;> first | exact fixed rfl rfl rfl rfl (by decide) (by decide) rfl | exact absent rfl rfl
theorem anc (k : Fin 2) (imm : Byte) : Statement (.anc k imm) := by
  fin_cases k <;> exact fixed rfl rfl rfl rfl (by decide) (by decide) rfl
theorem alr (imm : Byte) : Statement (.alr imm) := fixed rfl rfl rfl rfl (by decide) (by decide) rfl
theorem arr (imm : Byte) : Statement (.arr imm) := fixed rfl rfl rfl rfl (by decide) (by decide) rfl
theorem ane (imm : Byte) : Statement (.ane imm) := fixed rfl rfl rfl rfl (by decide) (by decide) rfl
theorem lxa (imm : Byte) : Statement (.lxa imm) := fixed rfl rfl rfl rfl (by decide) (by decide) rfl
theorem sbx (imm : Byte) : Statement (.sbx imm) := fixed rfl rfl rfl rfl (by decide) (by decide) rfl
theorem usbc (imm : Byte) : Statement (.usbc imm) := fixed rfl rfl rfl rfl (by decide) (by decide) rfl
theorem sha (o : Operand) : Statement (.sha o) := by
  cases o <;> first | exact fixed rfl rfl rfl rfl (by decide) (by decide) rfl | exact absent rfl rfl
theorem tas (base : Word) : Statement (.tas base) := fixed rfl rfl rfl rfl (by decide) (by decide) rfl
theorem shy (base : Word) : Statement (.shy base) := fixed rfl rfl rfl rfl (by decide) (by decide) rfl
theorem shx (base : Word) : Statement (.shx base) := fixed rfl rfl rfl rfl (by decide) (by decide) rfl
theorem las (base : Word) : Statement (.las base) := fixed rfl rfl rfl rfl (by decide) (by decide) rfl
theorem nopImplied (k : Fin 6) : Statement (.nopImplied k) := by
  fin_cases k <;> exact fixed rfl rfl rfl rfl (by decide) (by decide) rfl
theorem nopImmediate (k : Fin 5) (imm : Byte) : Statement (.nopImmediate k imm) := by
  fin_cases k <;> exact fixed rfl rfl rfl rfl (by decide) (by decide) rfl
theorem nopZeroPage (k : Fin 3) (b : Byte) : Statement (.nopZeroPage k b) := by
  fin_cases k <;> exact fixed rfl rfl rfl rfl (by decide) (by decide) rfl
theorem nopZeroPageX (k : Fin 6) (b : Byte) : Statement (.nopZeroPageX k b) := by
  fin_cases k <;> exact fixed rfl rfl rfl rfl (by decide) (by decide) rfl
theorem nopAbsolute (w : Word) : Statement (.nopAbsolute w) := fixed rfl rfl rfl rfl (by decide) (by decide) rfl
theorem nopAbsoluteX (k : Fin 6) (w : Word) : Statement (.nopAbsoluteX k w) := by
  fin_cases k <;> exact fixed rfl rfl rfl rfl (by decide) (by decide) rfl
theorem jam (k : Fin 12) : Statement (.jam k) := by
  fin_cases k <;> exact fixed rfl rfl rfl rfl (by decide) (by decide) rfl

end Sys2Proof.Laws.Encodes
end

