-- ==== Sys2Proof/Laws/Encode.lean ====
section
/-! SUPPORT. The encoding of every instruction, and operands as bytes. -/

namespace Sys2Proof.Laws

/-- The statement of Laws/PerInstr.lean, for any instruction. -/
theorem encodes (i : Instr) : Encodes.Statement i := by
  cases i with
  | lda o => exact Encodes.lda o
  | ldx o => exact Encodes.ldx o
  | ldy o => exact Encodes.ldy o
  | sta o => exact Encodes.sta o
  | stx o => exact Encodes.stx o
  | sty o => exact Encodes.sty o
  | tax => exact Encodes.tax
  | tay => exact Encodes.tay
  | txa => exact Encodes.txa
  | tya => exact Encodes.tya
  | tsx => exact Encodes.tsx
  | txs => exact Encodes.txs
  | adc o => exact Encodes.adc o
  | sbc o => exact Encodes.sbc o
  | and o => exact Encodes.and o
  | ora o => exact Encodes.ora o
  | eor o => exact Encodes.eor o
  | cmp o => exact Encodes.cmp o
  | cpx o => exact Encodes.cpx o
  | cpy o => exact Encodes.cpy o
  | bit o => exact Encodes.bit o
  | inc o => exact Encodes.inc o
  | dec o => exact Encodes.dec o
  | inx => exact Encodes.inx
  | iny => exact Encodes.iny
  | dex => exact Encodes.dex
  | dey => exact Encodes.dey
  | asl o => exact Encodes.asl o
  | lsr o => exact Encodes.lsr o
  | rol o => exact Encodes.rol o
  | ror o => exact Encodes.ror o
  | bpl disp => exact Encodes.bpl disp
  | bmi disp => exact Encodes.bmi disp
  | bvc disp => exact Encodes.bvc disp
  | bvs disp => exact Encodes.bvs disp
  | bcc disp => exact Encodes.bcc disp
  | bcs disp => exact Encodes.bcs disp
  | bne disp => exact Encodes.bne disp
  | beq disp => exact Encodes.beq disp
  | jmpAbsolute target => exact Encodes.jmpAbsolute target
  | jmpIndirect ptr => exact Encodes.jmpIndirect ptr
  | jsr target => exact Encodes.jsr target
  | rts => exact Encodes.rts
  | rti => exact Encodes.rti
  | brk => exact Encodes.brk
  | clc => exact Encodes.clc
  | sec => exact Encodes.sec
  | cli => exact Encodes.cli
  | sei => exact Encodes.sei
  | cld => exact Encodes.cld
  | sed => exact Encodes.sed
  | clv => exact Encodes.clv
  | pha => exact Encodes.pha
  | php => exact Encodes.php
  | pla => exact Encodes.pla
  | plp => exact Encodes.plp
  | nop => exact Encodes.nop
  | slo o => exact Encodes.slo o
  | rla o => exact Encodes.rla o
  | sre o => exact Encodes.sre o
  | rra o => exact Encodes.rra o
  | dcp o => exact Encodes.dcp o
  | isc o => exact Encodes.isc o
  | sax o => exact Encodes.sax o
  | lax o => exact Encodes.lax o
  | anc k imm => exact Encodes.anc k imm
  | alr imm => exact Encodes.alr imm
  | arr imm => exact Encodes.arr imm
  | ane imm => exact Encodes.ane imm
  | lxa imm => exact Encodes.lxa imm
  | sbx imm => exact Encodes.sbx imm
  | usbc imm => exact Encodes.usbc imm
  | sha o => exact Encodes.sha o
  | tas base => exact Encodes.tas base
  | shy base => exact Encodes.shy base
  | shx base => exact Encodes.shx base
  | las base => exact Encodes.las base
  | nopImplied k => exact Encodes.nopImplied k
  | nopImmediate k imm => exact Encodes.nopImmediate k imm
  | nopZeroPage k b => exact Encodes.nopZeroPage k b
  | nopZeroPageX k b => exact Encodes.nopZeroPageX k b
  | nopAbsolute w => exact Encodes.nopAbsolute w
  | nopAbsoluteX k w => exact Encodes.nopAbsoluteX k w
  | jam k => exact Encodes.jam k

end Sys2Proof.Laws

namespace Sys2Proof

theorem word_hi_lo (w : Word) : word (hi w) (lo w) = w := by
  unfold word hi lo
  apply BitVec.eq_of_getLsbD_eq
  intro i h
  simp only [BitVec.getLsbD_append, BitVec.getLsbD_extractLsb']
  by_cases h8 : i < 8
  · simp [h8]
  · simp [h8, show 8 + (i - 8) = i by omega, show i - 8 < 8 by omega]

@[simp] theorem hi_word (h l : Byte) : hi (word h l) = h := by
  unfold word hi
  apply BitVec.eq_of_getLsbD_eq
  intro i h8
  rw [BitVec.getLsbD_extractLsb', BitVec.getLsbD_append]
  simp [h8]

@[simp] theorem lo_word (h l : Byte) : lo (word h l) = l := by
  unfold word lo
  apply BitVec.eq_of_getLsbD_eq
  intro i h8
  rw [BitVec.getLsbD_extractLsb', BitVec.getLsbD_append]
  simp [h8]

/-- 30_encoding R100, R101: the operand bytes read back as the operand. -/
theorem operandOf_bytes (o : Operand) (rest : List Byte) : operandOf o.mode (o.bytes ++ rest) = some (o, rest) := by
  cases o <;> simp [operandOf, Operand.mode, Operand.bytes, word_hi_lo]

/-- 30_encoding R100: an operand has as many bytes as its mode says. -/
theorem Operand.bytes_length (o : Operand) : o.bytes.length = o.mode.operandBytes := by cases o <;> rfl

/-- The operand read from bytes has the mode that was asked, and its bytes are the ones read. -/
theorem operandOf_some {m : Mode} {bs rest : List Byte} {o : Operand} (h : operandOf m bs = some (o, rest)) :
    o.mode = m ∧ bs = o.bytes ++ rest := by
  unfold operandOf at h
  split at h <;> cases h <;> simp [Operand.mode, Operand.bytes]

theorem opcodeTable_length : opcodeTable.length = 256 := by
  simp only [opcodeTable, List.length_append]; rfl

/-- 30_encoding R103: every byte has a record. -/
theorem recordOf_total (opc : Byte) : ∃ r, recordOf opc = some r := by
  have h : opc.toNat < opcodeTable.length := by rw [opcodeTable_length]; exact opc.isLt
  exact ⟨opcodeTable[opc.toNat], List.getElem?_eq_getElem h⟩

namespace Machine

/-- A well-formed instruction has a row, whose mode is that of its operand. -/
theorem rowOf_wf {i : Instr} (h : i.wf = true) :
    ∃ opc r, rowOf i = some (opc, r) ∧ r.mode = i.operand.mode ∧ 2 ≤ r.cycles ∧ r.cycles ≤ 8 := by
  obtain ⟨opc, r, h1, h2, h3, -, h5, h6⟩ := (Laws.encodes i).1 h
  exact ⟨opc, r, by simp [rowOf, h1, h2], h3, h5, h6⟩

/-- An instruction that has a row is well formed. -/
theorem wf_of_rowOf {i : Instr} {c : Byte × Row} (h : rowOf i = some c) : i.wf = true := by
  cases hw : i.wf
  · simp [rowOf, (Laws.encodes i).2 hw] at h
  · rfl

/-- A row in hand is the row of Laws/PerInstr.lean. -/
theorem rowOf_some {i : Instr} {opc : Byte} {r : Row} (h : rowOf i = some (opc, r)) :
    opcodeOf i = some opc ∧ recordOf opc = some r ∧ r.mode = i.operand.mode ∧ 2 ≤ r.cycles ∧ r.cycles ≤ 8 := by
  obtain ⟨opc', r', h1, h2, h3, -, h5, h6⟩ := (Laws.encodes i).1 (wf_of_rowOf h)
  have : rowOf i = some (opc', r') := by simp [rowOf, h1, h2]
  rw [this] at h; cases h
  exact ⟨h1, h2, h3, h5, h6⟩

end Machine

end Sys2Proof
end

