-- ==== Sys2Proof/Laws/Flags.lean ====
section
/-! SUPPORT. What the flag operations do to each flag of P. -/

namespace Sys2Proof.Machine

theorem Flag.index_lt (f : Flag) : f.index < 8 := by cases f <;> decide

/-- The mask of a flag holds that flag's bit alone. -/
theorem Flag.mask_bit (f g : Flag) : f.mask.getLsbD g.index = decide (g = f) := by
  cases f <;> cases g <;> decide

/-- `P.f <- v` writes that flag and keeps every other. -/
theorem getFlag_setFlag (p : Byte) (f g : Flag) (v : Bool) :
    getFlag (setFlag p f v) g = if g = f then v else getFlag p g := by
  have hi := g.index_lt
  have hm := Flag.mask_bit f g
  unfold getFlag setFlag
  cases v
  · simp only [Bool.false_eq_true, if_false, BitVec.getLsbD_and, BitVec.getLsbD_not, hm, hi, decide_true]
    split <;> simp_all
  · simp only [if_true, BitVec.getLsbD_or, hm]
    split <;> simp_all

/-- 00_scope R11: SetNZ writes N and Z from the result and keeps every other flag. -/
theorem getFlag_setNZ (p r : Byte) (g : Flag) :
    getFlag (setNZ p r) g = if g = .n then r.getLsbD 7 else if g = .z then r == 0 else getFlag p g := by
  simp only [setNZ, getFlag_setFlag]

theorem getFlag_shiftFlags (k : ShiftKind) (p m : Byte) (g : Flag) :
    getFlag (shiftFlags k p m) g = if g = .c then shiftCarry k m else getFlag p g := by
  simp only [shiftFlags, getFlag_setFlag]

theorem getFlag_compareFlags (p r m : Byte) (g : Flag) :
    getFlag (compareFlags p r m) g =
      if g = .n then (r - m).getLsbD 7 else if g = .z then r - m == 0
      else if g = .c then decide (m.toNat ≤ r.toNat) else getFlag p g := by
  simp only [compareFlags, getFlag_setNZ, getFlag_setFlag]

theorem getFlag_addFlags (p a m : Byte) (g : Flag) :
    getFlag (addFlags p a m) g =
      if g = .n then (addResult a m (getFlag p .c)).getLsbD 7
      else if g = .z then addResult a m (getFlag p .c) == 0
      else if g = .v then a.getLsbD 7 == m.getLsbD 7 && (addResult a m (getFlag p .c)).getLsbD 7 != a.getLsbD 7
      else if g = .c then decide (0xFF < addSum a m (getFlag p .c)) else getFlag p g := by
  simp only [addFlags, getFlag_setNZ, getFlag_setFlag]

theorem getFlag_bitFlags (p a m : Byte) (g : Flag) :
    getFlag (bitFlags p a m) g =
      if g = .v then m.getLsbD 6 else if g = .n then m.getLsbD 7 else if g = .z then a &&& m == 0 else getFlag p g := by
  simp only [bitFlags, getFlag_setFlag]

theorem getFlag_ancFlags (p r : Byte) (g : Flag) :
    getFlag (ancFlags p r) g =
      if g = .c then r.getLsbD 7 else if g = .n then r.getLsbD 7 else if g = .z then r == 0 else getFlag p g := by
  simp only [ancFlags, getFlag_setNZ, getFlag_setFlag]

theorem getFlag_arrFlags (p r : Byte) (g : Flag) :
    getFlag (arrFlags p r) g =
      if g = .v then xor (r.getLsbD 6) (r.getLsbD 5) else if g = .c then r.getLsbD 6
      else if g = .n then r.getLsbD 7 else if g = .z then r == 0 else getFlag p g := by
  simp only [arrFlags, getFlag_setNZ, getFlag_setFlag]

/-- 43_control_stack_flags R215, R233: a pulled status has B = 0, U = 1 and every other flag of the byte. -/
theorem getFlag_pulledStatus (v : Byte) (g : Flag) :
    getFlag (pulledStatus v) g = if g = .b then false else if g = .u then true else getFlag v g := by
  cases g <;> simp [getFlag, pulledStatus, Flag.index]

/-- 43_control_stack_flags R231: the pushed copy has B = 1, U = 1 and every other flag of P. -/
theorem getFlag_phpImage (v : Byte) (g : Flag) :
    getFlag (phpImage v) g = if g = .b then true else if g = .u then true else getFlag v g := by
  cases g <;> simp [getFlag, phpImage, Flag.index]

/-- 60_exceptions R293: the pushed copy has B = 0, U = 1 and every other flag of P. -/
theorem getFlag_nmiImage (v : Byte) (g : Flag) :
    getFlag (nmiImage v) g = if g = .b then false else if g = .u then true else getFlag v g := by
  cases g <;> simp [getFlag, nmiImage, Flag.index]

end Sys2Proof.Machine
end

