-- ==== Sys2Proof/Laws/State.lean ====
section
/-! SUPPORT. One lemma per field per update of the state, true by rfl, so that no later proof unfolds a record update. -/

namespace Sys2Proof.Machine

variable (s : State)

@[simp] theorem State.setA_a (v : Byte) : (s.setA v).a = v := rfl
@[simp] theorem State.setA_x (v : Byte) : (s.setA v).x = s.x := rfl
@[simp] theorem State.setA_y (v : Byte) : (s.setA v).y = s.y := rfl
@[simp] theorem State.setA_sp (v : Byte) : (s.setA v).sp = s.sp := rfl
@[simp] theorem State.setA_p (v : Byte) : (s.setA v).p = s.p := rfl
@[simp] theorem State.setA_pc (v : Byte) : (s.setA v).pc = s.pc := rfl
@[simp] theorem State.setA_run (v : Byte) : (s.setA v).run = s.run := rfl
@[simp] theorem State.setA_ram (v : Byte) : (s.setA v).ram = s.ram := rfl
@[simp] theorem State.setA_video (v : Byte) : (s.setA v).video = s.video := rfl
@[simp] theorem State.setA_cycles (v : Byte) : (s.setA v).cycles = s.cycles := rfl
@[simp] theorem State.setA_latch (v : Byte) : (s.setA v).latch = s.latch := rfl
@[simp] theorem State.setA_cart (v : Byte) : (s.setA v).cart = s.cart := rfl
@[simp] theorem State.setA_cfg (v : Byte) : (s.setA v).cfg = s.cfg := rfl
@[simp] theorem State.setA_draws (v : Byte) : (s.setA v).draws = s.draws := rfl

@[simp] theorem State.setX_a (v : Byte) : (s.setX v).a = s.a := rfl
@[simp] theorem State.setX_x (v : Byte) : (s.setX v).x = v := rfl
@[simp] theorem State.setX_y (v : Byte) : (s.setX v).y = s.y := rfl
@[simp] theorem State.setX_sp (v : Byte) : (s.setX v).sp = s.sp := rfl
@[simp] theorem State.setX_p (v : Byte) : (s.setX v).p = s.p := rfl
@[simp] theorem State.setX_pc (v : Byte) : (s.setX v).pc = s.pc := rfl
@[simp] theorem State.setX_run (v : Byte) : (s.setX v).run = s.run := rfl
@[simp] theorem State.setX_ram (v : Byte) : (s.setX v).ram = s.ram := rfl
@[simp] theorem State.setX_video (v : Byte) : (s.setX v).video = s.video := rfl
@[simp] theorem State.setX_cycles (v : Byte) : (s.setX v).cycles = s.cycles := rfl
@[simp] theorem State.setX_latch (v : Byte) : (s.setX v).latch = s.latch := rfl
@[simp] theorem State.setX_cart (v : Byte) : (s.setX v).cart = s.cart := rfl
@[simp] theorem State.setX_cfg (v : Byte) : (s.setX v).cfg = s.cfg := rfl
@[simp] theorem State.setX_draws (v : Byte) : (s.setX v).draws = s.draws := rfl

@[simp] theorem State.setY_a (v : Byte) : (s.setY v).a = s.a := rfl
@[simp] theorem State.setY_x (v : Byte) : (s.setY v).x = s.x := rfl
@[simp] theorem State.setY_y (v : Byte) : (s.setY v).y = v := rfl
@[simp] theorem State.setY_sp (v : Byte) : (s.setY v).sp = s.sp := rfl
@[simp] theorem State.setY_p (v : Byte) : (s.setY v).p = s.p := rfl
@[simp] theorem State.setY_pc (v : Byte) : (s.setY v).pc = s.pc := rfl
@[simp] theorem State.setY_run (v : Byte) : (s.setY v).run = s.run := rfl
@[simp] theorem State.setY_ram (v : Byte) : (s.setY v).ram = s.ram := rfl
@[simp] theorem State.setY_video (v : Byte) : (s.setY v).video = s.video := rfl
@[simp] theorem State.setY_cycles (v : Byte) : (s.setY v).cycles = s.cycles := rfl
@[simp] theorem State.setY_latch (v : Byte) : (s.setY v).latch = s.latch := rfl
@[simp] theorem State.setY_cart (v : Byte) : (s.setY v).cart = s.cart := rfl
@[simp] theorem State.setY_cfg (v : Byte) : (s.setY v).cfg = s.cfg := rfl
@[simp] theorem State.setY_draws (v : Byte) : (s.setY v).draws = s.draws := rfl

@[simp] theorem State.setSp_a (v : Byte) : (s.setSp v).a = s.a := rfl
@[simp] theorem State.setSp_x (v : Byte) : (s.setSp v).x = s.x := rfl
@[simp] theorem State.setSp_y (v : Byte) : (s.setSp v).y = s.y := rfl
@[simp] theorem State.setSp_sp (v : Byte) : (s.setSp v).sp = v := rfl
@[simp] theorem State.setSp_p (v : Byte) : (s.setSp v).p = s.p := rfl
@[simp] theorem State.setSp_pc (v : Byte) : (s.setSp v).pc = s.pc := rfl
@[simp] theorem State.setSp_run (v : Byte) : (s.setSp v).run = s.run := rfl
@[simp] theorem State.setSp_ram (v : Byte) : (s.setSp v).ram = s.ram := rfl
@[simp] theorem State.setSp_video (v : Byte) : (s.setSp v).video = s.video := rfl
@[simp] theorem State.setSp_cycles (v : Byte) : (s.setSp v).cycles = s.cycles := rfl
@[simp] theorem State.setSp_latch (v : Byte) : (s.setSp v).latch = s.latch := rfl
@[simp] theorem State.setSp_cart (v : Byte) : (s.setSp v).cart = s.cart := rfl
@[simp] theorem State.setSp_cfg (v : Byte) : (s.setSp v).cfg = s.cfg := rfl
@[simp] theorem State.setSp_draws (v : Byte) : (s.setSp v).draws = s.draws := rfl

@[simp] theorem State.setP_a (v : Byte) : (s.setP v).a = s.a := rfl
@[simp] theorem State.setP_x (v : Byte) : (s.setP v).x = s.x := rfl
@[simp] theorem State.setP_y (v : Byte) : (s.setP v).y = s.y := rfl
@[simp] theorem State.setP_sp (v : Byte) : (s.setP v).sp = s.sp := rfl
@[simp] theorem State.setP_p (v : Byte) : (s.setP v).p = v := rfl
@[simp] theorem State.setP_pc (v : Byte) : (s.setP v).pc = s.pc := rfl
@[simp] theorem State.setP_run (v : Byte) : (s.setP v).run = s.run := rfl
@[simp] theorem State.setP_ram (v : Byte) : (s.setP v).ram = s.ram := rfl
@[simp] theorem State.setP_video (v : Byte) : (s.setP v).video = s.video := rfl
@[simp] theorem State.setP_cycles (v : Byte) : (s.setP v).cycles = s.cycles := rfl
@[simp] theorem State.setP_latch (v : Byte) : (s.setP v).latch = s.latch := rfl
@[simp] theorem State.setP_cart (v : Byte) : (s.setP v).cart = s.cart := rfl
@[simp] theorem State.setP_cfg (v : Byte) : (s.setP v).cfg = s.cfg := rfl
@[simp] theorem State.setP_draws (v : Byte) : (s.setP v).draws = s.draws := rfl

@[simp] theorem State.setPc_a (v : Word) : (s.setPc v).a = s.a := rfl
@[simp] theorem State.setPc_x (v : Word) : (s.setPc v).x = s.x := rfl
@[simp] theorem State.setPc_y (v : Word) : (s.setPc v).y = s.y := rfl
@[simp] theorem State.setPc_sp (v : Word) : (s.setPc v).sp = s.sp := rfl
@[simp] theorem State.setPc_p (v : Word) : (s.setPc v).p = s.p := rfl
@[simp] theorem State.setPc_pc (v : Word) : (s.setPc v).pc = v := rfl
@[simp] theorem State.setPc_run (v : Word) : (s.setPc v).run = s.run := rfl
@[simp] theorem State.setPc_ram (v : Word) : (s.setPc v).ram = s.ram := rfl
@[simp] theorem State.setPc_video (v : Word) : (s.setPc v).video = s.video := rfl
@[simp] theorem State.setPc_cycles (v : Word) : (s.setPc v).cycles = s.cycles := rfl
@[simp] theorem State.setPc_latch (v : Word) : (s.setPc v).latch = s.latch := rfl
@[simp] theorem State.setPc_cart (v : Word) : (s.setPc v).cart = s.cart := rfl
@[simp] theorem State.setPc_cfg (v : Word) : (s.setPc v).cfg = s.cfg := rfl
@[simp] theorem State.setPc_draws (v : Word) : (s.setPc v).draws = s.draws := rfl

@[simp] theorem State.setRun_a (v : RunState) : (s.setRun v).a = s.a := rfl
@[simp] theorem State.setRun_x (v : RunState) : (s.setRun v).x = s.x := rfl
@[simp] theorem State.setRun_y (v : RunState) : (s.setRun v).y = s.y := rfl
@[simp] theorem State.setRun_sp (v : RunState) : (s.setRun v).sp = s.sp := rfl
@[simp] theorem State.setRun_p (v : RunState) : (s.setRun v).p = s.p := rfl
@[simp] theorem State.setRun_pc (v : RunState) : (s.setRun v).pc = s.pc := rfl
@[simp] theorem State.setRun_run (v : RunState) : (s.setRun v).run = v := rfl
@[simp] theorem State.setRun_ram (v : RunState) : (s.setRun v).ram = s.ram := rfl
@[simp] theorem State.setRun_video (v : RunState) : (s.setRun v).video = s.video := rfl
@[simp] theorem State.setRun_cycles (v : RunState) : (s.setRun v).cycles = s.cycles := rfl
@[simp] theorem State.setRun_latch (v : RunState) : (s.setRun v).latch = s.latch := rfl
@[simp] theorem State.setRun_cart (v : RunState) : (s.setRun v).cart = s.cart := rfl
@[simp] theorem State.setRun_cfg (v : RunState) : (s.setRun v).cfg = s.cfg := rfl
@[simp] theorem State.setRun_draws (v : RunState) : (s.setRun v).draws = s.draws := rfl

@[simp] theorem State.setRam_a (v : Memory) : (s.setRam v).a = s.a := rfl
@[simp] theorem State.setRam_x (v : Memory) : (s.setRam v).x = s.x := rfl
@[simp] theorem State.setRam_y (v : Memory) : (s.setRam v).y = s.y := rfl
@[simp] theorem State.setRam_sp (v : Memory) : (s.setRam v).sp = s.sp := rfl
@[simp] theorem State.setRam_p (v : Memory) : (s.setRam v).p = s.p := rfl
@[simp] theorem State.setRam_pc (v : Memory) : (s.setRam v).pc = s.pc := rfl
@[simp] theorem State.setRam_run (v : Memory) : (s.setRam v).run = s.run := rfl
@[simp] theorem State.setRam_ram (v : Memory) : (s.setRam v).ram = v := rfl
@[simp] theorem State.setRam_video (v : Memory) : (s.setRam v).video = s.video := rfl
@[simp] theorem State.setRam_cycles (v : Memory) : (s.setRam v).cycles = s.cycles := rfl
@[simp] theorem State.setRam_latch (v : Memory) : (s.setRam v).latch = s.latch := rfl
@[simp] theorem State.setRam_cart (v : Memory) : (s.setRam v).cart = s.cart := rfl
@[simp] theorem State.setRam_cfg (v : Memory) : (s.setRam v).cfg = s.cfg := rfl
@[simp] theorem State.setRam_draws (v : Memory) : (s.setRam v).draws = s.draws := rfl

@[simp] theorem State.setVideo_a (v : Video) : (s.setVideo v).a = s.a := rfl
@[simp] theorem State.setVideo_x (v : Video) : (s.setVideo v).x = s.x := rfl
@[simp] theorem State.setVideo_y (v : Video) : (s.setVideo v).y = s.y := rfl
@[simp] theorem State.setVideo_sp (v : Video) : (s.setVideo v).sp = s.sp := rfl
@[simp] theorem State.setVideo_p (v : Video) : (s.setVideo v).p = s.p := rfl
@[simp] theorem State.setVideo_pc (v : Video) : (s.setVideo v).pc = s.pc := rfl
@[simp] theorem State.setVideo_run (v : Video) : (s.setVideo v).run = s.run := rfl
@[simp] theorem State.setVideo_ram (v : Video) : (s.setVideo v).ram = s.ram := rfl
@[simp] theorem State.setVideo_video (v : Video) : (s.setVideo v).video = v := rfl
@[simp] theorem State.setVideo_cycles (v : Video) : (s.setVideo v).cycles = s.cycles := rfl
@[simp] theorem State.setVideo_latch (v : Video) : (s.setVideo v).latch = s.latch := rfl
@[simp] theorem State.setVideo_cart (v : Video) : (s.setVideo v).cart = s.cart := rfl
@[simp] theorem State.setVideo_cfg (v : Video) : (s.setVideo v).cfg = s.cfg := rfl
@[simp] theorem State.setVideo_draws (v : Video) : (s.setVideo v).draws = s.draws := rfl

@[simp] theorem State.setCycles_a (v : Nat) : (s.setCycles v).a = s.a := rfl
@[simp] theorem State.setCycles_x (v : Nat) : (s.setCycles v).x = s.x := rfl
@[simp] theorem State.setCycles_y (v : Nat) : (s.setCycles v).y = s.y := rfl
@[simp] theorem State.setCycles_sp (v : Nat) : (s.setCycles v).sp = s.sp := rfl
@[simp] theorem State.setCycles_p (v : Nat) : (s.setCycles v).p = s.p := rfl
@[simp] theorem State.setCycles_pc (v : Nat) : (s.setCycles v).pc = s.pc := rfl
@[simp] theorem State.setCycles_run (v : Nat) : (s.setCycles v).run = s.run := rfl
@[simp] theorem State.setCycles_ram (v : Nat) : (s.setCycles v).ram = s.ram := rfl
@[simp] theorem State.setCycles_video (v : Nat) : (s.setCycles v).video = s.video := rfl
@[simp] theorem State.setCycles_cycles (v : Nat) : (s.setCycles v).cycles = v := rfl
@[simp] theorem State.setCycles_latch (v : Nat) : (s.setCycles v).latch = s.latch := rfl
@[simp] theorem State.setCycles_cart (v : Nat) : (s.setCycles v).cart = s.cart := rfl
@[simp] theorem State.setCycles_cfg (v : Nat) : (s.setCycles v).cfg = s.cfg := rfl
@[simp] theorem State.setCycles_draws (v : Nat) : (s.setCycles v).draws = s.draws := rfl

@[simp] theorem State.setLatch_a (v : Byte) : (s.setLatch v).a = s.a := rfl
@[simp] theorem State.setLatch_x (v : Byte) : (s.setLatch v).x = s.x := rfl
@[simp] theorem State.setLatch_y (v : Byte) : (s.setLatch v).y = s.y := rfl
@[simp] theorem State.setLatch_sp (v : Byte) : (s.setLatch v).sp = s.sp := rfl
@[simp] theorem State.setLatch_p (v : Byte) : (s.setLatch v).p = s.p := rfl
@[simp] theorem State.setLatch_pc (v : Byte) : (s.setLatch v).pc = s.pc := rfl
@[simp] theorem State.setLatch_run (v : Byte) : (s.setLatch v).run = s.run := rfl
@[simp] theorem State.setLatch_ram (v : Byte) : (s.setLatch v).ram = s.ram := rfl
@[simp] theorem State.setLatch_video (v : Byte) : (s.setLatch v).video = s.video := rfl
@[simp] theorem State.setLatch_cycles (v : Byte) : (s.setLatch v).cycles = s.cycles := rfl
@[simp] theorem State.setLatch_latch (v : Byte) : (s.setLatch v).latch = v := rfl
@[simp] theorem State.setLatch_cart (v : Byte) : (s.setLatch v).cart = s.cart := rfl
@[simp] theorem State.setLatch_cfg (v : Byte) : (s.setLatch v).cfg = s.cfg := rfl
@[simp] theorem State.setLatch_draws (v : Byte) : (s.setLatch v).draws = s.draws := rfl

@[simp] theorem State.setCart_a (v : Cartridge) : (s.setCart v).a = s.a := rfl
@[simp] theorem State.setCart_x (v : Cartridge) : (s.setCart v).x = s.x := rfl
@[simp] theorem State.setCart_y (v : Cartridge) : (s.setCart v).y = s.y := rfl
@[simp] theorem State.setCart_sp (v : Cartridge) : (s.setCart v).sp = s.sp := rfl
@[simp] theorem State.setCart_p (v : Cartridge) : (s.setCart v).p = s.p := rfl
@[simp] theorem State.setCart_pc (v : Cartridge) : (s.setCart v).pc = s.pc := rfl
@[simp] theorem State.setCart_run (v : Cartridge) : (s.setCart v).run = s.run := rfl
@[simp] theorem State.setCart_ram (v : Cartridge) : (s.setCart v).ram = s.ram := rfl
@[simp] theorem State.setCart_video (v : Cartridge) : (s.setCart v).video = s.video := rfl
@[simp] theorem State.setCart_cycles (v : Cartridge) : (s.setCart v).cycles = s.cycles := rfl
@[simp] theorem State.setCart_latch (v : Cartridge) : (s.setCart v).latch = s.latch := rfl
@[simp] theorem State.setCart_cart (v : Cartridge) : (s.setCart v).cart = v := rfl
@[simp] theorem State.setCart_cfg (v : Cartridge) : (s.setCart v).cfg = s.cfg := rfl
@[simp] theorem State.setCart_draws (v : Cartridge) : (s.setCart v).draws = s.draws := rfl

@[simp] theorem State.setDraws_a (v : Nat) : (s.setDraws v).a = s.a := rfl
@[simp] theorem State.setDraws_x (v : Nat) : (s.setDraws v).x = s.x := rfl
@[simp] theorem State.setDraws_y (v : Nat) : (s.setDraws v).y = s.y := rfl
@[simp] theorem State.setDraws_sp (v : Nat) : (s.setDraws v).sp = s.sp := rfl
@[simp] theorem State.setDraws_p (v : Nat) : (s.setDraws v).p = s.p := rfl
@[simp] theorem State.setDraws_pc (v : Nat) : (s.setDraws v).pc = s.pc := rfl
@[simp] theorem State.setDraws_run (v : Nat) : (s.setDraws v).run = s.run := rfl
@[simp] theorem State.setDraws_ram (v : Nat) : (s.setDraws v).ram = s.ram := rfl
@[simp] theorem State.setDraws_video (v : Nat) : (s.setDraws v).video = s.video := rfl
@[simp] theorem State.setDraws_cycles (v : Nat) : (s.setDraws v).cycles = s.cycles := rfl
@[simp] theorem State.setDraws_latch (v : Nat) : (s.setDraws v).latch = s.latch := rfl
@[simp] theorem State.setDraws_cart (v : Nat) : (s.setDraws v).cart = s.cart := rfl
@[simp] theorem State.setDraws_cfg (v : Nat) : (s.setDraws v).cfg = s.cfg := rfl
@[simp] theorem State.setDraws_draws (v : Nat) : (s.setDraws v).draws = v := rfl

@[simp] theorem State.loadA_a (v : Byte) : (s.loadA v).a = v := rfl
@[simp] theorem State.loadA_x (v : Byte) : (s.loadA v).x = s.x := rfl
@[simp] theorem State.loadA_y (v : Byte) : (s.loadA v).y = s.y := rfl
@[simp] theorem State.loadA_sp (v : Byte) : (s.loadA v).sp = s.sp := rfl
@[simp] theorem State.loadA_p (v : Byte) : (s.loadA v).p = setNZ s.p v := rfl
@[simp] theorem State.loadA_pc (v : Byte) : (s.loadA v).pc = s.pc := rfl
@[simp] theorem State.loadA_run (v : Byte) : (s.loadA v).run = s.run := rfl
@[simp] theorem State.loadA_ram (v : Byte) : (s.loadA v).ram = s.ram := rfl
@[simp] theorem State.loadA_video (v : Byte) : (s.loadA v).video = s.video := rfl
@[simp] theorem State.loadA_cycles (v : Byte) : (s.loadA v).cycles = s.cycles := rfl
@[simp] theorem State.loadA_latch (v : Byte) : (s.loadA v).latch = s.latch := rfl
@[simp] theorem State.loadA_cart (v : Byte) : (s.loadA v).cart = s.cart := rfl
@[simp] theorem State.loadA_cfg (v : Byte) : (s.loadA v).cfg = s.cfg := rfl
@[simp] theorem State.loadA_draws (v : Byte) : (s.loadA v).draws = s.draws := rfl

@[simp] theorem State.loadX_a (v : Byte) : (s.loadX v).a = s.a := rfl
@[simp] theorem State.loadX_x (v : Byte) : (s.loadX v).x = v := rfl
@[simp] theorem State.loadX_y (v : Byte) : (s.loadX v).y = s.y := rfl
@[simp] theorem State.loadX_sp (v : Byte) : (s.loadX v).sp = s.sp := rfl
@[simp] theorem State.loadX_p (v : Byte) : (s.loadX v).p = setNZ s.p v := rfl
@[simp] theorem State.loadX_pc (v : Byte) : (s.loadX v).pc = s.pc := rfl
@[simp] theorem State.loadX_run (v : Byte) : (s.loadX v).run = s.run := rfl
@[simp] theorem State.loadX_ram (v : Byte) : (s.loadX v).ram = s.ram := rfl
@[simp] theorem State.loadX_video (v : Byte) : (s.loadX v).video = s.video := rfl
@[simp] theorem State.loadX_cycles (v : Byte) : (s.loadX v).cycles = s.cycles := rfl
@[simp] theorem State.loadX_latch (v : Byte) : (s.loadX v).latch = s.latch := rfl
@[simp] theorem State.loadX_cart (v : Byte) : (s.loadX v).cart = s.cart := rfl
@[simp] theorem State.loadX_cfg (v : Byte) : (s.loadX v).cfg = s.cfg := rfl
@[simp] theorem State.loadX_draws (v : Byte) : (s.loadX v).draws = s.draws := rfl

@[simp] theorem State.loadY_a (v : Byte) : (s.loadY v).a = s.a := rfl
@[simp] theorem State.loadY_x (v : Byte) : (s.loadY v).x = s.x := rfl
@[simp] theorem State.loadY_y (v : Byte) : (s.loadY v).y = v := rfl
@[simp] theorem State.loadY_sp (v : Byte) : (s.loadY v).sp = s.sp := rfl
@[simp] theorem State.loadY_p (v : Byte) : (s.loadY v).p = setNZ s.p v := rfl
@[simp] theorem State.loadY_pc (v : Byte) : (s.loadY v).pc = s.pc := rfl
@[simp] theorem State.loadY_run (v : Byte) : (s.loadY v).run = s.run := rfl
@[simp] theorem State.loadY_ram (v : Byte) : (s.loadY v).ram = s.ram := rfl
@[simp] theorem State.loadY_video (v : Byte) : (s.loadY v).video = s.video := rfl
@[simp] theorem State.loadY_cycles (v : Byte) : (s.loadY v).cycles = s.cycles := rfl
@[simp] theorem State.loadY_latch (v : Byte) : (s.loadY v).latch = s.latch := rfl
@[simp] theorem State.loadY_cart (v : Byte) : (s.loadY v).cart = s.cart := rfl
@[simp] theorem State.loadY_cfg (v : Byte) : (s.loadY v).cfg = s.cfg := rfl
@[simp] theorem State.loadY_draws (v : Byte) : (s.loadY v).draws = s.draws := rfl

@[simp] theorem State.addCore_a (v : Byte) : (s.addCore v).a = addResult s.a v (getFlag s.p .c) := rfl
@[simp] theorem State.addCore_x (v : Byte) : (s.addCore v).x = s.x := rfl
@[simp] theorem State.addCore_y (v : Byte) : (s.addCore v).y = s.y := rfl
@[simp] theorem State.addCore_sp (v : Byte) : (s.addCore v).sp = s.sp := rfl
@[simp] theorem State.addCore_p (v : Byte) : (s.addCore v).p = addFlags s.p s.a v := rfl
@[simp] theorem State.addCore_pc (v : Byte) : (s.addCore v).pc = s.pc := rfl
@[simp] theorem State.addCore_run (v : Byte) : (s.addCore v).run = s.run := rfl
@[simp] theorem State.addCore_ram (v : Byte) : (s.addCore v).ram = s.ram := rfl
@[simp] theorem State.addCore_video (v : Byte) : (s.addCore v).video = s.video := rfl
@[simp] theorem State.addCore_cycles (v : Byte) : (s.addCore v).cycles = s.cycles := rfl
@[simp] theorem State.addCore_latch (v : Byte) : (s.addCore v).latch = s.latch := rfl
@[simp] theorem State.addCore_cart (v : Byte) : (s.addCore v).cart = s.cart := rfl
@[simp] theorem State.addCore_cfg (v : Byte) : (s.addCore v).cfg = s.cfg := rfl
@[simp] theorem State.addCore_draws (v : Byte) : (s.addCore v).draws = s.draws := rfl

@[simp] theorem State.compare_a (r m : Byte) : (s.compare r m).a = s.a := rfl
@[simp] theorem State.compare_x (r m : Byte) : (s.compare r m).x = s.x := rfl
@[simp] theorem State.compare_y (r m : Byte) : (s.compare r m).y = s.y := rfl
@[simp] theorem State.compare_sp (r m : Byte) : (s.compare r m).sp = s.sp := rfl
@[simp] theorem State.compare_p (r m : Byte) : (s.compare r m).p = compareFlags s.p r m := rfl
@[simp] theorem State.compare_pc (r m : Byte) : (s.compare r m).pc = s.pc := rfl
@[simp] theorem State.compare_run (r m : Byte) : (s.compare r m).run = s.run := rfl
@[simp] theorem State.compare_ram (r m : Byte) : (s.compare r m).ram = s.ram := rfl
@[simp] theorem State.compare_video (r m : Byte) : (s.compare r m).video = s.video := rfl
@[simp] theorem State.compare_cycles (r m : Byte) : (s.compare r m).cycles = s.cycles := rfl
@[simp] theorem State.compare_latch (r m : Byte) : (s.compare r m).latch = s.latch := rfl
@[simp] theorem State.compare_cart (r m : Byte) : (s.compare r m).cart = s.cart := rfl
@[simp] theorem State.compare_cfg (r m : Byte) : (s.compare r m).cfg = s.cfg := rfl
@[simp] theorem State.compare_draws (r m : Byte) : (s.compare r m).draws = s.draws := rfl

@[simp] theorem State.writeFlag_a (f : Flag) (v : Bool) : (s.writeFlag f v).a = s.a := rfl
@[simp] theorem State.writeFlag_x (f : Flag) (v : Bool) : (s.writeFlag f v).x = s.x := rfl
@[simp] theorem State.writeFlag_y (f : Flag) (v : Bool) : (s.writeFlag f v).y = s.y := rfl
@[simp] theorem State.writeFlag_sp (f : Flag) (v : Bool) : (s.writeFlag f v).sp = s.sp := rfl
@[simp] theorem State.writeFlag_p (f : Flag) (v : Bool) : (s.writeFlag f v).p = setFlag s.p f v := rfl
@[simp] theorem State.writeFlag_pc (f : Flag) (v : Bool) : (s.writeFlag f v).pc = s.pc := rfl
@[simp] theorem State.writeFlag_run (f : Flag) (v : Bool) : (s.writeFlag f v).run = s.run := rfl
@[simp] theorem State.writeFlag_ram (f : Flag) (v : Bool) : (s.writeFlag f v).ram = s.ram := rfl
@[simp] theorem State.writeFlag_video (f : Flag) (v : Bool) : (s.writeFlag f v).video = s.video := rfl
@[simp] theorem State.writeFlag_cycles (f : Flag) (v : Bool) : (s.writeFlag f v).cycles = s.cycles := rfl
@[simp] theorem State.writeFlag_latch (f : Flag) (v : Bool) : (s.writeFlag f v).latch = s.latch := rfl
@[simp] theorem State.writeFlag_cart (f : Flag) (v : Bool) : (s.writeFlag f v).cart = s.cart := rfl
@[simp] theorem State.writeFlag_cfg (f : Flag) (v : Bool) : (s.writeFlag f v).cfg = s.cfg := rfl
@[simp] theorem State.writeFlag_draws (f : Flag) (v : Bool) : (s.writeFlag f v).draws = s.draws := rfl

@[simp] theorem tick_a (n : Nat) : (tick n s).a = s.a := rfl
@[simp] theorem tick_x (n : Nat) : (tick n s).x = s.x := rfl
@[simp] theorem tick_y (n : Nat) : (tick n s).y = s.y := rfl
@[simp] theorem tick_sp (n : Nat) : (tick n s).sp = s.sp := rfl
@[simp] theorem tick_p (n : Nat) : (tick n s).p = s.p := rfl
@[simp] theorem tick_pc (n : Nat) : (tick n s).pc = s.pc := rfl
@[simp] theorem tick_run (n : Nat) : (tick n s).run = s.run := rfl
@[simp] theorem tick_ram (n : Nat) : (tick n s).ram = s.ram := rfl
@[simp] theorem tick_video (n : Nat) : (tick n s).video = s.video.tick (dotsPerCycle * n) := rfl
@[simp] theorem tick_cycles (n : Nat) : (tick n s).cycles = s.cycles + n := rfl
@[simp] theorem tick_latch (n : Nat) : (tick n s).latch = s.latch := rfl
@[simp] theorem tick_cart (n : Nat) : (tick n s).cart = s.cart := rfl
@[simp] theorem tick_cfg (n : Nat) : (tick n s).cfg = s.cfg := rfl
@[simp] theorem tick_draws (n : Nat) : (tick n s).draws = s.draws := rfl

@[simp] theorem State.latched_a (v : Byte) : (s.latched v).a = s.a := by unfold State.latched; split <;> rfl
@[simp] theorem State.latched_x (v : Byte) : (s.latched v).x = s.x := by unfold State.latched; split <;> rfl
@[simp] theorem State.latched_y (v : Byte) : (s.latched v).y = s.y := by unfold State.latched; split <;> rfl
@[simp] theorem State.latched_sp (v : Byte) : (s.latched v).sp = s.sp := by unfold State.latched; split <;> rfl
@[simp] theorem State.latched_p (v : Byte) : (s.latched v).p = s.p := by unfold State.latched; split <;> rfl
@[simp] theorem State.latched_pc (v : Byte) : (s.latched v).pc = s.pc := by unfold State.latched; split <;> rfl
@[simp] theorem State.latched_run (v : Byte) : (s.latched v).run = s.run := by unfold State.latched; split <;> rfl
@[simp] theorem State.latched_ram (v : Byte) : (s.latched v).ram = s.ram := by unfold State.latched; split <;> rfl
@[simp] theorem State.latched_video (v : Byte) : (s.latched v).video = s.video := by unfold State.latched; split <;> rfl
@[simp] theorem State.latched_cycles (v : Byte) : (s.latched v).cycles = s.cycles := by unfold State.latched; split <;> rfl
@[simp] theorem State.latched_cart (v : Byte) : (s.latched v).cart = s.cart := by unfold State.latched; split <;> rfl
@[simp] theorem State.latched_cfg (v : Byte) : (s.latched v).cfg = s.cfg := by unfold State.latched; split <;> rfl
@[simp] theorem State.latched_draws (v : Byte) : (s.latched v).draws = s.draws := by unfold State.latched; split <;> rfl

/-- 20_memory R69: LATCH after an access. -/
theorem State.latched_latch (v : Byte) : (s.latched v).latch = if s.cfg.busPolicy = .openBus then v else s.latch := by
  unfold State.latched; split <;> simp_all

/-- Under the default policy an access leaves LATCH alone. -/
theorem State.latched_of_fault (v : Byte) (h : s.cfg.busPolicy = .fault) : s.latched v = s := by
  unfold State.latched; rw [h]

end Sys2Proof.Machine
end

