-- ==== Sys2Proof/Laws/Memory.lean ====
section
/-! SUPPORT. The laws of byte memories: read after write, and that a write keeps the canonical form and the bound. -/

namespace Sys2Proof.Machine.Memory

@[simp] theorem read_nil (a : Nat) : read [] a = fill := rfl

theorem read_cons_other {a b : Nat} (h : b ≠ a) (v : Byte) (m : Memory) : read (cons a v m) b = read m b := by
  unfold cons; split
  · rfl
  · simp [read, h]

/-- A write leaves every other cell alone, in any list. -/
theorem read_write_other {a b : Nat} (h : b ≠ a) (v : Byte) (m : Memory) : read (write m a v) b = read m b := by
  induction m with
  | nil => exact read_cons_other h v []
  | cons c m ih =>
    obtain ⟨k, w⟩ := c
    simp only [write]
    split
    · exact read_cons_other h v _
    · split
      · rename_i hk; subst hk; rw [read_cons_other h]; simp [read, h]
      · simp [read, ih]

theorem read_of_lt {low a : Nat} {m : Memory} (hm : wfFrom low m = true) (h : a < low) : read m a = fill := by
  induction m generalizing low with
  | nil => rfl
  | cons c m ih =>
    obtain ⟨k, w⟩ := c
    simp only [wfFrom, Bool.and_eq_true, decide_eq_true_eq] at hm
    rw [read, if_neg (by omega)]
    exact ih hm.2 (by omega)

theorem read_cons_same {low a : Nat} {m : Memory} (hm : wfFrom low m = true) (h : a < low) (v : Byte) :
    read (cons a v m) a = v := by
  unfold cons; split
  · rename_i hv; rw [read_of_lt hm h, hv]
  · simp [read]

theorem read_write_same_from {low a : Nat} {m : Memory} (hm : wfFrom low m = true) (v : Byte) :
    read (write m a v) a = v := by
  induction m generalizing low with
  | nil => exact read_cons_same (low := a + 1) rfl (by omega) v
  | cons c m ih =>
    obtain ⟨k, w⟩ := c
    simp only [wfFrom, Bool.and_eq_true, decide_eq_true_eq] at hm
    simp only [write]
    split
    · refine read_cons_same (low := k) ?_ ‹_› v
      simp [wfFrom, hm.1.2, hm.2]
    · split
      · exact read_cons_same (low := k + 1) hm.2 (by omega) v
      · rw [read, if_neg ‹_›]; exact ih hm.2

/-- A read after a write to the same cell gives the value written. -/
theorem read_write_same {m : Memory} (hm : m.wf = true) (a : Nat) (v : Byte) : read (write m a v) a = v :=
  read_write_same_from hm v

theorem read_write {m : Memory} (hm : m.wf = true) (a b : Nat) (v : Byte) :
    read (write m a v) b = if b = a then v else read m b := by
  split
  · rename_i h; subst h; exact read_write_same hm b v
  · exact read_write_other ‹_› v m

theorem wfFrom_cons {low a : Nat} {m : Memory} (h : low ≤ a) (hm : wfFrom (a + 1) m = true) (v : Byte)
    (hl : wfFrom low m = true) : wfFrom low (cons a v m) = true := by
  unfold cons; split
  · exact hl
  · simp [wfFrom, *]

theorem wfFrom_mono {low low' : Nat} {m : Memory} (h : low ≤ low') (hm : wfFrom low' m = true) :
    wfFrom low m = true := by
  cases m with
  | nil => rfl
  | cons c m =>
    obtain ⟨k, w⟩ := c
    simp only [wfFrom, Bool.and_eq_true, decide_eq_true_eq] at hm ⊢
    exact ⟨⟨by omega, hm.1.2⟩, hm.2⟩

theorem wfFrom_write {low a : Nat} {m : Memory} (h : low ≤ a) (hm : wfFrom low m = true) (v : Byte) :
    wfFrom low (write m a v) = true := by
  induction m generalizing low with
  | nil => exact wfFrom_cons h rfl v rfl
  | cons c m ih =>
    obtain ⟨k, w⟩ := c
    have hm' := hm
    simp only [wfFrom, Bool.and_eq_true, decide_eq_true_eq] at hm'
    simp only [write]
    split
    · exact wfFrom_cons h (by simp [wfFrom, hm'.1.2, hm'.2]; omega) v hm
    · split
      · rename_i hk; subst hk
        exact wfFrom_cons h hm'.2 v (wfFrom_mono (by omega) hm'.2)
      · simp only [wfFrom, Bool.and_eq_true, decide_eq_true_eq]
        exact ⟨hm'.1, ih (by omega) hm'.2⟩

/-- A write keeps the canonical form. -/
theorem wf_write {m : Memory} (hm : m.wf = true) (a : Nat) (v : Byte) : (write m a v).wf = true :=
  wfFrom_write (Nat.zero_le a) hm v

theorem below_cons {size a : Nat} {m : Memory} (h : a < size) (hm : below size m = true) (v : Byte) :
    below size (cons a v m) = true := by
  unfold cons; split
  · exact hm
  · simp only [below, List.all_cons, Bool.and_eq_true, decide_eq_true_eq]; exact ⟨h, hm⟩

/-- A write below the bound keeps every address below it. -/
theorem below_write {size a : Nat} {m : Memory} (h : a < size) (hm : below size m = true) (v : Byte) :
    below size (write m a v) = true := by
  induction m with
  | nil => exact below_cons h hm v
  | cons c m ih =>
    obtain ⟨k, w⟩ := c
    have hm' : k < size ∧ below size m = true := by simpa [below] using hm
    simp only [write]
    split
    · exact below_cons h hm v
    · split
      · exact below_cons h hm'.2 v
      · simp only [below, List.all_cons, Bool.and_eq_true, decide_eq_true_eq]; exact ⟨hm'.1, ih hm'.2⟩

end Sys2Proof.Machine.Memory
end

