-- ==== Sys2Proof/Laws/Video.lean ====
section
/-! SUPPORT. What the video unit's operations do: the closed form of the tick, the fields a tick keeps, and that every
operation keeps `Video.Inv`. -/

namespace Sys2Proof.Machine

/-! ## Bytes with bit 7 cleared or set -/

theorem and_7F_bit7 (b : Byte) : (b &&& 0x7F).getLsbD 7 = false := by simp

theorem or_80_bit7 (b : Byte) : (b ||| 0x80).getLsbD 7 = true := by simp

theorem or_80_low {b : Byte} (h : b &&& 0x7F = 0) : (b ||| 0x80) &&& 0x7F = 0 := by
  revert h; revert b; decide

theorem and_7F_low {b : Byte} (h : b &&& 0x7F = 0) : (b &&& 0x7F) &&& 0x7F = 0 := by rw [h]; rfl

/-! ## The tick -/

/-- The dots the unit has advanced in all, as its counters say. -/
def Video.position (v : Video) : Nat := v.frames * 89342 + v.scanline * 341 + v.dot

theorem Video.dotStep_position {v : Video} (hd : v.dot < 341) (hs : v.scanline < 262) :
    v.dotStep.position = v.position + 1 ∧ v.dotStep.dot < 341 ∧ v.dotStep.scanline < 262 := by
  unfold Video.dotStep Video.enterLine Video.position dotsPerLine vblankLine linesPerFrame
  split
  · split
    · simp_all [Video.enterVblank]
    · split
      · simp only [Video.endFrame] at *; omega
      · simp only at *; omega
  · simp only; omega

/-- 60_exceptions R307: n dots move the position by n and leave the counters in range. -/
theorem Video.tick_position {v : Video} (hd : v.dot < 341) (hs : v.scanline < 262) (n : Nat) :
    (v.tick n).position = v.position + n ∧ (v.tick n).dot < 341 ∧ (v.tick n).scanline < 262 := by
  induction n generalizing v with
  | zero => exact ⟨by simp [Video.tick], hd, hs⟩
  | succ n ih =>
    obtain ⟨h1, h2, h3⟩ := Video.dotStep_position hd hs
    obtain ⟨k1, k2, k3⟩ := ih h2 h3
    refine ⟨?_, k2, k3⟩
    rw [Video.tick, k1, h1]; omega

/-- One tick after another is one tick of both. -/
theorem Video.tick_add (m n : Nat) (v : Video) : v.tick (m + n) = (v.tick m).tick n := by
  induction m generalizing v with
  | zero => simp [Video.tick]
  | succ m ih => rw [Nat.succ_add, Video.tick, Video.tick, ih]

variable (v : Video)

@[simp] theorem Video.dotStep_ctrl : v.dotStep.ctrl = v.ctrl := by
  simp only [Video.dotStep, Video.enterLine, Video.enterVblank, Video.endFrame]; repeat' split <;> try rfl
@[simp] theorem Video.dotStep_mask : v.dotStep.mask = v.mask := by
  simp only [Video.dotStep, Video.enterLine, Video.enterVblank, Video.endFrame]; repeat' split <;> try rfl
@[simp] theorem Video.dotStep_oamAddr : v.dotStep.oamAddr = v.oamAddr := by
  simp only [Video.dotStep, Video.enterLine, Video.enterVblank, Video.endFrame]; repeat' split <;> try rfl
@[simp] theorem Video.dotStep_scrollX : v.dotStep.scrollX = v.scrollX := by
  simp only [Video.dotStep, Video.enterLine, Video.enterVblank, Video.endFrame]; repeat' split <;> try rfl
@[simp] theorem Video.dotStep_scrollY : v.dotStep.scrollY = v.scrollY := by
  simp only [Video.dotStep, Video.enterLine, Video.enterVblank, Video.endFrame]; repeat' split <;> try rfl
@[simp] theorem Video.dotStep_ws : v.dotStep.ws = v.ws := by
  simp only [Video.dotStep, Video.enterLine, Video.enterVblank, Video.endFrame]; repeat' split <;> try rfl
@[simp] theorem Video.dotStep_vaddr : v.dotStep.vaddr = v.vaddr := by
  simp only [Video.dotStep, Video.enterLine, Video.enterVblank, Video.endFrame]; repeat' split <;> try rfl
@[simp] theorem Video.dotStep_w : v.dotStep.w = v.w := by
  simp only [Video.dotStep, Video.enterLine, Video.enterVblank, Video.endFrame]; repeat' split <;> try rfl
@[simp] theorem Video.dotStep_rdbuf : v.dotStep.rdbuf = v.rdbuf := by
  simp only [Video.dotStep, Video.enterLine, Video.enterVblank, Video.endFrame]; repeat' split <;> try rfl
@[simp] theorem Video.dotStep_vram : v.dotStep.vram = v.vram := by
  simp only [Video.dotStep, Video.enterLine, Video.enterVblank, Video.endFrame]; repeat' split <;> try rfl
@[simp] theorem Video.dotStep_palette : v.dotStep.palette = v.palette := by
  simp only [Video.dotStep, Video.enterLine, Video.enterVblank, Video.endFrame]; repeat' split <;> try rfl
@[simp] theorem Video.dotStep_oam : v.dotStep.oam = v.oam := by
  simp only [Video.dotStep, Video.enterLine, Video.enterVblank, Video.endFrame]; repeat' split <;> try rfl

@[simp] theorem Video.tick_ctrl (n : Nat) : (v.tick n).ctrl = v.ctrl := by
  induction n generalizing v with
  | zero => rfl
  | succ n ih => rw [Video.tick, ih, Video.dotStep_ctrl]
@[simp] theorem Video.tick_mask (n : Nat) : (v.tick n).mask = v.mask := by
  induction n generalizing v with
  | zero => rfl
  | succ n ih => rw [Video.tick, ih, Video.dotStep_mask]
@[simp] theorem Video.tick_oamAddr (n : Nat) : (v.tick n).oamAddr = v.oamAddr := by
  induction n generalizing v with
  | zero => rfl
  | succ n ih => rw [Video.tick, ih, Video.dotStep_oamAddr]
@[simp] theorem Video.tick_scrollX (n : Nat) : (v.tick n).scrollX = v.scrollX := by
  induction n generalizing v with
  | zero => rfl
  | succ n ih => rw [Video.tick, ih, Video.dotStep_scrollX]
@[simp] theorem Video.tick_scrollY (n : Nat) : (v.tick n).scrollY = v.scrollY := by
  induction n generalizing v with
  | zero => rfl
  | succ n ih => rw [Video.tick, ih, Video.dotStep_scrollY]
@[simp] theorem Video.tick_ws (n : Nat) : (v.tick n).ws = v.ws := by
  induction n generalizing v with
  | zero => rfl
  | succ n ih => rw [Video.tick, ih, Video.dotStep_ws]
@[simp] theorem Video.tick_vaddr (n : Nat) : (v.tick n).vaddr = v.vaddr := by
  induction n generalizing v with
  | zero => rfl
  | succ n ih => rw [Video.tick, ih, Video.dotStep_vaddr]
@[simp] theorem Video.tick_w (n : Nat) : (v.tick n).w = v.w := by
  induction n generalizing v with
  | zero => rfl
  | succ n ih => rw [Video.tick, ih, Video.dotStep_w]
@[simp] theorem Video.tick_rdbuf (n : Nat) : (v.tick n).rdbuf = v.rdbuf := by
  induction n generalizing v with
  | zero => rfl
  | succ n ih => rw [Video.tick, ih, Video.dotStep_rdbuf]
@[simp] theorem Video.tick_vram (n : Nat) : (v.tick n).vram = v.vram := by
  induction n generalizing v with
  | zero => rfl
  | succ n ih => rw [Video.tick, ih, Video.dotStep_vram]
@[simp] theorem Video.tick_palette (n : Nat) : (v.tick n).palette = v.palette := by
  induction n generalizing v with
  | zero => rfl
  | succ n ih => rw [Video.tick, ih, Video.dotStep_palette]
@[simp] theorem Video.tick_oam (n : Nat) : (v.tick n).oam = v.oam := by
  induction n generalizing v with
  | zero => rfl
  | succ n ih => rw [Video.tick, ih, Video.dotStep_oam]

variable {v}

/-! ## Every operation keeps `Video.Inv` -/

theorem Video.enterLine_inv (h1 : v.vram.Kept 2048) (h2 : v.palette.Kept 32) (h3 : v.oam.Kept 256) (hd : v.dot < 341)
    (hs : v.scanline ≤ 262) (ha : v.vaddr.toNat < 0x4000) (hl : v.status &&& 0x7F = 0)
    (hv : v.status.getLsbD 7 = true → 241 ≤ v.scanline) (hn : v.nmiPending = true → 241 ≤ v.scanline) :
    v.enterLine.Inv := by
  unfold Video.enterLine vblankLine linesPerFrame
  split
  · rename_i he
    exact ⟨h1, h2, h3, hd, by simp [Video.enterVblank, he], ha, or_80_low hl, fun _ => he.ge, fun _ => he.ge⟩
  · split
    · refine ⟨h1, h2, h3, hd, by simp [Video.endFrame], ha, and_7F_low hl, fun h => ?_, fun h => ?_⟩
      · rw [show v.endFrame.status = v.status &&& 0x7F from rfl, and_7F_bit7] at h; cases h
      · cases h
    · exact ⟨h1, h2, h3, hd, by omega, ha, hl, hv, hn⟩

theorem Video.dotStep_inv (h : v.Inv) : v.dotStep.Inv := by
  obtain ⟨h1, h2, h3, hd, hs, ha, hl, hv, hn⟩ := h
  unfold Video.dotStep
  split
  · exact Video.enterLine_inv h1 h2 h3 (by simp) (by simp; omega) ha hl (fun h => Nat.le_succ_of_le (hv h))
      (fun h => Nat.le_succ_of_le (hn h))
  · rename_i hne
    exact ⟨h1, h2, h3, by simp only [dotsPerLine] at hne; simp; omega, hs, ha, hl, hv, hn⟩

theorem Video.tick_inv (n : Nat) (h : v.Inv) : (v.tick n).Inv := by
  induction n generalizing v with
  | zero => exact h
  | succ n ih => exact ih (Video.dotStep_inv h)

theorem Video.poll_inv (h : v.Inv) : v.poll.2.Inv := by
  obtain ⟨h1, h2, h3, hd, hs, ha, hl, hv, hn⟩ := h
  exact ⟨h1, h2, h3, hd, hs, ha, hl, hv, fun h => by cases h⟩

theorem Video.writeCtrl_inv (b : Byte) (h : v.Inv) : (v.writeCtrl b).Inv := by
  obtain ⟨h1, h2, h3, hd, hs, ha, hl, hv, hn⟩ := h
  refine ⟨h1, h2, h3, hd, hs, ha, hl, hv, fun h => ?_⟩
  simp only [Video.writeCtrl, Bool.or_eq_true, Bool.and_eq_true] at h
  rcases h with h | h
  · exact hn h
  · exact hv h.2

theorem Video.afterStatusRead_inv (h : v.Inv) : v.afterStatusRead.Inv := by
  obtain ⟨h1, h2, h3, hd, hs, ha, hl, hv, hn⟩ := h
  refine ⟨h1, h2, h3, hd, hs, ha, and_7F_low hl, fun h => ?_, hn⟩
  rw [show v.afterStatusRead.status = v.status &&& 0x7F from rfl, and_7F_bit7] at h; cases h

theorem Video.writeOam_inv (b : Byte) (h : v.Inv) : (v.writeOam b).Inv := by
  obtain ⟨h1, h2, h3, hd, hs, ha, hl, hv, hn⟩ := h
  exact ⟨h1, h2, ⟨Memory.wf_write h3.1 _ _, Memory.below_write v.oamAddr.isLt h3.2 _⟩, hd, hs, ha, hl, hv, hn⟩

theorem Video.writeScroll_inv (t : ScrollToggle) (b : Byte) (h : v.Inv) : (v.writeScroll t b).Inv := by
  unfold Video.writeScroll Video.fillScroll
  cases t <;> dsimp only <;> split <;> exact h

theorem and_3FFF_lt (a : Word) : (a &&& 0x3FFF).toNat < 0x4000 := by
  rw [BitVec.toNat_and]
  exact Nat.lt_of_le_of_lt Nat.and_le_right (by decide)

theorem Video.writeAddr_inv (b : Byte) (h : v.Inv) : (v.writeAddr b).Inv := by
  obtain ⟨h1, h2, h3, hd, hs, ha, hl, hv, hn⟩ := h
  exact ⟨h1, h2, h3, hd, hs, and_3FFF_lt _, hl, hv, hn⟩

theorem Video.increment_inv (h1 : v.vram.Kept 2048) (h2 : v.palette.Kept 32) (h3 : v.oam.Kept 256) (hd : v.dot < 341)
    (hs : v.scanline < 262) (hl : v.status &&& 0x7F = 0) (hv : v.status.getLsbD 7 = true → 241 ≤ v.scanline)
    (hn : v.nmiPending = true → 241 ≤ v.scanline) : v.increment.Inv :=
  ⟨h1, h2, h3, hd, hs, and_3FFF_lt _, hl, hv, hn⟩

theorem Video.afterDataRead_inv (c : Cartridge) (h : v.Inv) : (v.afterDataRead c).Inv := by
  obtain ⟨h1, h2, h3, hd, hs, ha, hl, hv, hn⟩ := h
  exact Video.increment_inv h1 h2 h3 hd hs hl hv hn

/-- 60_exceptions R323: a nametable index is a cell of the 2 KiB VRAM. -/
theorem ntIndex_lt (m : Mirroring) (a : Word) : ntIndex m a < 2048 := by
  have h : a.toNat % 0x1000 < 0x1000 := Nat.mod_lt _ (by decide)
  unfold ntIndex; cases m <;> dsimp only <;> split_ifs <;> omega

/-- 60_exceptions R324: a palette index is one of the 32 cells. -/
theorem palIndex_lt (a : Word) : palIndex a < 32 := by
  have h : (a.toNat - 0x3F00) % 0x20 < 0x20 := Nat.mod_lt _ (by decide)
  unfold palIndex; dsimp only; split <;> omega

theorem Video.writeData_inv {m : Mirroring} {b : Byte} {u : Video} (h : v.Inv) (hu : v.writeData m b = some u) :
    u.Inv := by
  obtain ⟨h1, h2, h3, hd, hs, ha, hl, hv, hn⟩ := h
  unfold Video.writeData at hu
  split at hu
  · cases hu
  · split at hu
    · cases hu
      exact Video.increment_inv ⟨Memory.wf_write h1.1 _ _, Memory.below_write (ntIndex_lt m _) h1.2 _⟩ h2 h3 hd hs hl hv hn
    · cases hu
      exact Video.increment_inv h1 ⟨Memory.wf_write h2.1 _ _, Memory.below_write (palIndex_lt _) h2.2 _⟩ h3 hd hs hl hv hn

/-- No data write moves a counter. -/
theorem Video.writeData_counters {m : Mirroring} {b : Byte} {u : Video} (hu : v.writeData m b = some u) :
    u.scanline = v.scanline ∧ u.dot = v.dot ∧ u.frames = v.frames := by
  unfold Video.writeData at hu
  split at hu
  · cases hu
  · split at hu <;> cases hu <;> exact ⟨rfl, rfl, rfl⟩

/-- No scroll write moves a counter. -/
theorem Video.writeScroll_counters (t : ScrollToggle) (b : Byte) :
    (v.writeScroll t b).scanline = v.scanline ∧ (v.writeScroll t b).dot = v.dot ∧
      (v.writeScroll t b).frames = v.frames := by
  unfold Video.writeScroll Video.fillScroll
  cases t <;> dsimp only <;> split <;> exact ⟨rfl, rfl, rfl⟩

end Sys2Proof.Machine
end

