-- ==== Sys2Proof/Laws/Bus.lean ====
section
/-! SUPPORT. What the bus and the stack do: the value and the state of an access by region, and once for all accesses
what any access leaves alone. -/

namespace Sys2Proof.Machine

variable {s t u : State} {a : Word} {v : Byte} {k : FaultKind}

/-! ## Regions (20_memory R60) -/

theorem regionOf_ram (h : a.toNat ≤ 0x1FFF) : regionOf a = .ram (a.toNat % 2048) := by simp [regionOf, h, ramSize]

theorem regionOf_port (h1 : 0x2000 ≤ a.toNat) (h2 : a.toNat ≤ 0x3FFF) : regionOf a = .port (portOf a) := by
  unfold regionOf; rw [if_neg (by omega), if_pos h2]

theorem regionOf_unrouted (h1 : 0x4000 ≤ a.toNat) (h2 : a.toNat ≤ 0x7FFF) : regionOf a = .unrouted := by
  unfold regionOf; rw [if_neg (by omega), if_neg (by omega), if_pos h2]

theorem regionOf_rom (h : 0x8000 ≤ a.toNat) : regionOf a = .rom (a.toNat - 0x8000) := by
  unfold regionOf; rw [if_neg (by omega), if_neg (by omega), if_neg (by omega)]

/-- The zero page is RAM. -/
theorem regionOf_zext (b : Byte) : regionOf (zext b) = .ram b.toNat := by
  have h : (zext b).toNat = b.toNat := by simp [zext]; omega
  rw [regionOf_ram (by omega), h, Nat.mod_eq_of_lt (by omega)]

/-- The stack page is RAM (20_memory R74). -/
theorem regionOf_stackCell (b : Byte) : regionOf (stackCell b) = .ram (0x100 + b.toNat) := by
  have h : (stackCell b).toNat = 0x100 + b.toNat := by
    simp [stackCell, stackPage, zext, BitVec.toNat_add]; omega
  rw [regionOf_ram (by omega), h, Nat.mod_eq_of_lt (by omega)]

/-! ## The latch -/

@[simp] theorem State.latched_latched (s : State) (v w : Byte) : (s.latched v).latched w = s.latched w := by
  unfold State.latched
  cases h : s.cfg.busPolicy <;> simp [h, State.setLatch]

@[simp] theorem State.latched_setSp (s : State) (v w : Byte) : (s.latched v).setSp w = (s.setSp w).latched v := by
  unfold State.latched; simp only [State.setSp_cfg]; split <;> rfl

@[simp] theorem State.latched_setP (s : State) (v w : Byte) : (s.latched v).setP w = (s.setP w).latched v := by
  unfold State.latched; simp only [State.setP_cfg]; split <;> rfl

@[simp] theorem State.latched_setA (s : State) (v w : Byte) : (s.latched v).setA w = (s.setA w).latched v := by
  unfold State.latched; simp only [State.setA_cfg]; split <;> rfl

@[simp] theorem State.latched_setPc (s : State) (v : Byte) (w : Word) : (s.latched v).setPc w = (s.setPc w).latched v := by
  unfold State.latched; simp only [State.setPc_cfg]; split <;> rfl

@[simp] theorem State.latched_setRam (s : State) (v : Byte) (m : Memory) :
    (s.latched v).setRam m = (s.setRam m).latched v := by
  unfold State.latched; simp only [State.setRam_cfg]; split <;> rfl

/-! ## Accesses by region -/

theorem memRead_ram {i : Nat} (h : regionOf a = .ram i) (s : State) :
    memRead a s = .ok (s.ram.read i) (s.latched (s.ram.read i)) := by simp [memRead, regionRead, h, Access.bind]

theorem memRead_rom {i : Nat} (h : regionOf a = .rom i) (s : State) :
    memRead a s = .ok (s.cart.prgByte i) (s.latched (s.cart.prgByte i)) := by
  simp [memRead, regionRead, h, Access.bind]

theorem memWrite_ram {i : Nat} (h : regionOf a = .ram i) (v : Byte) (s : State) :
    memWrite a v s = .ok () ((s.latched v).setRam (s.ram.write i v)) := by simp [memWrite, regionWrite, h]

theorem memWrite_rom {i : Nat} (h : regionOf a = .rom i) (v : Byte) (s : State) :
    memWrite a v s = .fail (.invalidAddress (.romWrite a)) (s.latched v) := by simp [memWrite, regionWrite, h]

/-- 20_memory R75: a push never fails. -/
theorem push_eq (v : Byte) (s : State) :
    push v s = .ok () (((s.latched v).setRam (s.ram.write (0x100 + s.sp.toNat) v)).setSp (s.sp - 1)) := by
  rw [push, memWrite_ram (regionOf_stackCell s.sp)]; simp [Access.bind]

/-- 20_memory R76: a pop never fails. -/
theorem pop_eq (s : State) :
    pop s = .ok (s.ram.read (0x100 + (s.sp + 1).toNat))
      ((s.setSp (s.sp + 1)).latched (s.ram.read (0x100 + (s.sp + 1).toNat))) := by
  rw [pop, memRead_ram (regionOf_stackCell _)]; rfl

/-- 30_encoding R119, R120: a zero-page pointer read never fails. -/
theorem zeroPagePointer_eq (z : Byte) (s : State) :
    zeroPagePointer z s =
      .ok (word (s.ram.read (z + 1).toNat) (s.ram.read z.toNat)) (s.latched (s.ram.read (z + 1).toNat)) := by
  simp [zeroPagePointer, memRead_ram (regionOf_zext _), Access.bind]

/-! ## What every access leaves alone -/

/-- The state after any number of bus accesses, successful or not, by any instruction: the run state, the cartridge, the
parameters, CYCLES and the video counters are kept, and the invariants of the memories are. -/
structure Keeps (s t : State) : Prop where
  run : t.run = s.run
  cart : t.cart = s.cart
  cfg : t.cfg = s.cfg
  cycles : t.cycles = s.cycles
  scanline : t.video.scanline = s.video.scanline
  dot : t.video.dot = s.video.dot
  frames : t.video.frames = s.video.frames
  ramKept : s.ram.Kept ramSize → t.ram.Kept ramSize
  videoInv : s.video.Inv → t.video.Inv

theorem Keeps.refl (s : State) : Keeps s s := ⟨rfl, rfl, rfl, rfl, rfl, rfl, rfl, id, id⟩

theorem Keeps.trans (h : Keeps s t) (g : Keeps t u) : Keeps s u :=
  ⟨g.run.trans h.run, g.cart.trans h.cart, g.cfg.trans h.cfg, g.cycles.trans h.cycles, g.scanline.trans h.scanline,
    g.dot.trans h.dot, g.frames.trans h.frames, g.ramKept ∘ h.ramKept, g.videoInv ∘ h.videoInv⟩

/-- One bus access moreover keeps every register. -/
structure BusStep (s t : State) : Prop extends Keeps s t where
  a : t.a = s.a
  x : t.x = s.x
  y : t.y = s.y
  sp : t.sp = s.sp
  p : t.p = s.p
  pc : t.pc = s.pc

theorem BusStep.refl (s : State) : BusStep s s := ⟨Keeps.refl s, rfl, rfl, rfl, rfl, rfl, rfl⟩

theorem BusStep.trans (h : BusStep s t) (g : BusStep t u) : BusStep s u :=
  ⟨h.toKeeps.trans g.toKeeps, g.a.trans h.a, g.x.trans h.x, g.y.trans h.y, g.sp.trans h.sp, g.p.trans h.p,
    g.pc.trans h.pc⟩

theorem BusStep.latched (s : State) (v : Byte) : BusStep s (s.latched v) := by
  constructor
  · constructor <;> simp
  all_goals simp

theorem BusStep.setLatched (h : BusStep s t) (v : Byte) : BusStep s (t.latched v) := h.trans (.latched t v)

theorem BusStep.setRam {i : Nat} (s : State) (hi : i < ramSize) (v : Byte) :
    BusStep s (s.setRam (s.ram.write i v)) :=
  ⟨⟨rfl, rfl, rfl, rfl, rfl, rfl, rfl, fun h => ⟨Memory.wf_write h.1 _ _, Memory.below_write hi h.2 _⟩, id⟩,
    rfl, rfl, rfl, rfl, rfl, rfl⟩

theorem BusStep.setVideo {s : State} {w : Video}
    (hc : w.scanline = s.video.scanline ∧ w.dot = s.video.dot ∧ w.frames = s.video.frames) (hi : s.video.Inv → w.Inv) :
    BusStep s (s.setVideo w) :=
  ⟨⟨rfl, rfl, rfl, rfl, hc.1, hc.2.1, hc.2.2, id, hi⟩, rfl, rfl, rfl, rfl, rfl, rfl⟩

theorem BusStep.setDraws (s : State) (n : Nat) : BusStep s (s.setDraws n) :=
  ⟨⟨rfl, rfl, rfl, rfl, rfl, rfl, rfl, id, id⟩, rfl, rfl, rfl, rfl, rfl, rfl⟩

/-- What an access does in either of its ends. -/
def Access.All {α : Type} (ok : α → State → Prop) (fail : FaultKind → State → Prop) : Access α → Prop
  | .ok v t => ok v t
  | .fail k t => fail k t

theorem Access.All.bind {α β : Type} {r : Access α} {f : α → State → Access β} {ok : α → State → Prop}
    {ok' : β → State → Prop} {fail : FaultKind → State → Prop} (h : r.All ok fail)
    (g : ∀ v t, ok v t → (f v t).All ok' fail) : (r.bind f).All ok' fail := by
  cases r with
  | ok v t => exact g v t h
  | fail k t => exact h

theorem Access.All.mono {α : Type} {r : Access α} {ok ok' : α → State → Prop} {fail fail' : FaultKind → State → Prop}
    (h : r.All ok fail) (g : ∀ v t, ok v t → ok' v t) (g' : ∀ k t, fail k t → fail' k t) : r.All ok' fail' := by
  cases r with
  | ok v t => exact g v t h
  | fail k t => exact g' k t h

/-- A state relation that holds in either end. -/
abbrev Access.Ends {α : Type} (s : State) (r : Access α) : Prop :=
  r.All (fun _ t => BusStep s t) fun _ t => BusStep s t

theorem spriteBits_step (s : State) : BusStep s (spriteBits s).2 := by
  unfold spriteBits; split
  · exact .refl s
  · exact .setDraws s _

theorem portRead_ends (p : Port) (a : Word) (s : State) : (portRead p a s).Ends s := by
  cases p <;> simp only [portRead, readWriteOnly, readStatus]
  all_goals first
    | (split <;> exact BusStep.refl s)
    | exact BusStep.refl s
    | exact .setVideo ⟨rfl, rfl, rfl⟩ fun h => Video.afterDataRead_inv s.cart h
    | skip
  have h1 := spriteBits_step s
  refine h1.trans (.setVideo ?_ ?_)
  · exact ⟨h1.scanline.symm, h1.dot.symm, h1.frames.symm⟩
  · have : (spriteBits s).2.video = s.video := by unfold spriteBits; split <;> rfl
    rw [this]; exact fun h => Video.afterStatusRead_inv h

theorem portWrite_ends (p : Port) (a : Word) (v : Byte) (s : State) : (portWrite p a v s).Ends s := by
  cases p <;> simp only [portWrite]
  case ctrl => exact .setVideo ⟨rfl, rfl, rfl⟩ fun h => Video.writeCtrl_inv v h
  case mask => exact .setVideo ⟨rfl, rfl, rfl⟩ id
  case status => split <;> exact BusStep.refl s
  case oamAddr => exact .setVideo ⟨rfl, rfl, rfl⟩ id
  case oamData => exact .setVideo ⟨rfl, rfl, rfl⟩ fun h => Video.writeOam_inv v h
  case scroll => exact .setVideo (Video.writeScroll_counters _ _) fun h => Video.writeScroll_inv _ v h
  case addr => exact .setVideo ⟨rfl, rfl, rfl⟩ fun h => Video.writeAddr_inv v h
  case data =>
    split
    · rename_i u hu
      exact .setVideo (Video.writeData_counters hu) fun h => Video.writeData_inv h hu
    · exact BusStep.refl s

/-- Every bus read: registers, CYCLES, counters, cartridge and parameters are kept. -/
theorem memRead_ends (a : Word) (s : State) : (memRead a s).Ends s := by
  refine Access.All.bind (ok := fun _ t => BusStep s t) ?_ fun v t h => h.setLatched v
  unfold regionRead
  split
  · exact .refl s
  · exact portRead_ends _ _ _
  · unfold unroutedRead; split <;> exact BusStep.refl s
  · exact .refl s

theorem regionOf_ram_lt {i : Nat} (h : regionOf a = .ram i) : i < ramSize := by
  unfold regionOf at h
  split at h
  · cases h; exact Nat.mod_lt _ (by decide)
  · split at h
    · cases h
    · split at h <;> cases h

/-- Every bus write: the same. -/
theorem memWrite_ends (a : Word) (v : Byte) (s : State) : (memWrite a v s).Ends s := by
  have hl := BusStep.latched s v
  refine Access.All.mono (ok := fun _ t => BusStep (s.latched v) t) (fail := fun _ t => BusStep (s.latched v) t) ?_
    (fun _ _ h => hl.trans h) fun _ _ h => hl.trans h
  unfold memWrite regionWrite
  split
  · rename_i i h
    have := BusStep.setRam (s.latched v) (regionOf_ram_lt h) v
    exact this
  · exact portWrite_ends _ _ _ _
  · unfold unroutedWrite; split <;> exact BusStep.refl _
  · exact BusStep.refl _

theorem memRead_step (h : memRead a s = .ok v t) : BusStep s t := by
  have := memRead_ends a s; rwa [h] at this

theorem memWrite_step {x : Unit} (h : memWrite a v s = .ok x t) : BusStep s t := by
  have := memWrite_ends a v s; rwa [h] at this

end Sys2Proof.Machine
end

