-- ==== Sys2Proof/Laws/Operands.lean ====
section
/-! SUPPORT. What an addressing mode and the data accesses of a rule do: which cells they can change, and how they can
fail. -/

namespace Sys2Proof.Machine

variable {s t u : State} {a : Word} {v : Byte} {k : FaultKind} {rd wr rd' wr' : List Word}

/-! ## Which cells accesses can change -/

/-- From `s` to `u` data went only from the addresses `rd` and to the addresses `wr`. -/
structure Touches (rd wr : List Word) (s u : State) : Prop where
  ram : ∀ j, (∀ b ∈ wr, regionOf b ≠ .ram j) → u.ram.read j = s.ram.read j
  video : (∀ b ∈ rd ++ wr, ∀ p, regionOf b ≠ .port p) → u.video = s.video
  videoMemory : (∀ b ∈ wr, regionOf b ≠ .port .oamData ∧ regionOf b ≠ .port .data) →
    u.video.vram = s.video.vram ∧ u.video.palette = s.video.palette ∧ u.video.oam = s.video.oam
  latch : s.cfg.busPolicy = .fault → u.latch = s.latch

theorem Touches.refl (rd wr : List Word) (s : State) : Touches rd wr s s :=
  ⟨fun _ _ => rfl, fun _ => rfl, fun _ => ⟨rfl, rfl, rfl⟩, fun _ => rfl⟩

theorem Touches.trans (h : Touches rd wr s t) (g : Touches rd' wr' t u) (hc : t.cfg = s.cfg) :
    Touches (rd ++ rd') (wr ++ wr') s u where
  ram j hj := (g.ram j fun b hb => hj b (by simp [hb])).trans (h.ram j fun b hb => hj b (by simp [hb]))
  video hj := (g.video fun b hb => hj b (by simp at hb ⊢; tauto)).trans (h.video fun b hb => hj b (by simp at hb ⊢; tauto))
  videoMemory hj := by
    obtain ⟨g1, g2, g3⟩ := g.videoMemory fun b hb => hj b (by simp [hb])
    obtain ⟨h1, h2, h3⟩ := h.videoMemory fun b hb => hj b (by simp [hb])
    exact ⟨g1.trans h1, g2.trans h2, g3.trans h3⟩
  latch hf := (g.latch (by rw [hc]; exact hf)).trans (h.latch hf)

theorem Touches.latched (s : State) (v : Byte) : Touches [] [] s (s.latched v) :=
  ⟨fun _ _ => by simp, fun _ => by simp, fun _ => by simp, fun h => by simp [State.latched_latch, h]⟩

theorem memRead_touches (h : memRead a s = .ok v t) : Touches [a] [] s t := by
  unfold memRead regionRead at h
  cases hr : regionOf a <;> simp only [hr] at h
  case ram i => cases h; exact ⟨fun _ _ => by simp, fun _ => by simp, fun _ => by simp, fun h => by simp [State.latched_latch, h]⟩
  case rom i => cases h; exact ⟨fun _ _ => by simp, fun _ => by simp, fun _ => by simp, fun h => by simp [State.latched_latch, h]⟩
  case unrouted =>
    unfold unroutedRead at h
    split at h
    · rename_i ho; cases h; exact ⟨fun _ _ => by simp, fun _ => by simp, fun _ => by simp, fun h => by simp [h] at ho⟩
    · cases h
  case port p =>
    cases hp : portRead p a s with
    | fail k u => rw [hp] at h; cases h
    | ok w u =>
      rw [hp] at h; cases h
      have key : u.ram = s.ram ∧ u.video.vram = s.video.vram ∧ u.video.palette = s.video.palette ∧
          u.video.oam = s.video.oam ∧ u.latch = s.latch ∧ u.cfg = s.cfg := by
        cases p <;> simp only [portRead, readWriteOnly, readStatus] at hp
        case status =>
          cases hp
          unfold spriteBits; split <;> exact ⟨rfl, rfl, rfl, rfl, rfl, rfl⟩
        case oamData => cases hp; exact ⟨rfl, rfl, rfl, rfl, rfl, rfl⟩
        case data => cases hp; exact ⟨rfl, rfl, rfl, rfl, rfl, rfl⟩
        all_goals
          split at hp <;> cases hp
          exact ⟨rfl, rfl, rfl, rfl, rfl, rfl⟩
      obtain ⟨k1, k2, k3, k4, k5, k6⟩ := key
      refine ⟨fun _ _ => by simp [k1], fun h => ?_, fun _ => by simp [k2, k3, k4], fun h => ?_⟩
      · exact absurd hr (h a (by simp) p)
      · simp [State.latched_latch, k6, h, k5]

/-- A bus read leaves RAM as it is. -/
theorem memRead_ramEq (h : memRead a s = .ok v t) : t.ram = s.ram := by
  unfold memRead regionRead at h
  cases hr : regionOf a <;> simp only [hr] at h
  case ram i => cases h; simp
  case rom i => cases h; simp
  case unrouted => unfold unroutedRead at h; split at h <;> cases h; simp
  case port p =>
    cases p <;> simp only [portRead, readWriteOnly, readStatus] at h
    case status => cases h; unfold spriteBits; split <;> simp
    case oamData => cases h; simp
    case data => cases h; simp
    all_goals (split at h <;> cases h; simp)

theorem memWrite_touches {x : Unit} (h : memWrite a v s = .ok x t) : Touches [] [a] s t := by
  unfold memWrite regionWrite at h
  have hl := Touches.latched s v
  cases hr : regionOf a <;> simp only [hr] at h
  case ram i =>
    cases h
    refine ⟨fun j hj => ?_, fun _ => by simp, fun _ => by simp, fun h => by simp [State.latched_latch, h]⟩
    have : j ≠ i := fun e => hj a (by simp) (by rw [hr, e])
    simp [Memory.read_write_other this]
  case rom i => cases h
  case unrouted =>
    unfold unroutedWrite at h
    split at h
    · cases h; exact ⟨fun _ _ => by simp, fun _ => by simp, fun _ => by simp, hl.latch⟩
    · cases h
  case port p =>
    have key : t.ram = s.ram ∧ (p ≠ .oamData → p ≠ .data → t.video.vram = s.video.vram ∧
        t.video.palette = s.video.palette ∧ t.video.oam = s.video.oam) ∧ t.latch = (s.latched v).latch := by
      cases p <;> simp only [portWrite] at h
      case status => split at h <;> cases h; simp
      case scroll =>
        cases h
        refine ⟨by simp, fun _ _ => ?_, rfl⟩
        simp only [State.setVideo_video, State.latched_video, State.latched_cfg, Video.writeScroll, Video.fillScroll]
        split <;> dsimp only <;> split <;> exact ⟨rfl, rfl, rfl⟩
      case data =>
        split at h
        · cases h; simp
        · cases h
      all_goals cases h; simp [Video.writeCtrl, Video.writeAddr]
    obtain ⟨k1, k2, k3⟩ := key
    refine ⟨fun _ _ => by rw [k1], fun h => absurd hr (h a (by simp) p), fun h => ?_, fun h => ?_⟩
    · have := h a (by simp)
      rw [hr] at this
      exact k2 (by intro e; exact this.1 (by rw [e])) (by intro e; exact this.2 (by rw [e]))
    · rw [k3]; exact hl.latch h

/-! ## How accesses can fail -/

/-- A fault of a bus access: always `InvalidAddress`, with no memory changed. -/
theorem memRead_fail (h : memRead a s = .fail k t) : (∃ info, k = .invalidAddress info) ∧ t = s := by
  unfold memRead regionRead at h
  cases hr : regionOf a <;> simp only [hr] at h
  case ram i => cases h
  case rom i => cases h
  case unrouted => unfold unroutedRead at h; split at h <;> cases h; exact ⟨⟨_, rfl⟩, rfl⟩
  case port p =>
    cases p <;> simp only [portRead, readWriteOnly, readStatus] at h
    all_goals first
      | cases h
      | (split at h <;> cases h; exact ⟨⟨_, rfl⟩, rfl⟩)

theorem memWrite_fail (h : memWrite a v s = .fail k t) : (∃ info, k = .invalidAddress info) ∧ t = s.latched v := by
  unfold memWrite regionWrite at h
  cases hr : regionOf a <;> simp only [hr] at h
  case ram i => cases h
  case rom i => cases h; exact ⟨⟨_, rfl⟩, rfl⟩
  case unrouted => unfold unroutedWrite at h; split at h <;> cases h; exact ⟨⟨_, rfl⟩, rfl⟩
  case port p =>
    cases p <;> simp only [portWrite] at h
    all_goals first
      | cases h
      | (split at h <;> cases h; exact ⟨⟨_, rfl⟩, rfl⟩)

/-! ## Addressing modes -/

/-- The modes that have an effective address (30_encoding R105). -/
def Operand.addressed : Operand → Bool
  | .implied | .accumulator | .indirect _ | .relative _ => false
  | .immediate _ | .zeroPage _ | .zeroPageX _ | .zeroPageY _ | .absolute _ | .absoluteX _ | .absoluteY _
  | .indexedIndirect _ | .indirectIndexed _ => true

/-- 30_encoding R111 to R120: resolving an operand only reads RAM; it fails exactly where there is no effective address. -/
theorem resolve_cases (o : Operand) (s : State) :
    (Operand.addressed o = true ∧ ∃ r t, resolve o s = .ok r t ∧ BusStep s t ∧ Touches [] [] s t ∧ t.draws = s.draws ∧
      t.ram = s.ram) ∨
    (Operand.addressed o = false ∧ resolve o s = .fail .addressingModeUnsupported s) := by
  cases o
  case indexedIndirect b =>
    exact .inl ⟨rfl, _, _, by rw [resolve, zeroPagePointer_eq]; rfl, .latched s _, .latched s _, by simp, by simp⟩
  case indirectIndexed b =>
    exact .inl ⟨rfl, _, _, by rw [resolve, zeroPagePointer_eq]; rfl, .latched s _, .latched s _, by simp, by simp⟩
  all_goals first
    | exact .inl ⟨rfl, _, _, rfl, .refl s, .refl _ _ s, rfl, rfl⟩
    | exact .inr ⟨rfl, rfl⟩

theorem resolve_ok {o : Operand} {r : Resolved} (h : resolve o s = .ok r t) :
    Operand.addressed o = true ∧ BusStep s t ∧ Touches [] [] s t ∧ t.draws = s.draws ∧ t.ram = s.ram := by
  rcases resolve_cases o s with ⟨h1, r', t', h2, h3⟩ | ⟨_, h2⟩
  · rw [h] at h2; cases h2; exact ⟨h1, h3⟩
  · rw [h] at h2; cases h2

theorem resolve_fail {o : Operand} (h : resolve o s = .fail k t) :
    Operand.addressed o = false ∧ k = .addressingModeUnsupported ∧ t = s := by
  rcases resolve_cases o s with ⟨h1, r', t', h2, h3⟩ | ⟨h1, h2⟩
  · rw [h] at h2; cases h2
  · rw [h] at h2; cases h2; exact ⟨h1, rfl, rfl⟩

theorem effective_of_resolve {o : Operand} {r : Resolved} (h : resolve o s = .ok r t) : effective o s = [r.ea] := by
  simp [effective, h]

/-- The data read of an operand that is not immediate. -/
theorem readOperand_of_ne {o : Operand} (h : ∀ b, o ≠ .immediate b) (s : State) :
    readOperand o s = (resolve o s).bind fun r t => (memRead r.ea t).bind fun m u => .ok (m, r.cross) u := by
  cases o <;> first | rfl | exact absurd rfl (h _)

theorem readAddress_of_ne {o : Operand} (h : ∀ b, o ≠ .immediate b) (s : State) : readAddress o s = effective o s := by
  cases o <;> first | rfl | exact absurd rfl (h _)

/-- The data read of an operand: what it changes when it succeeds. -/
theorem readOperand_ok {o : Operand} {m : Byte × Bool} (h : readOperand o s = .ok m t) :
    BusStep s t ∧ Touches (readAddress o s) [] s t := by
  by_cases hi : ∃ b, o = .immediate b
  · obtain ⟨b, rfl⟩ := hi
    cases h
    exact ⟨.refl s, .refl _ _ s⟩
  · have hne : ∀ b, o ≠ .immediate b := fun b e => hi ⟨b, e⟩
    rw [readOperand_of_ne hne] at h
    cases hr : resolve o s with
    | fail k u => rw [hr] at h; cases h
    | ok r u =>
      obtain ⟨-, h1, h2, -⟩ := resolve_ok hr
      rw [hr] at h
      simp only [Access.bind] at h
      cases hm : memRead r.ea u with
      | fail k w => rw [hm] at h; cases h
      | ok b w =>
        rw [hm] at h; cases h
        rw [readAddress_of_ne hne, effective_of_resolve hr]
        exact ⟨h1.trans (memRead_step hm), h2.trans (memRead_touches hm) h1.cfg⟩

/-- The data read of an operand: how it fails. -/
theorem readOperand_fail {o : Operand} (h : readOperand o s = .fail k t) :
    BusStep s t ∧ t.ram = s.ram ∧ (Operand.addressed o = true → ∃ info, k = .invalidAddress info) := by
  by_cases hi : ∃ b, o = .immediate b
  · obtain ⟨b, rfl⟩ := hi
    cases h
  · have hne : ∀ b, o ≠ .immediate b := fun b e => hi ⟨b, e⟩
    rw [readOperand_of_ne hne] at h
    cases hr : resolve o s with
    | fail k' u =>
      obtain ⟨h1, h2, rfl⟩ := resolve_fail hr
      rw [hr] at h; cases h
      exact ⟨.refl _, rfl, fun e => by rw [h1] at e; cases e⟩
    | ok r u =>
      obtain ⟨-, h1, -, -, h3⟩ := resolve_ok hr
      rw [hr] at h
      simp only [Access.bind] at h
      cases hm : memRead r.ea u with
      | ok b w => rw [hm] at h; cases h
      | fail k' w =>
        obtain ⟨h4, rfl⟩ := memRead_fail hm
        rw [hm] at h; cases h
        exact ⟨h1, h3, fun _ => h4⟩

end Sys2Proof.Machine
end

