-- ==== Sys2Proof/Laws/Rules.lean ====
section
/-! SUPPORT. What the rule of an instruction does, shape by shape: the registers, flags and cells it can change when it
completes, and the state it leaves when an access fails. -/

namespace Sys2Proof.Machine

variable {s t u : State} {a : Word} {v : Byte} {k : FaultKind} {rd wr rd' wr' : List Word} {fp : Footprint}

/-- Register and flag updates that stay within a footprint, with nothing else changed but the draw counter. -/
structure Updates (fp : Footprint) (t u : State) : Prop where
  a : fp.a = false → u.a = t.a
  x : fp.x = false → u.x = t.x
  y : fp.y = false → u.y = t.y
  sp : fp.sp = false → u.sp = t.sp
  flags : ∀ f, f ∉ fp.flags → getFlag u.p f = getFlag t.p f
  pc : u.pc = t.pc
  run : u.run = t.run
  ram : u.ram = t.ram
  video : u.video = t.video
  cycles : u.cycles = t.cycles
  latch : u.latch = t.latch
  cart : u.cart = t.cart
  cfg : u.cfg = t.cfg

theorem Updates.keeps (h : Updates fp t u) : Keeps t u :=
  ⟨h.run, h.cart, h.cfg, h.cycles, by rw [h.video], by rw [h.video], by rw [h.video], by rw [h.ram]; exact id,
    by rw [h.video]; exact id⟩

theorem Updates.touches (h : Updates fp t u) : Touches [] [] t u :=
  ⟨fun _ _ => by rw [h.ram], fun _ => h.video, fun _ => by rw [h.video]; exact ⟨rfl, rfl, rfl⟩, fun _ => h.latch⟩

theorem Updates.refl (fp : Footprint) (t : State) : Updates fp t t := by constructor <;> intros <;> rfl

/-- A rule that completed: `s` is the state it began in, `d` its report, `u` the state it left. -/
structure Ran (fp : Footprint) (rd wr : List Word) (s : State) (d : Done) (u : State) : Prop extends Keeps s u where
  a : fp.a = false → u.a = s.a
  x : fp.x = false → u.x = s.x
  y : fp.y = false → u.y = s.y
  sp : fp.sp = false → u.sp = s.sp
  flags : ∀ f, f ∉ fp.flags → getFlag u.p f = getFlag s.p f
  touches : Touches rd wr s u
  stays : d.transferred = false → u.pc = s.pc ∧ d.extra = 0
  transfers : d.transferred = true → fp.transfers = true ∧ d.cross = false ∧ d.extra ≤ 2

/-- A rule that was ended by a failing access: no store was made, no register but those named was written. -/
structure Stopped (fp : Footprint) (wf : Bool) (s : State) (k : FaultKind) (u : State) : Prop extends Keeps s u where
  a : u.a = s.a
  x : u.x = s.x
  y : u.y = s.y
  sp : fp.sp = false → u.sp = s.sp
  flags : ∀ f, f ∉ fp.flags → getFlag u.p f = getFlag s.p f
  pc : u.pc = s.pc
  ram : u.ram = s.ram
  kind : wf = true → ∃ info, k = .invalidAddress info

/-- Both ends of a rule. -/
abbrev Runs (fp : Footprint) (rd wr : List Word) (wf : Bool) (s : State) (r : Access Done) : Prop :=
  r.All (fun d u => Ran fp rd wr s d u) fun k u => Stopped fp wf s k u

/-- A bus access and then updates, with no transfer of control. -/
theorem Ran.of_step {d : Done} (h : BusStep s t) (ht : Touches rd wr s t) (hu : Updates fp t u)
    (hd : d.transferred = false) (he : d.extra = 0) : Ran fp rd wr s d u where
  toKeeps := h.toKeeps.trans hu.keeps
  a := fun e => (hu.a e).trans h.a
  x := fun e => (hu.x e).trans h.x
  y := fun e => (hu.y e).trans h.y
  sp := fun e => (hu.sp e).trans h.sp
  flags := fun f e => (hu.flags f e).trans (by rw [h.p])
  touches := by simpa using ht.trans hu.touches h.cfg
  stays := fun _ => ⟨hu.pc.trans h.pc, he⟩
  transfers := fun e => by rw [hd] at e; cases e

theorem Stopped.of_step {wf : Bool} (h : BusStep s u) (hr : u.ram = s.ram)
    (hk : wf = true → ∃ info, k = .invalidAddress info) : Stopped fp wf s k u :=
  ⟨h.toKeeps, h.a, h.x, h.y, fun _ => h.sp, fun _ _ => by rw [h.p], h.pc, hr, hk⟩

/-- A rule with no bus access. -/
theorem registerOnly_runs {update : State → State} {wf : Bool} (hu : ∀ t, Updates fp t (update t)) (s : State) :
    Runs fp [] [] wf s (registerOnly update s) :=
  Ran.of_step (.refl s) (.refl _ _ s) (hu s) rfl rfl

/-- A rule that reads its operand and then updates registers. -/
theorem readThen_runs {o : Operand} {update : Byte → State → State} {wf : Bool} (hw : wf = true → Operand.addressed o = true)
    (hu : ∀ m t, Updates fp t (update m t)) (s : State) : Runs fp (readAddress o s) [] wf s (readThen o update s) := by
  unfold readThen
  cases h : readOperand o s with
  | ok m t =>
    obtain ⟨h1, h2⟩ := readOperand_ok h
    exact Ran.of_step h1 h2 (hu _ _) rfl rfl
  | fail k t =>
    obtain ⟨h1, h2, h3⟩ := readOperand_fail h
    exact Stopped.of_step h1 h2 fun e => h3 (hw e)

/-- A rule that stores one byte. -/
theorem storeThen_runs {o : Operand} {value : State → Byte} {wf : Bool} (hw : wf = true → Operand.addressed o = true)
    (s : State) : Runs fp [] (effective o s) wf s (storeThen o value s) := by
  unfold storeThen
  cases h : resolve o s with
  | fail k t =>
    obtain ⟨h1, -, rfl⟩ := resolve_fail h
    exact Stopped.of_step (.refl _) rfl fun e => by rw [hw e] at h1; cases h1
  | ok r t =>
    obtain ⟨-, h1, h2, -, h4⟩ := resolve_ok h
    simp only [Access.bind]
    cases hm : memWrite r.ea (value t) t with
    | ok x w =>
      rw [effective_of_resolve h]
      have := memWrite_step hm
      exact Ran.of_step (h1.trans this) (h2.trans (memWrite_touches hm) h1.cfg) (.refl _ _) rfl rfl
    | fail k w =>
      obtain ⟨h5, rfl⟩ := memWrite_fail hm
      exact Stopped.of_step (h1.setLatched _) (by simp [h4]) fun _ => h5

/-- A read-modify-write rule. `before` writes flags only. -/
theorem modifyThen_runs {o : Operand} {result : Byte → State → Byte} {before : Byte → State → State}
    {after : Byte → Byte → State → State} {wf : Bool} (hw : wf = true → Operand.addressed o = true)
    (hb : ∀ m t, ∃ q, before m t = t.setP q ∧ ∀ f, f ∉ fp.flags → getFlag q f = getFlag t.p f)
    (ha : ∀ m r t, Updates fp t (after m r t)) (s : State) :
    Runs fp (effective o s) (effective o s) wf s (modifyThen o result before after s) := by
  unfold modifyThen
  cases h : resolve o s with
  | fail k t =>
    obtain ⟨h1, -, rfl⟩ := resolve_fail h
    exact Stopped.of_step (.refl _) rfl fun e => by rw [hw e] at h1; cases h1
  | ok r t =>
    obtain ⟨-, h1, h2, -, h4⟩ := resolve_ok h
    simp only [Access.bind]
    cases hm : memRead r.ea t with
    | fail k w =>
      obtain ⟨h5, rfl⟩ := memRead_fail hm
      exact Stopped.of_step h1 h4 fun _ => h5
    | ok m w =>
      obtain ⟨q, hq, hf⟩ := hb m w
      have g1 := h1.trans (memRead_step hm)
      have g2 := h2.trans (memRead_touches hm) h1.cfg
      simp only []
      rw [hq]
      cases hv : memWrite r.ea (result m w) (w.setP q) with
      | fail k z =>
        obtain ⟨h5, rfl⟩ := memWrite_fail hv
        have g3 := memRead_ramEq hm
        exact ⟨(g1.setLatched (result m w)).toKeeps.trans ⟨by simp, by simp, by simp, by simp, by simp, by simp, by simp, by simp, by simp⟩,
          by simp [g1.a], by simp [g1.x], by simp [g1.y], fun _ => by simp [g1.sp],
          fun f e => by simp [hf f e, g1.p], by simp [g1.pc], by simp [g3, h4], fun _ => h5⟩
      | ok y z =>
        rw [effective_of_resolve h]
        have k1 := memWrite_step hv
        have k2 := ha m (result m w) z
        have k0 : Keeps w (w.setP q) := ⟨rfl, rfl, rfl, rfl, rfl, rfl, rfl, id, id⟩
        have g3 : Touches [] [r.ea] w z :=
          have h := memWrite_touches hv
          ⟨h.ram, h.video, h.videoMemory, h.latch⟩
        refine ⟨g1.toKeeps.trans ((k0.trans k1.toKeeps).trans k2.keeps),
          fun e => (k2.a e).trans (k1.a.trans g1.a), fun e => (k2.x e).trans (k1.x.trans g1.x),
          fun e => (k2.y e).trans (k1.y.trans g1.y), fun e => (k2.sp e).trans (k1.sp.trans g1.sp),
          fun f e => (k2.flags f e).trans (by rw [k1.p, State.setP_p, hf f e, g1.p]), ?_,
          fun _ => ⟨k2.pc.trans (k1.pc.trans g1.pc), rfl⟩, fun e => by cases e⟩
        have k3 := (g2.trans g3 g1.cfg).trans k2.touches (k1.cfg.trans g1.cfg)
        simpa using k3

/-- A high-byte store, whose value is read from registers alone. -/
theorem highStore_runs {o : Operand} {value : State → Byte} {wf : Bool} (hw : wf = true → Operand.addressed o = true)
    (hv : ∀ t, BusStep s t → value t = value s) :
    Runs fp [] (highAddress o (value s) s) wf s (highStore o value s) := by
  unfold highStore
  cases h : resolve o s with
  | fail k t =>
    obtain ⟨h1, -, rfl⟩ := resolve_fail h
    exact Stopped.of_step (.refl _) rfl fun e => by rw [hw e] at h1; cases h1
  | ok r t =>
    obtain ⟨-, h1, h2, -, h4⟩ := resolve_ok h
    simp only [Access.bind]
    rw [hv t h1]
    cases hm : memWrite (highStoreAddress r (value s)) (highStoreValue r (value s)) t with
    | ok x w =>
      have : highAddress o (value s) s = [highStoreAddress r (value s)] := by simp [highAddress, h]
      rw [this]
      exact Ran.of_step (h1.trans (memWrite_step hm)) (h2.trans (memWrite_touches hm) h1.cfg) (.refl _ _) rfl rfl
    | fail k w =>
      obtain ⟨h5, rfl⟩ := memWrite_fail hm
      exact Stopped.of_step (h1.setLatched _) (by simp [h4]) fun _ => h5

/-- A branch. -/
theorem branch_runs {taken : Bool} {disp : Byte} {wf : Bool} (hf : fp.transfers = true) (s : State) :
    Runs fp [] [] wf s (branch taken disp s) := by
  unfold branch
  cases taken
  · exact Ran.of_step (.refl s) (.refl _ _ s) (.refl _ s) rfl rfl
  · refine ⟨⟨rfl, rfl, rfl, rfl, rfl, rfl, rfl, id, id⟩, fun _ => rfl, fun _ => rfl, fun _ => rfl, fun _ => rfl,
      fun _ _ => rfl, ⟨fun _ _ => rfl, fun _ => rfl, fun _ => ⟨rfl, rfl, rfl⟩, fun _ => rfl⟩, fun e => (by cases e),
      fun _ => ⟨hf, rfl, ?_⟩⟩
    dsimp only; split <;> decide

/-- A transfer of control after accesses that kept every register that `fp` does not name. -/
theorem Ran.of_transfer {d : Done} {w : Word} (hk : Keeps s t) (ht : Touches rd wr s t) (ha : t.a = s.a) (hx : t.x = s.x)
    (hy : t.y = s.y) (hs : fp.sp = false → t.sp = s.sp) (hp : ∀ f, f ∉ fp.flags → getFlag t.p f = getFlag s.p f)
    (hf : fp.transfers = true) (hd : d = { transferred := true }) : Ran fp rd wr s d (t.setPc w) where
  toKeeps := hk.trans ⟨rfl, rfl, rfl, rfl, rfl, rfl, rfl, id, id⟩
  a := fun _ => ha
  x := fun _ => hx
  y := fun _ => hy
  sp := hs
  flags := hp
  touches := ⟨ht.ram, ht.video, ht.videoMemory, ht.latch⟩
  stays := fun e => by rw [hd] at e; cases e
  transfers := fun _ => by rw [hd]; exact ⟨hf, rfl, by decide⟩

end Sys2Proof.Machine
end

