-- ==== Sys2Proof/Laws/Exec.lean ====
section
/-! SUPPORT. What `exec` can do, for any instruction: it runs the instruction's rule, whose reach Laws/Rules.lean bounds by
the footprint; then the inversion of `exec` for each outcome. -/

namespace Sys2Proof.Machine

variable {s t u : State} {fp : Footprint} {i : Instr}

/-! ## Register and flag updates -/

theorem Updates.trans (h : Updates fp s t) (g : Updates fp t u) : Updates fp s u :=
  ⟨fun e => (g.a e).trans (h.a e), fun e => (g.x e).trans (h.x e), fun e => (g.y e).trans (h.y e),
    fun e => (g.sp e).trans (h.sp e), fun f e => (g.flags f e).trans (h.flags f e), g.pc.trans h.pc, g.run.trans h.run,
    g.ram.trans h.ram, g.video.trans h.video, g.cycles.trans h.cycles, g.latch.trans h.latch, g.cart.trans h.cart,
    g.cfg.trans h.cfg⟩

theorem Updates.setA (h : fp.a = true) (t : State) (v : Byte) : Updates fp t (t.setA v) :=
  ⟨fun e => (by rw [h] at e; cases e), fun _ => rfl, fun _ => rfl, fun _ => rfl, fun _ _ => rfl, rfl, rfl, rfl, rfl, rfl, rfl,
    rfl, rfl⟩

theorem Updates.setX (h : fp.x = true) (t : State) (v : Byte) : Updates fp t (t.setX v) :=
  ⟨fun _ => rfl, fun e => (by rw [h] at e; cases e), fun _ => rfl, fun _ => rfl, fun _ _ => rfl, rfl, rfl, rfl, rfl, rfl, rfl,
    rfl, rfl⟩

theorem Updates.setY (h : fp.y = true) (t : State) (v : Byte) : Updates fp t (t.setY v) :=
  ⟨fun _ => rfl, fun _ => rfl, fun e => (by rw [h] at e; cases e), fun _ => rfl, fun _ _ => rfl, rfl, rfl, rfl, rfl, rfl, rfl,
    rfl, rfl⟩

theorem Updates.setSp (h : fp.sp = true) (t : State) (v : Byte) : Updates fp t (t.setSp v) :=
  ⟨fun _ => rfl, fun _ => rfl, fun _ => rfl, fun e => (by rw [h] at e; cases e), fun _ _ => rfl, rfl, rfl, rfl, rfl, rfl, rfl,
    rfl, rfl⟩

theorem Updates.setP (t : State) (q : Byte) (h : ∀ f, f ∉ fp.flags → getFlag q f = getFlag t.p f) :
    Updates fp t (t.setP q) :=
  ⟨fun _ => rfl, fun _ => rfl, fun _ => rfl, fun _ => rfl, h, rfl, rfl, rfl, rfl, rfl, rfl, rfl, rfl⟩

theorem Updates.setDraws (t : State) (n : Nat) : Updates fp t (t.setDraws n) :=
  ⟨fun _ => rfl, fun _ => rfl, fun _ => rfl, fun _ => rfl, fun _ _ => rfl, rfl, rfl, rfl, rfl, rfl, rfl, rfl, rfl⟩

/-- A flag outside a list that holds another is not that other. -/
theorem ne_of_not_mem {f g : Flag} {l : List Flag} (h : f ∉ l) (hg : l.contains g = true) : f ≠ g := fun e =>
  h (by rw [e]; simpa using hg)

theorem setNZ_within {p r : Byte} (hn : fp.flags.contains .n = true) (hz : fp.flags.contains .z = true) (f : Flag) (h : f ∉ fp.flags) :
    getFlag (setNZ p r) f = getFlag p f := by
  rw [getFlag_setNZ, if_neg (ne_of_not_mem h hn), if_neg (ne_of_not_mem h hz)]

theorem setFlag_within {p : Byte} {g : Flag} {v : Bool} (hg : fp.flags.contains g = true) (f : Flag) (h : f ∉ fp.flags) :
    getFlag (setFlag p g v) f = getFlag p f := by rw [getFlag_setFlag, if_neg (ne_of_not_mem h hg)]

theorem Updates.loadA (h : fp.a = true) (hn : fp.flags.contains .n = true) (hz : fp.flags.contains .z = true) (t : State) (v : Byte) :
    Updates fp t (t.loadA v) := (Updates.setA h t v).trans (.setP _ _ (setNZ_within hn hz))

theorem Updates.loadX (h : fp.x = true) (hn : fp.flags.contains .n = true) (hz : fp.flags.contains .z = true) (t : State) (v : Byte) :
    Updates fp t (t.loadX v) := (Updates.setX h t v).trans (.setP _ _ (setNZ_within hn hz))

theorem Updates.loadY (h : fp.y = true) (hn : fp.flags.contains .n = true) (hz : fp.flags.contains .z = true) (t : State) (v : Byte) :
    Updates fp t (t.loadY v) := (Updates.setY h t v).trans (.setP _ _ (setNZ_within hn hz))

theorem Updates.addCore (h : fp.a = true) (hn : fp.flags.contains .n = true) (hz : fp.flags.contains .z = true) (hv : fp.flags.contains .v = true)
    (hc : fp.flags.contains .c = true) (t : State) (m : Byte) : Updates fp t (t.addCore m) :=
  (Updates.setA h t _).trans (.setP _ _ fun f e => by
    rw [getFlag_addFlags, if_neg (ne_of_not_mem e hn), if_neg (ne_of_not_mem e hz), if_neg (ne_of_not_mem e hv),
      if_neg (ne_of_not_mem e hc)]; rfl)

theorem Updates.compare (hn : fp.flags.contains .n = true) (hz : fp.flags.contains .z = true) (hc : fp.flags.contains .c = true) (t : State)
    (r m : Byte) : Updates fp t (t.compare r m) := .setP _ _ fun f e => by
  rw [getFlag_compareFlags, if_neg (ne_of_not_mem e hn), if_neg (ne_of_not_mem e hz), if_neg (ne_of_not_mem e hc)]

theorem Updates.writeFlag {g : Flag} (hg : fp.flags.contains g = true) (t : State) (v : Bool) : Updates fp t (t.writeFlag g v) :=
  .setP _ _ (setFlag_within hg)

theorem Updates.shiftC (hc : fp.flags.contains .c = true) (t : State) (k : ShiftKind) (m : Byte) : Updates fp t (t.shiftC k m) :=
  .setP _ _ (setFlag_within hc)

theorem Updates.bit (hn : fp.flags.contains .n = true) (hz : fp.flags.contains .z = true) (hv : fp.flags.contains .v = true) (t : State) (m : Byte) :
    Updates fp t (t.setP (bitFlags t.p t.a m)) := .setP _ _ fun f e => by
  rw [getFlag_bitFlags, if_neg (ne_of_not_mem e hv), if_neg (ne_of_not_mem e hn), if_neg (ne_of_not_mem e hz)]

theorem Updates.anc (h : fp.a = true) (hn : fp.flags.contains .n = true) (hz : fp.flags.contains .z = true) (hc : fp.flags.contains .c = true)
    (t : State) (r : Byte) : Updates fp t ((t.setA r).setP (ancFlags t.p r)) :=
  (Updates.setA h t r).trans (.setP _ _ fun f e => by
    rw [getFlag_ancFlags, if_neg (ne_of_not_mem e hc), if_neg (ne_of_not_mem e hn), if_neg (ne_of_not_mem e hz)]; rfl)

theorem Updates.arr (h : fp.a = true) (hn : fp.flags.contains .n = true) (hz : fp.flags.contains .z = true) (hv : fp.flags.contains .v = true)
    (hc : fp.flags.contains .c = true) (t : State) (m : Byte) : Updates fp t (t.arr m) :=
  (Updates.setA h t _).trans (.setP _ _ fun f e => by
    rw [getFlag_arrFlags, if_neg (ne_of_not_mem e hv), if_neg (ne_of_not_mem e hc), if_neg (ne_of_not_mem e hn),
      if_neg (ne_of_not_mem e hz)]; rfl)

theorem Updates.magic (t : State) : Updates fp t (magicByte t).2 := by
  unfold magicByte; split
  · exact .refl fp t
  · exact .setDraws t _

theorem Updates.ane (h : fp.a = true) (hn : fp.flags.contains .n = true) (hz : fp.flags.contains .z = true) (t : State) (m : Byte) :
    Updates fp t (t.ane m) := (Updates.magic t).trans (.loadA h hn hz _ _)

theorem Updates.lxa (h : fp.a = true) (hx : fp.x = true) (hn : fp.flags.contains .n = true) (hz : fp.flags.contains .z = true) (t : State)
    (m : Byte) : Updates fp t (t.lxa m) := (Updates.magic t).trans ((Updates.setX hx _ _).trans (.loadA h hn hz _ _))

theorem shiftFlags_within {k : ShiftKind} {p m : Byte} (hc : fp.flags.contains .c = true) (f : Flag) (h : f ∉ fp.flags) :
    getFlag (shiftFlags k p m) f = getFlag p f := setFlag_within hc f h

theorem Updates.shiftAccumulator (h : fp.a = true) (hn : fp.flags.contains .n = true) (hz : fp.flags.contains .z = true)
    (hc : fp.flags.contains .c = true) (k : ShiftKind) (t : State) : Updates fp t (shiftAccumulator k t) :=
  (Updates.setA h t _).trans (.setP _ _ fun f e => by
    rw [setNZ_within hn hz f e, shiftFlags_within hc f e]; rfl)

/-! ## The rules -/

theorem addressed_of_mem {o : Operand} {l : List Mode} (hl : (l.all fun m => m ≠ .imp && m ≠ .acc && m ≠ .ind && m ≠ .rel) = true)
    (h : l.contains o.mode = true) : Operand.addressed o = true := by
  have := List.all_eq_true.1 hl o.mode (by simpa using h)
  cases o <;> first | rfl | (simp [Operand.mode] at this)

theorem shiftOperand_runs {k : ShiftKind} {o : Operand} {wf : Bool} (hw : wf = true → o ≠ .accumulator → Operand.addressed o = true)
    (ha : fp.a = decide (o = .accumulator)) (hn : fp.flags.contains .n = true) (hz : fp.flags.contains .z = true) (hc : fp.flags.contains .c = true)
    (s : State) : Runs fp (effective o s) (effective o s) wf s (shiftOperand k o s) := by
  by_cases h : o = .accumulator
  · subst h; exact registerOnly_runs (fun t => .shiftAccumulator (by simpa using ha) hn hz hc k t) s
  · have : shiftOperand k o s = shiftMemory k o s := by cases o <;> first | rfl | exact absurd rfl h
    rw [this]
    exact modifyThen_runs (fun e => hw e h) (fun m t => ⟨_, rfl, shiftFlags_within hc⟩)
      (fun m r t => .setP _ _ (setNZ_within hn hz)) s

theorem pushThen_runs {value : State → Byte} {wf : Bool} (h : fp.sp = true) (s : State) :
    Runs fp [] [stackCell s.sp] wf s (pushThen value s) := by
  unfold pushThen push
  rw [memWrite_ram (regionOf_stackCell s.sp)]
  have hm := memWrite_ram (regionOf_stackCell s.sp) (value s) s
  exact Ran.of_step (memWrite_step hm) (memWrite_touches hm) (.setSp h _ _) rfl rfl

/-- A pop is a read of a RAM cell after SP has moved. -/
theorem pop_touches (s : State) : ∃ v, pop s = .ok v ((s.setSp (s.sp + 1)).latched v) := ⟨_, pop_eq s⟩

theorem popThen_runs {update : Byte → State → State} {wf : Bool} (h : fp.sp = true)
    (hu : ∀ v t, Updates fp t (update v t)) (s : State) :
    Runs fp [stackCell (s.sp + 1)] [] wf s (popThen update s) := by
  unfold popThen
  rw [pop_eq]
  have h1 : Updates fp s (s.setSp (s.sp + 1)) := .setSp h _ _
  have h2 := BusStep.latched (s.setSp (s.sp + 1)) (s.ram.read (0x100 + (s.sp + 1).toNat))
  have h3 := hu (s.ram.read (0x100 + (s.sp + 1).toNat)) ((s.setSp (s.sp + 1)).latched (s.ram.read (0x100 + (s.sp + 1).toNat)))
  have h4 := Touches.latched (s.setSp (s.sp + 1)) (s.ram.read (0x100 + (s.sp + 1).toNat))
  exact
    { toKeeps := h1.keeps.trans (h2.toKeeps.trans h3.keeps)
      a := fun e => (h3.a e).trans (h2.a.trans (h1.a e))
      x := fun e => (h3.x e).trans (h2.x.trans (h1.x e))
      y := fun e => (h3.y e).trans (h2.y.trans (h1.y e))
      sp := fun e => by rw [h] at e; cases e
      flags := fun f e => (h3.flags f e).trans (by rw [h2.p]; exact h1.flags f e)
      touches :=
        have k := (h4.trans h3.touches h2.cfg)
        ⟨k.ram, fun _ => k.video (by simp), k.videoMemory, k.latch⟩
      stays := fun _ => ⟨h3.pc.trans (h2.pc.trans h1.pc), rfl⟩
      transfers := fun e => by cases e }

/-- Two reads and a jump. -/
theorem jumpIndirect_runs {wf : Bool} (hf : fp.transfers = true) (ptr : Word) (s : State) :
    Runs fp [ptr, samePageNext ptr] [] wf s (jumpIndirect ptr s) := by
  unfold jumpIndirect
  cases h : memRead ptr s with
  | fail k t =>
    obtain ⟨h1, rfl⟩ := memRead_fail h
    exact Stopped.of_step (.refl _) rfl fun _ => h1
  | ok l t =>
    simp only [Access.bind]
    cases h' : memRead (samePageNext ptr) t with
    | fail k u =>
      obtain ⟨h1, rfl⟩ := memRead_fail h'
      exact Stopped.of_step (memRead_step h) (memRead_ramEq h) fun _ => h1
    | ok b u =>
      have h1 := memRead_step h
      have h2 := h1.trans (memRead_step h')
      exact Ran.of_transfer h2.toKeeps ((memRead_touches h).trans (memRead_touches h') h1.cfg) h2.a h2.x h2.y
        (fun _ => h2.sp) (fun _ _ => by rw [h2.p]) hf rfl

theorem jump_runs {wf : Bool} (hf : fp.transfers = true) (w : Word) (s : State) :
    Runs fp [] [] wf s (.ok { transferred := true } (s.setPc w)) :=
  Ran.of_transfer (.refl s) (.refl _ _ s) rfl rfl rfl (fun _ => rfl) (fun _ _ => rfl) hf rfl

theorem callSubroutine_runs {wf : Bool} (hs : fp.sp = true) (hf : fp.transfers = true) (w : Word) (s : State) :
    Runs fp [] [stackCell s.sp, stackCell (s.sp - 1)] wf s (callSubroutine w s) := by
  have h1 := memWrite_ram (regionOf_stackCell s.sp) (hi (s.pc + 1)) s
  let t := ((s.latched (hi (s.pc + 1))).setRam (s.ram.write (0x100 + s.sp.toNat) (hi (s.pc + 1)))).setSp (s.sp - 1)
  have h2 := memWrite_ram (regionOf_stackCell (s.sp - 1)) (lo (s.pc + 1)) t
  have e : callSubroutine w s = .ok { transferred := true }
      ((((t.latched (lo (s.pc + 1))).setRam (t.ram.write (0x100 + (s.sp - 1).toNat) (lo (s.pc + 1)))).setSp (s.sp - 1 - 1)).setPc w) := by
    simp only [callSubroutine, push_eq, Access.bind]; simp [t]
  rw [e]
  have b1 := memWrite_step h1
  have b2 := memWrite_step h2
  have k0 : Keeps ((s.latched (hi (s.pc + 1))).setRam (s.ram.write (0x100 + s.sp.toNat) (hi (s.pc + 1)))) t :=
    ⟨rfl, rfl, rfl, rfl, rfl, rfl, rfl, id, id⟩
  have t1 := memWrite_touches h1
  have t2 : Touches [] [stackCell (s.sp - 1)] ((s.latched (hi (s.pc + 1))).setRam (s.ram.write (0x100 + s.sp.toNat) (hi (s.pc + 1)))) _ :=
    have h := memWrite_touches h2
    ⟨h.ram, h.video, h.videoMemory, h.latch⟩
  refine Ran.of_transfer ((b1.toKeeps.trans k0).trans (b2.toKeeps.trans ⟨rfl, rfl, rfl, rfl, rfl, rfl, rfl, id, id⟩)) ?_
    (b2.a.trans b1.a) (b2.x.trans b1.x) (b2.y.trans b1.y) (fun e => by rw [hs] at e; cases e)
    (fun f _ => congrArg (getFlag · f) (b2.p.trans b1.p)) hf rfl
  have h := t1.trans t2 b1.cfg
  exact ⟨h.ram, h.video, h.videoMemory, h.latch⟩

theorem returnFromSubroutine_eq (s : State) :
    returnFromSubroutine s = .ok { transferred := true }
      (((s.setSp (s.sp + 1 + 1)).latched (s.ram.read (0x100 + (s.sp + 1 + 1).toNat))).setPc
        (word (s.ram.read (0x100 + (s.sp + 1 + 1).toNat)) (s.ram.read (0x100 + (s.sp + 1).toNat)) + 1)) := by
  simp only [returnFromSubroutine, pop_eq, Access.bind]; simp; rfl

theorem returnFromInterrupt_eq (s : State) :
    returnFromInterrupt s = .ok { transferred := true }
      ((((s.setSp (s.sp + 1 + 1 + 1)).setP (pulledStatus (s.ram.read (0x100 + (s.sp + 1).toNat)))).latched
        (s.ram.read (0x100 + (s.sp + 1 + 1 + 1).toNat))).setPc
        (word (s.ram.read (0x100 + (s.sp + 1 + 1 + 1).toNat)) (s.ram.read (0x100 + (s.sp + 1 + 1).toNat)))) := by
  simp only [returnFromInterrupt, pop_eq, Access.bind]; simp; rfl

theorem returnFromSubroutine_runs {wf : Bool} (hs : fp.sp = true) (hf : fp.transfers = true) (s : State) :
    Runs fp rd [] wf s (returnFromSubroutine s) := by
  rw [returnFromSubroutine_eq]
  refine Ran.of_transfer (Keeps.trans (t := s.setSp (s.sp + 1 + 1)) ⟨rfl, rfl, rfl, rfl, rfl, rfl, rfl, id, id⟩
    (BusStep.latched _ _).toKeeps) ⟨fun _ _ => by simp, fun _ => by simp, fun _ => by simp, fun h => ?_⟩
    (by simp) (by simp) (by simp) (fun e => by rw [hs] at e; cases e) (fun _ _ => by simp) hf rfl
  rw [State.latched_latch, if_neg (by simp [h])]; rfl

theorem returnFromInterrupt_runs {wf : Bool} (hs : fp.sp = true) (hp : ∀ f, f ∈ fp.flags) (hf : fp.transfers = true)
    (s : State) : Runs fp rd [] wf s (returnFromInterrupt s) := by
  rw [returnFromInterrupt_eq]
  refine Ran.of_transfer (Keeps.trans (t := (s.setSp (s.sp + 1 + 1 + 1)).setP _) ⟨rfl, rfl, rfl, rfl, rfl, rfl, rfl, id, id⟩
    (BusStep.latched _ _).toKeeps) ⟨fun _ _ => by simp, fun _ => by simp, fun _ => by simp, fun h => ?_⟩
    (by simp) (by simp) (by simp) (fun e => by rw [hs] at e; cases e) (fun f e => absurd (hp f) e) hf rfl
  rw [State.latched_latch, if_neg (by simp [h])]; rfl

/-! ## `exec` -/

/-- How `exec` answers: by `perform` of a rule, or by the policies of JAM and of the unstable opcodes. -/
inductive Answers (i : Instr) (s : State) (rule : State → Access Done) : Prop where
  | performs (h : exec i s = perform i rule s)
  | sticks (hp : s.cfg.jamPolicy = .stuck) (hi : ∃ k, i = .jam k) (h : exec i s = .fault (.stuck s))
  | refuses (hp : s.cfg.unstablePolicy = .refuse) (opc : Byte) (r : Row) (hr : rowOf i = some (opc, r))
      (h : exec i s = refuseUnstable (s.pc - 1) opc s)

theorem answers_unstable {rule : State → Access Done} (h : exec i s = performUnstable i rule s) : Answers i s rule := by
  unfold performUnstable at h
  split at h
  · rename_i opc r hr hp; exact .refuses hp opc r hr h
  · exact .performs h

/-- The rule of every instruction but the halt, and its reach. -/
theorem exec_rule (hi : i ≠ .brk) (s : State) :
    ∃ rule, Runs (footprint i) (loads i s) (stores i s) i.wf s (rule s) ∧ Answers i s rule := by
  have mem : ∀ {o : Operand} {l : List Mode}, i.modes = some (o, l) →
      (l.all fun m => m ≠ .imp && m ≠ .acc && m ≠ .ind && m ≠ .rel) = true → i.wf = true → Operand.addressed o = true :=
    fun {o l} h1 h2 h3 => addressed_of_mem h2 (by simpa [Instr.wf, h1] using h3)
  have shift : ∀ {o : Operand}, i.modes = some (o, .acc :: modifyModes) → i.wf = true → o ≠ .accumulator →
      Operand.addressed o = true := fun {o} h1 h3 h4 => by
    have h : o.mode = .acc ∨ modifyModes.contains o.mode = true := by simpa [Instr.wf, h1] using h3
    rcases h with h | h
    · cases o <;> first | exact absurd rfl h4 | cases h
    · exact addressed_of_mem (by decide) h
  cases i with
  | lda o =>
    exact ⟨_, readThen_runs (mem rfl (by decide)) (fun m t => .loadA rfl rfl rfl t _) s, .performs rfl⟩
  | ldx o =>
    exact ⟨_, readThen_runs (mem rfl (by decide)) (fun m t => .loadX rfl rfl rfl t _) s, .performs rfl⟩
  | ldy o =>
    exact ⟨_, readThen_runs (mem rfl (by decide)) (fun m t => .loadY rfl rfl rfl t _) s, .performs rfl⟩
  | sta o =>
    exact ⟨_, storeThen_runs (mem rfl (by decide)) s, .performs rfl⟩
  | stx o =>
    exact ⟨_, storeThen_runs (mem rfl (by decide)) s, .performs rfl⟩
  | sty o =>
    exact ⟨_, storeThen_runs (mem rfl (by decide)) s, .performs rfl⟩
  | tax =>
    exact ⟨_, registerOnly_runs (fun t => .loadX rfl rfl rfl t _) s, .performs rfl⟩
  | tay =>
    exact ⟨_, registerOnly_runs (fun t => .loadY rfl rfl rfl t _) s, .performs rfl⟩
  | txa =>
    exact ⟨_, registerOnly_runs (fun t => .loadA rfl rfl rfl t _) s, .performs rfl⟩
  | tya =>
    exact ⟨_, registerOnly_runs (fun t => .loadA rfl rfl rfl t _) s, .performs rfl⟩
  | tsx =>
    exact ⟨_, registerOnly_runs (fun t => .loadX rfl rfl rfl t _) s, .performs rfl⟩
  | txs =>
    exact ⟨_, registerOnly_runs (fun t => .setSp rfl t _) s, .performs rfl⟩
  | adc o =>
    exact ⟨_, readThen_runs (mem rfl (by decide)) (fun m t => .addCore rfl rfl rfl rfl rfl t _) s, .performs rfl⟩
  | sbc o =>
    exact ⟨_, readThen_runs (mem rfl (by decide)) (fun m t => .addCore rfl rfl rfl rfl rfl t _) s, .performs rfl⟩
  | and o =>
    exact ⟨_, readThen_runs (mem rfl (by decide)) (fun m t => .loadA rfl rfl rfl t _) s, .performs rfl⟩
  | ora o =>
    exact ⟨_, readThen_runs (mem rfl (by decide)) (fun m t => .loadA rfl rfl rfl t _) s, .performs rfl⟩
  | eor o =>
    exact ⟨_, readThen_runs (mem rfl (by decide)) (fun m t => .loadA rfl rfl rfl t _) s, .performs rfl⟩
  | cmp o =>
    exact ⟨_, readThen_runs (mem rfl (by decide)) (fun m t => .compare rfl rfl rfl t _ _) s, .performs rfl⟩
  | cpx o =>
    exact ⟨_, readThen_runs (mem rfl (by decide)) (fun m t => .compare rfl rfl rfl t _ _) s, .performs rfl⟩
  | cpy o =>
    exact ⟨_, readThen_runs (mem rfl (by decide)) (fun m t => .compare rfl rfl rfl t _ _) s, .performs rfl⟩
  | bit o =>
    exact ⟨_, readThen_runs (mem rfl (by decide)) (fun m t => .bit rfl rfl rfl t m) s, .performs rfl⟩
  | inc o =>
    exact ⟨_, modifyThen_runs (mem rfl (by decide)) (fun m t => ⟨t.p, rfl, fun _ _ => rfl⟩) (fun m r t => .setP t _ (setNZ_within rfl rfl)) s, .performs rfl⟩
  | dec o =>
    exact ⟨_, modifyThen_runs (mem rfl (by decide)) (fun m t => ⟨t.p, rfl, fun _ _ => rfl⟩) (fun m r t => .setP t _ (setNZ_within rfl rfl)) s, .performs rfl⟩
  | inx =>
    exact ⟨_, registerOnly_runs (fun t => .loadX rfl rfl rfl t _) s, .performs rfl⟩
  | iny =>
    exact ⟨_, registerOnly_runs (fun t => .loadY rfl rfl rfl t _) s, .performs rfl⟩
  | dex =>
    exact ⟨_, registerOnly_runs (fun t => .loadX rfl rfl rfl t _) s, .performs rfl⟩
  | dey =>
    exact ⟨_, registerOnly_runs (fun t => .loadY rfl rfl rfl t _) s, .performs rfl⟩
  | asl o =>
    exact ⟨_, shiftOperand_runs (shift rfl) rfl rfl rfl rfl s, .performs rfl⟩
  | lsr o =>
    exact ⟨_, shiftOperand_runs (shift rfl) rfl rfl rfl rfl s, .performs rfl⟩
  | rol o =>
    exact ⟨_, shiftOperand_runs (shift rfl) rfl rfl rfl rfl s, .performs rfl⟩
  | ror o =>
    exact ⟨_, shiftOperand_runs (shift rfl) rfl rfl rfl rfl s, .performs rfl⟩
  | bpl disp =>
    exact ⟨_, branch_runs rfl s, .performs rfl⟩
  | bmi disp =>
    exact ⟨_, branch_runs rfl s, .performs rfl⟩
  | bvc disp =>
    exact ⟨_, branch_runs rfl s, .performs rfl⟩
  | bvs disp =>
    exact ⟨_, branch_runs rfl s, .performs rfl⟩
  | bcc disp =>
    exact ⟨_, branch_runs rfl s, .performs rfl⟩
  | bcs disp =>
    exact ⟨_, branch_runs rfl s, .performs rfl⟩
  | bne disp =>
    exact ⟨_, branch_runs rfl s, .performs rfl⟩
  | beq disp =>
    exact ⟨_, branch_runs rfl s, .performs rfl⟩
  | jmpAbsolute target =>
    exact ⟨fun t => .ok { transferred := true } (t.setPc target), jump_runs rfl _ s, .performs rfl⟩
  | jmpIndirect ptr =>
    exact ⟨_, jumpIndirect_runs rfl _ s, .performs rfl⟩
  | jsr target =>
    exact ⟨_, callSubroutine_runs rfl rfl _ s, .performs rfl⟩
  | rts =>
    exact ⟨_, returnFromSubroutine_runs rfl rfl s, .performs rfl⟩
  | rti =>
    exact ⟨_, returnFromInterrupt_runs rfl (fun f => by cases f <;> decide) rfl s, .performs rfl⟩
  | brk =>
    exact absurd rfl hi
  | clc =>
    exact ⟨_, registerOnly_runs (fun t => .writeFlag rfl t _) s, .performs rfl⟩
  | sec =>
    exact ⟨_, registerOnly_runs (fun t => .writeFlag rfl t _) s, .performs rfl⟩
  | cli =>
    exact ⟨_, registerOnly_runs (fun t => .writeFlag rfl t _) s, .performs rfl⟩
  | sei =>
    exact ⟨_, registerOnly_runs (fun t => .writeFlag rfl t _) s, .performs rfl⟩
  | cld =>
    exact ⟨_, registerOnly_runs (fun t => .writeFlag rfl t _) s, .performs rfl⟩
  | sed =>
    exact ⟨_, registerOnly_runs (fun t => .writeFlag rfl t _) s, .performs rfl⟩
  | clv =>
    exact ⟨_, registerOnly_runs (fun t => .writeFlag rfl t _) s, .performs rfl⟩
  | pha =>
    exact ⟨_, pushThen_runs rfl s, .performs rfl⟩
  | php =>
    exact ⟨_, pushThen_runs rfl s, .performs rfl⟩
  | pla =>
    exact ⟨_, popThen_runs rfl (fun v t => .loadA rfl rfl rfl t _) s, .performs rfl⟩
  | plp =>
    exact ⟨_, popThen_runs rfl (fun v t => .setP t _ fun f h => absurd (by cases f <;> decide) h) s, .performs rfl⟩
  | nop =>
    exact ⟨_, registerOnly_runs (fun t => .refl _ t) s, .performs rfl⟩
  | slo o =>
    exact ⟨_, modifyThen_runs (mem rfl (by decide)) (fun m t => ⟨t.p, rfl, fun _ _ => rfl⟩) (fun m r t => (Updates.shiftC rfl t _ _).trans (.loadA rfl rfl rfl _ _)) s, .performs rfl⟩
  | rla o =>
    exact ⟨_, modifyThen_runs (mem rfl (by decide)) (fun m t => ⟨t.p, rfl, fun _ _ => rfl⟩) (fun m r t => (Updates.shiftC rfl t _ _).trans (.loadA rfl rfl rfl _ _)) s, .performs rfl⟩
  | sre o =>
    exact ⟨_, modifyThen_runs (mem rfl (by decide)) (fun m t => ⟨t.p, rfl, fun _ _ => rfl⟩) (fun m r t => (Updates.shiftC rfl t _ _).trans (.loadA rfl rfl rfl _ _)) s, .performs rfl⟩
  | rra o =>
    exact ⟨_, modifyThen_runs (mem rfl (by decide)) (fun m t => ⟨t.p, rfl, fun _ _ => rfl⟩) (fun m r t => (Updates.shiftC rfl t _ _).trans (.addCore rfl rfl rfl rfl rfl _ _)) s, .performs rfl⟩
  | dcp o =>
    exact ⟨_, modifyThen_runs (mem rfl (by decide)) (fun m t => ⟨t.p, rfl, fun _ _ => rfl⟩) (fun m r t => .compare rfl rfl rfl t _ _) s, .performs rfl⟩
  | isc o =>
    exact ⟨_, modifyThen_runs (mem rfl (by decide)) (fun m t => ⟨t.p, rfl, fun _ _ => rfl⟩) (fun m r t => .addCore rfl rfl rfl rfl rfl t _) s, .performs rfl⟩
  | sax o =>
    exact ⟨_, storeThen_runs (mem rfl (by decide)) s, .performs rfl⟩
  | lax o =>
    exact ⟨_, readThen_runs (mem rfl (by decide)) (fun m t => (Updates.setX rfl t _).trans (.loadA rfl rfl rfl _ _)) s, .performs rfl⟩
  | anc k imm =>
    exact ⟨_, readThen_runs (o := .immediate imm) (fun _ => rfl) (fun m t => .anc rfl rfl rfl rfl t _) s, .performs rfl⟩
  | alr imm =>
    exact ⟨_, readThen_runs (o := .immediate imm) (fun _ => rfl) (fun m t => (Updates.writeFlag rfl t _).trans (.loadA rfl rfl rfl _ _)) s, .performs rfl⟩
  | arr imm =>
    exact ⟨_, readThen_runs (o := .immediate imm) (fun _ => rfl) (fun m t => .arr rfl rfl rfl rfl rfl t m) s, .performs rfl⟩
  | ane imm =>
    exact ⟨_, readThen_runs (o := .immediate imm) (fun _ => rfl) (fun m t => .ane rfl rfl rfl t m) s, answers_unstable rfl⟩
  | lxa imm =>
    exact ⟨_, readThen_runs (o := .immediate imm) (fun _ => rfl) (fun m t => .lxa rfl rfl rfl rfl t m) s, answers_unstable rfl⟩
  | sbx imm =>
    exact ⟨_, readThen_runs (o := .immediate imm) (fun _ => rfl) (fun m t => (Updates.writeFlag rfl t _).trans (.loadX rfl rfl rfl _ _)) s, .performs rfl⟩
  | usbc imm =>
    exact ⟨_, readThen_runs (o := .immediate imm) (fun _ => rfl) (fun m t => .addCore rfl rfl rfl rfl rfl t _) s, .performs rfl⟩
  | sha o =>
    exact ⟨_, highStore_runs (value := fun t => t.a &&& t.x) (mem rfl (by decide)) (fun t h => by rw [h.a, h.x]), answers_unstable rfl⟩
  | tas base =>
    refine ⟨_, ?_, answers_unstable rfl⟩
    have h := highStore_runs (fp := footprint (.tas base)) (o := .absoluteY base) (value := State.sp) (wf := (Instr.tas base).wf)
      (s := s.setSp (s.a &&& s.x)) (fun _ => rfl) (fun t h => h.sp)
    have k : Keeps s (s.setSp (s.a &&& s.x)) := ⟨rfl, rfl, rfl, rfl, rfl, rfl, rfl, id, id⟩
    exact h.mono
      (fun _ _ h => ⟨k.trans h.toKeeps, h.a, h.x, h.y, fun e => (by cases e), h.flags,
        ⟨h.touches.ram, h.touches.video, h.touches.videoMemory, h.touches.latch⟩, h.stays, h.transfers⟩)
      (fun _ _ h => ⟨k.trans h.toKeeps, h.a, h.x, h.y, fun e => (by cases e), h.flags, h.pc, h.ram, h.kind⟩)
  | shy base =>
    exact ⟨_, highStore_runs (o := .absoluteX base) (fun _ => rfl) (fun t h => h.y), answers_unstable rfl⟩
  | shx base =>
    exact ⟨_, highStore_runs (o := .absoluteY base) (fun _ => rfl) (fun t h => h.x), answers_unstable rfl⟩
  | las base =>
    exact ⟨_, readThen_runs (o := .absoluteY base) (fun _ => rfl) (fun m t => (Updates.setX rfl t _).trans ((Updates.setSp rfl _ _).trans (.loadA rfl rfl rfl _ _))) s, .performs rfl⟩
  | nopImplied k =>
    exact ⟨_, registerOnly_runs (fun t => .refl _ t) s, .performs rfl⟩
  | nopImmediate k imm =>
    exact ⟨_, readThen_runs (o := .immediate imm) (fun _ => rfl) (fun m t => .refl _ t) s, .performs rfl⟩
  | nopZeroPage k b =>
    exact ⟨_, readThen_runs (o := .zeroPage b) (fun _ => rfl) (fun m t => .refl _ t) s, .performs rfl⟩
  | nopZeroPageX k b =>
    exact ⟨_, readThen_runs (o := .zeroPageX b) (fun _ => rfl) (fun m t => .refl _ t) s, .performs rfl⟩
  | nopAbsolute w =>
    exact ⟨_, readThen_runs (o := .absolute w) (fun _ => rfl) (fun m t => .refl _ t) s, .performs rfl⟩
  | nopAbsoluteX k w =>
    exact ⟨_, readThen_runs (o := .absoluteX w) (fun _ => rfl) (fun m t => .refl _ t) s, .performs rfl⟩
  | jam k =>
    refine ⟨_, registerOnly_runs (fun t => .refl _ t) s, ?_⟩
    cases hp : s.cfg.jamPolicy
    · exact .performs (by simp [exec, execJam, hp])
    · exact .sticks hp ⟨k, rfl⟩ (by simp [exec, execJam, hp])

/-- What `exec` leaves when it answers a next state. -/
theorem exec_next (h : exec i s = .next t) :
    (i = .brk ∧ t = s.setRun .halted) ∨
    ∃ opc r d u, rowOf i = some (opc, r) ∧ t = finish r s.pc d u ∧ Ran (footprint i) (loads i s) (stores i s) s d u := by
  by_cases hi : i = .brk
  · subst hi; cases h; exact .inl ⟨rfl, rfl⟩
  · obtain ⟨rule, hr, ha⟩ := exec_rule hi s
    cases ha with
    | performs e =>
      rw [e, perform] at h
      split at h
      · cases h
      · rename_i opc r hrow
        cases hd : rule s with
        | ok d u => rw [hd] at h hr; cases h; exact .inr ⟨opc, r, d, u, hrow, rfl, hr⟩
        | fail k u => rw [hd] at h; unfold raise at h; cases k <;> cases h
    | sticks _ _ e => rw [e] at h; cases h
    | refuses _ _ _ _ e => rw [e] at h; cases h

/-- What `exec` leaves when it answers a fault: a failing access of the rule, JAM under `stuck`, or an operand form that has
no row. -/
theorem exec_fault {f : Fault} (h : exec i s = .fault f) :
    (∃ k, i = .jam k ∧ s.cfg.jamPolicy = .stuck ∧ f = .stuck s) ∨
    (i.wf = false ∧ f = .addressingModeUnsupported (faulted .addressingModeUnsupported (s.pc - 1) none s)) ∨
    ∃ opc info u, opcodeOf i = some opc ∧
      f = .invalidAddress info (faulted (.invalidAddress info) (s.pc - 1) (some opc) u) ∧
      Stopped (footprint i) true s (.invalidAddress info) u := by
  have hi : i ≠ .brk := fun e => by subst e; cases h
  obtain ⟨rule, hr, ha⟩ := exec_rule hi s
  cases ha with
  | performs e =>
    rw [e, perform] at h
    split at h
    · rename_i hn
      cases h
      refine .inr (.inl ⟨?_, rfl⟩)
      cases hw : i.wf
      · rfl
      · obtain ⟨_, _, hs, _⟩ := rowOf_wf hw; rw [hs] at hn; cases hn
    · rename_i opc r hrow
      cases hd : rule s with
      | ok d u => rw [hd] at h; cases h
      | fail k u =>
        rw [hd] at h hr
        have hs : Stopped (footprint i) i.wf s k u := hr
        have hw := wf_of_rowOf hrow
        obtain ⟨info, rfl⟩ := hs.kind hw
        cases h
        exact .inr (.inr ⟨opc, info, u, (rowOf_some hrow).1, rfl, by rw [hw] at hs; exact hs⟩)
  | sticks hp hk e => rw [e] at h; cases h; obtain ⟨k, rfl⟩ := hk; exact .inl ⟨k, rfl, hp, rfl⟩
  | refuses _ _ _ _ e => rw [e] at h; cases h

/-- What `exec` leaves when it refuses. -/
theorem exec_refused {f : Refusal} (h : exec i s = .refused f) :
    s.cfg.unstablePolicy = .refuse ∧ ∃ opc, opcodeOf i = some opc ∧
      f = .unstableOpcode (s.setRun (.refused (s.pc - 1) opc)) := by
  have hi : i ≠ .brk := fun e => by subst e; cases h
  obtain ⟨rule, hr, ha⟩ := exec_rule hi s
  cases ha with
  | performs e =>
    rw [e, perform] at h
    split at h
    · cases h
    · cases hd : rule s with
      | ok d u => rw [hd] at h; cases h
      | fail k u => rw [hd] at h; unfold raise at h; cases k <;> cases h
  | sticks _ _ e => rw [e] at h; cases h
  | refuses hp opc r hrow e =>
    rw [e] at h; cases h
    exact ⟨hp, opc, (rowOf_some hrow).1, rfl⟩

end Sys2Proof.Machine
end

