-- ==== Sys2Proof/Laws/Status.lean ====
section
/-! SUPPORT. No bus access and no addressing mode reads P: each does the same from a state with another P. -/

namespace Sys2Proof.Machine

variable {s : State} {a : Word} {v : Byte} {q : Byte}

/-- The same end, with P replaced. -/
def Access.withP {α : Type} (q : Byte) : Access α → Access α
  | .ok v t => .ok v (t.setP q)
  | .fail k t => .fail k (t.setP q)

/-- Binding after a replacement of P, when what follows does not read P. -/
theorem Access.bind_withP {α β : Type} {r : Access α} {f : α → State → Access β}
    (h : ∀ v t, f v (t.setP q) = (f v t).withP q) : (r.withP q).bind f = (r.bind f).withP q := by
  cases r with
  | ok v t => exact h v t
  | fail k t => rfl

theorem memRead_setP (a : Word) (s : State) (q : Byte) : memRead a (s.setP q) = (memRead a s).withP q := by
  unfold memRead
  have h : regionRead a (s.setP q) = (regionRead a s).withP q := by
    unfold regionRead
    cases regionOf a
    case ram i => rfl
    case rom i => rfl
    case unrouted => unfold unroutedRead; simp only [State.setP_cfg]; split <;> rfl
    case port p =>
      cases p <;> simp only [portRead, readWriteOnly, readStatus, spriteBits, State.setP_cfg]
      all_goals first | rfl | (split <;> rfl)
  rw [h]
  exact Access.bind_withP fun v t => by simp [Access.withP]

theorem memWrite_setP (a : Word) (v : Byte) (s : State) (q : Byte) : memWrite a v (s.setP q) = (memWrite a v s).withP q := by
  unfold memWrite
  rw [← State.latched_setP]
  generalize s.latched v = t
  unfold regionWrite
  cases regionOf a
  case ram i => rfl
  case rom i => rfl
  case unrouted => unfold unroutedWrite; simp only [State.setP_cfg]; split <;> rfl
  case port p =>
    cases p <;> simp only [portWrite, State.setP_cfg, State.setP_video, State.setP_cart]
    all_goals first | rfl | (split <;> rfl)

theorem resolve_setP (o : Operand) (s : State) (q : Byte) : resolve o (s.setP q) = (resolve o s).withP q := by
  cases o
  case indexedIndirect b => simp only [resolve, zeroPagePointer_eq, Access.bind]; simp [Access.withP]
  case indirectIndexed b => simp only [resolve, zeroPagePointer_eq, Access.bind]; simp [Access.withP]
  all_goals rfl

theorem readOperand_setP (o : Operand) (s : State) (q : Byte) : readOperand o (s.setP q) = (readOperand o s).withP q := by
  by_cases hi : ∃ b, o = .immediate b
  · obtain ⟨b, rfl⟩ := hi; rfl
  · have hne : ∀ b, o ≠ .immediate b := fun b e => hi ⟨b, e⟩
    rw [readOperand_of_ne hne, readOperand_of_ne hne, resolve_setP]
    refine Access.bind_withP fun r t => ?_
    rw [memRead_setP]
    exact Access.bind_withP fun m u => rfl

end Sys2Proof.Machine
end

