-- ==== Sys2Proof/Laws/Blind.lean ====
section
/-! SUPPORT. Which updates and rules are blind to a flag: they do the same from two states that differ in that flag alone. -/

namespace Sys2Proof.Machine

/-- `p` and `q` agree in every flag but `f`. -/
def Agree (f : Flag) (p q : Byte) : Prop := ∀ g, g ≠ f → getFlag q g = getFlag p g

theorem Agree.setFlag {f : Flag} {p q : Byte} (h : Agree f p q) (g : Flag) (v : Bool) :
    Agree f (setFlag p g v) (setFlag q g v) := fun k hk => by
  rw [getFlag_setFlag, getFlag_setFlag, h k hk]

theorem Agree.setNZ {f : Flag} {p q : Byte} (h : Agree f p q) (r : Byte) : Agree f (setNZ p r) (setNZ q r) := fun k hk => by
  rw [getFlag_setNZ, getFlag_setNZ, h k hk]

/-- An update that takes states that differ in the flag `f` alone to such states. -/
def BlindTo (f : Flag) (update : State → State) : Prop :=
  ∀ (t : State) (p : Byte), Agree f t.p p → ∃ q, update (t.setP p) = (update t).setP q ∧ Agree f (update t).p q

/-- A rule that completes alike from states that differ in the flag `f` alone. -/
def Blind (f : Flag) (rule : State → Access Done) : Prop :=
  ∀ (s : State) (p : Byte) (d : Done) (t : State), Agree f s.p p → rule s = .ok d t →
    ∃ q, rule (s.setP p) = .ok d (t.setP q) ∧ Agree f t.p q

variable {f : Flag}

theorem blind_id : BlindTo f fun t => t := fun _ p h => ⟨p, rfl, h⟩

theorem registerOnly_blind {update : State → State} (h : BlindTo f update) : Blind f (registerOnly update) := by
  intro s p d t ha e
  cases e
  obtain ⟨q, h1, h2⟩ := h s p ha
  exact ⟨q, by simp only [registerOnly, h1], h2⟩

theorem readThen_blind {o : Operand} {update : Byte → State → State} (h : ∀ m, BlindTo f (update m)) :
    Blind f (readThen o update) := by
  intro s p d t ha e
  unfold readThen at e ⊢
  rw [readOperand_setP]
  cases hr : readOperand o s with
  | fail k u => rw [hr] at e; cases e
  | ok m u =>
    rw [hr] at e; cases e
    obtain ⟨q, h1, h2⟩ := h m.1 u p (by rw [(readOperand_ok hr).1.p]; exact ha)
    exact ⟨q, by simp only [Access.withP, Access.bind, h1], h2⟩

theorem storeThen_blind {o : Operand} {value : State → Byte} (h : ∀ t p, value (t.setP p) = value t) :
    Blind f (storeThen o value) := by
  intro s p d t ha e
  unfold storeThen at e ⊢
  rw [resolve_setP]
  cases hr : resolve o s with
  | fail k u => rw [hr] at e; cases e
  | ok r u =>
    rw [hr] at e; simp only [Access.bind] at e
    simp only [Access.withP, Access.bind, h, memWrite_setP]
    cases hw : memWrite r.ea (value u) u with
    | fail k v => rw [hw] at e; cases e
    | ok x v =>
      rw [hw] at e; cases e
      exact ⟨p, rfl, by rw [((resolve_ok hr).2.1.trans (memWrite_step hw)).p]; exact ha⟩

theorem highStore_blind {o : Operand} {value : State → Byte} (h : ∀ t p, value (t.setP p) = value t) :
    Blind f (highStore o value) := by
  intro s p d t ha e
  unfold highStore at e ⊢
  rw [resolve_setP]
  cases hr : resolve o s with
  | fail k u => rw [hr] at e; cases e
  | ok r u =>
    rw [hr] at e; simp only [Access.bind] at e
    simp only [Access.withP, Access.bind, h, memWrite_setP]
    cases hw : memWrite (highStoreAddress r (value u)) (highStoreValue r (value u)) u with
    | fail k v => rw [hw] at e; cases e
    | ok x v =>
      rw [hw] at e; cases e
      exact ⟨p, rfl, by rw [((resolve_ok hr).2.1.trans (memWrite_step hw)).p]; exact ha⟩

theorem modifyThen_blind {o : Operand} {result : Byte → State → Byte} {flags : Byte → Byte → Byte}
    {before : Byte → State → State}
    {after : Byte → Byte → State → State} (hr : ∀ m t p, Agree f t.p p → result m (t.setP p) = result m t)
    (hb : ∀ m t, before m t = t.setP (flags m t.p)) (hf : ∀ m p q, Agree f p q → Agree f (flags m p) (flags m q))
    (ha : ∀ m r, BlindTo f (after m r)) : Blind f (modifyThen o result before after) := by
  intro s p d t h e
  unfold modifyThen at e ⊢
  rw [resolve_setP]
  cases h1 : resolve o s with
  | fail k u => rw [h1] at e; cases e
  | ok r u =>
    rw [h1] at e; simp only [Access.bind] at e
    simp only [Access.withP, Access.bind, memRead_setP]
    cases h2 : memRead r.ea u with
    | fail k v => rw [h2] at e; cases e
    | ok m v =>
      rw [h2] at e
      have hv : v.p = s.p := ((resolve_ok h1).2.1.trans (memRead_step h2)).p
      simp only [hb, State.setP_p] at e ⊢
      have hp : Agree f v.p p := by rw [hv]; exact h
      rw [hr m v p hp, show (v.setP p).setP (flags m p) = (v.setP (flags m v.p)).setP (flags m p) from rfl, memWrite_setP]
      cases h3 : memWrite r.ea (result m v) (v.setP (flags m v.p)) with
      | fail k w => rw [h3] at e; cases e
      | ok x w =>
        rw [h3] at e; cases e
        obtain ⟨q, k1, k2⟩ := ha m (result m v) w (flags m p) (by rw [(memWrite_step h3).p]; exact hf m _ _ hp)
        exact ⟨q, by simp only [Access.withP, k1], k2⟩

/-- An instruction whose rule is blind to a flag. -/
theorem perform_blind {i : Instr} {rule : State → Access Done} (h : Blind f rule) {s t : State} {p : Byte}
    (ha : Agree f s.p p)
    (e : perform i rule s = .next t) : ∃ q, perform i rule (s.setP p) = .next (t.setP q) ∧ Agree f t.p q := by
  unfold perform at e ⊢
  split at e
  · cases e
  · rename_i opc r hrow
    cases hd : rule s with
    | fail k u => rw [hd] at e; cases k <;> cases e
    | ok d u =>
      rw [hd] at e; cases e
      obtain ⟨q, h1, h2⟩ := h s p d u ha hd
      exact ⟨q, by simp only [h1]; rfl, h2⟩

theorem setFlag_agree (p : Byte) (f : Flag) (v : Bool) : Agree f p (Machine.setFlag p f v) := fun g hg => by
  rw [getFlag_setFlag, if_neg hg]

theorem BlindTo.comp {u w : State → State} (h : BlindTo f u) (g : BlindTo f w) : BlindTo f fun t => w (u t) := by
  intro t p ha
  obtain ⟨q, h1, h2⟩ := h t p ha
  obtain ⟨q', g1, g2⟩ := g (u t) q h2
  exact ⟨q', by simp only [h1, g1], g2⟩

theorem loadA_blind {g : State → Byte} (h : ∀ t p, g (t.setP p) = g t) : BlindTo f fun t => t.loadA (g t) := fun t p ha =>
  ⟨setNZ p (g t), by simp only [h]; rfl, ha.setNZ _⟩

theorem loadX_blind {g : State → Byte} (h : ∀ t p, g (t.setP p) = g t) : BlindTo f fun t => t.loadX (g t) := fun t p ha =>
  ⟨setNZ p (g t), by simp only [h]; rfl, ha.setNZ _⟩

theorem loadY_blind {g : State → Byte} (h : ∀ t p, g (t.setP p) = g t) : BlindTo f fun t => t.loadY (g t) := fun t p ha =>
  ⟨setNZ p (g t), by simp only [h]; rfl, ha.setNZ _⟩

theorem setSp_blind {g : State → Byte} (h : ∀ t p, g (t.setP p) = g t) : BlindTo f fun t => t.setSp (g t) := fun t p ha =>
  ⟨p, by simp only [h]; rfl, ha⟩

theorem setX_blind {g : State → Byte} (h : ∀ t p, g (t.setP p) = g t) : BlindTo f fun t => t.setX (g t) := fun t p ha =>
  ⟨p, by simp only [h]; rfl, ha⟩

theorem writeFlag_blind {k : Flag} {g : State → Bool} (h : ∀ t p, g (t.setP p) = g t) :
    BlindTo f fun t => t.writeFlag k (g t) := fun t p ha =>
  ⟨setFlag p k (g t), by simp only [h]; rfl, ha.setFlag _ _⟩

theorem compare_blind {g : State → Byte} (m : Byte) (h : ∀ t p, g (t.setP p) = g t) :
    BlindTo f fun t => t.compare (g t) m := fun t p ha =>
  ⟨compareFlags p (g t) m, by simp only [h]; rfl, (ha.setFlag _ _).setNZ _⟩

theorem addCore_blind (hf : f ≠ .c) (m : Byte) : BlindTo f fun t => t.addCore m := fun t p ha => by
  refine ⟨addFlags p t.a m, ?_, fun g hg => ?_⟩
  · simp only [State.addCore, State.setP_p, State.setP_a, ha .c hf.symm]; rfl
  · show getFlag (addFlags p t.a m) g = getFlag (addFlags t.p t.a m) g
    rw [getFlag_addFlags, getFlag_addFlags, ha g hg, ha .c hf.symm]

theorem bit_blind (m : Byte) : BlindTo f fun t => t.setP (bitFlags t.p t.a m) := fun t p ha =>
  ⟨bitFlags p t.a m, rfl, ((ha.setFlag _ _).setFlag _ _).setFlag _ _⟩

theorem anc_blind (m : Byte) : BlindTo f fun t => (t.setA (t.a &&& m)).setP (ancFlags t.p (t.a &&& m)) := fun t p ha =>
  ⟨ancFlags p (t.a &&& m), rfl, (ha.setNZ _).setFlag _ _⟩

theorem shiftC_blind (k m) : BlindTo f fun t => t.shiftC k m := fun _ p ha => ⟨shiftFlags k p m, rfl, ha.setFlag _ _⟩

theorem nz_blind (r : Byte) : BlindTo f fun t => t.setP (setNZ t.p r) := fun _ p ha => ⟨setNZ p r, rfl, ha.setNZ _⟩

theorem arr_blind (hf : f ≠ .c) (m : Byte) : BlindTo f fun t => t.arr m := fun t p ha => by
  refine ⟨arrFlags p (((t.a &&& m) >>> 1) ||| (bitByte (getFlag t.p .c) <<< 7)), ?_, ((ha.setNZ _).setFlag _ _).setFlag _ _⟩
  simp only [State.arr, State.setP_p, State.setP_a, ha .c hf.symm]; rfl

theorem alr_blind (m : Byte) : BlindTo f fun t => t.alr m := fun _ _ ha => ⟨_, rfl, (ha.setFlag _ _).setNZ _⟩

theorem sbx_blind (m : Byte) : BlindTo f fun t => t.sbx m := fun _ _ ha => ⟨_, rfl, (ha.setFlag _ _).setNZ _⟩

theorem magic_setP (t : State) (p : Byte) : magicByte (t.setP p) = ((magicByte t).1, (magicByte t).2.setP p) := by
  unfold magicByte; simp only [State.setP_cfg]; split <;> rfl

theorem magic_p (t : State) : (magicByte t).2.p = t.p := by unfold magicByte; split <;> rfl

theorem ane_blind (m : Byte) : BlindTo f fun t => t.ane m := fun t p ha => by
  simp only [State.ane, magic_setP]
  exact ⟨_, rfl, by have := ha; rw [← magic_p t] at this; exact this.setNZ _⟩

theorem lxa_blind (m : Byte) : BlindTo f fun t => t.lxa m := fun t p ha => by
  simp only [State.lxa, magic_setP]
  exact ⟨_, rfl, by have := ha; rw [← magic_p t] at this; exact this.setNZ _⟩

theorem shiftAcc_blind (hf : f ≠ .c) (k) : BlindTo f (shiftAccumulator k) := fun t p ha => by
  refine ⟨setNZ (shiftFlags k p t.a) (shiftResult k (getFlag t.p .c) t.a), ?_, (ha.setFlag _ _).setNZ _⟩
  simp only [shiftAccumulator, State.setP_p, State.setP_a, ha .c hf.symm]; rfl

theorem shiftOperand_blind (hf : f ≠ .c) (k o) : Blind f (shiftOperand k o) := by
  by_cases h : o = .accumulator
  · subst h; exact registerOnly_blind (shiftAcc_blind hf k)
  · have : shiftOperand k o = shiftMemory k o := by funext s; cases o <;> first | rfl | exact absurd rfl h
    rw [this]
    exact modifyThen_blind (flags := fun m p => shiftFlags k p m) (fun m t p ha => by simp only [State.setP_p, ha .c hf.symm]) (fun _ _ => rfl)
      (fun m p q ha => ha.setFlag _ _) (fun m r => nz_blind r)

theorem combine_blind {o : Operand} {result : Byte → State → Byte} {combine : Byte → Byte → State → State}
    (hr : ∀ m t p, Agree f t.p p → result m (t.setP p) = result m t) (ha : ∀ m r, BlindTo f (combine m r)) :
    Blind f (modifyCombine o result combine) :=
  modifyThen_blind (flags := fun _ p => p) hr (fun _ _ => rfl) (fun _ _ _ h => h) ha

theorem shifted_blind (hf : f ≠ .c) (k) :
    ∀ m (t : State) (p : Byte), Agree f t.p p → shifted k m (t.setP p) = shifted k m t := fun m t p ha => by
  simp only [shifted, State.setP_p, ha .c hf.symm]

theorem branch_blind (taken : Bool) (disp : Byte) : Blind f (branch taken disp) := by
  intro s p d t ha e
  cases taken <;> (cases e; exact ⟨p, rfl, ha⟩)

theorem push_setP (v : Byte) (s : State) (p : Byte) : push v (s.setP p) = (push v s).withP p := by
  rw [push_eq, push_eq]; simp [Access.withP]; rfl

theorem pop_setP (s : State) (p : Byte) : pop (s.setP p) = (pop s).withP p := by
  rw [pop_eq, pop_eq]; simp [Access.withP]; rfl

theorem pushThen_blind {value : State → Byte} (h : ∀ t p, value (t.setP p) = value t) : Blind f (pushThen value) := by
  intro s p d t ha e
  simp only [pushThen, push_eq, Access.bind] at e; cases e
  refine ⟨p, ?_, by simpa using ha⟩
  unfold pushThen; rw [h, push_setP, push_eq]; rfl

theorem popThen_blind {update : Byte → State → State} (h : ∀ m, BlindTo f (update m)) : Blind f (popThen update) := by
  intro s p d t ha e
  simp only [popThen, pop_eq, Access.bind] at e; cases e
  obtain ⟨q, h1, h2⟩ := h (s.ram.read (0x100 + (s.sp + 1).toNat))
    ((s.setSp (s.sp + 1)).latched (s.ram.read (0x100 + (s.sp + 1).toNat))) p (by simpa using ha)
  refine ⟨q, ?_, h2⟩
  unfold popThen; rw [pop_setP, pop_eq]; simp only [Access.withP, Access.bind, h1]

theorem jumpIndirect_blind (ptr : Word) : Blind f (jumpIndirect ptr) := by
  intro s p d t ha e
  unfold jumpIndirect at e ⊢
  rw [memRead_setP]
  cases h1 : memRead ptr s with
  | fail k u => rw [h1] at e; cases e
  | ok l u =>
    rw [h1] at e; simp only [Access.bind] at e
    simp only [Access.withP, Access.bind, memRead_setP]
    cases h2 : memRead (samePageNext ptr) u with
    | fail k v => rw [h2] at e; cases e
    | ok h v =>
      rw [h2] at e; cases e
      exact ⟨p, rfl, by rw [State.setPc_p, ((memRead_step h1).trans (memRead_step h2)).p]; exact ha⟩

theorem jsr_blind (w : Word) : Blind f (callSubroutine w) := by
  intro s p d t ha e
  simp only [callSubroutine, push_eq, Access.bind] at e; cases e
  refine ⟨p, ?_, by simpa using ha⟩
  simp only [callSubroutine, State.setP_pc]; rw [push_setP, push_eq]
  simp only [Access.withP, Access.bind]; rw [push_setP, push_eq]; rfl

theorem rts_blind : Blind f returnFromSubroutine := by
  intro s p d t ha e
  rw [returnFromSubroutine_eq] at e; cases e
  refine ⟨p, ?_, by simpa using ha⟩
  rw [returnFromSubroutine_eq]; simp; rfl

theorem rti_blind : Blind f returnFromInterrupt := by
  intro s p d t ha e
  rw [returnFromInterrupt_eq] at e; cases e
  refine ⟨_, ?_, fun _ _ => rfl⟩
  rw [returnFromInterrupt_eq]; simp; rfl

end Sys2Proof.Machine
end

