-- ==== Sys2Proof/Laws/Decode.lean ====
section
/-! SUPPORT. Decoding: whatever operand a record is given, the instruction it builds has the record's opcode; so what decodes
is well formed. -/

namespace Sys2Proof

/-- A record builds, from every operand of its mode, a well-formed instruction with its own opcode and that operand. -/
def RowFits (opc : Nat) (r : Row) : Prop :=
  ∀ o : Operand, o.mode = r.mode →
    (r.make o).wf = true ∧ opcodeOf (r.make o) = some (BitVec.ofNat 8 opc) ∧ (r.make o).operand = o

/-- Every record of a list that begins at an opcode fits. -/
def RowsFit : Nat → List Row → Prop
  | _, [] => True
  | opc, r :: rows => RowFits opc r ∧ RowsFit (opc + 1) rows

theorem RowsFit.append {opc n : Nat} {l m : List Row} (h : RowsFit opc l) (hn : opc + l.length = n) (g : RowsFit n m) :
    RowsFit opc (l ++ m) := by
  induction l generalizing opc with
  | nil => simp only [List.length_nil, Nat.add_zero] at hn; subst hn; exact g
  | cons r l ih => exact ⟨h.1, ih h.2 (by simp only [List.length_cons] at hn; omega)⟩

theorem RowsFit.get {opc k : Nat} {l : List Row} {r : Row} (h : RowsFit opc l) (hk : l[k]? = some r) :
    RowFits (opc + k) r := by
  induction l generalizing opc k with
  | nil => cases hk
  | cons r' l ih =>
    cases k with
    | zero => cases hk; exact h.1
    | succ k =>
      have := ih h.2 (k := k) hk
      rwa [show opc + (k + 1) = opc + 1 + k by omega]

theorem row0_fits : RowsFit 0x00 opcodeRow0 := by
  refine ⟨?_, ?_, ?_, ?_, ?_, ?_, ?_, ?_, ?_, ?_, ?_, ?_, ?_, ?_, ?_, ?_, trivial⟩ <;> intro o h <;> cases o <;>
    first | exact ⟨rfl, rfl, rfl⟩ | cases h
theorem row1_fits : RowsFit 0x10 opcodeRow1 := by
  refine ⟨?_, ?_, ?_, ?_, ?_, ?_, ?_, ?_, ?_, ?_, ?_, ?_, ?_, ?_, ?_, ?_, trivial⟩ <;> intro o h <;> cases o <;>
    first | exact ⟨rfl, rfl, rfl⟩ | cases h
theorem row2_fits : RowsFit 0x20 opcodeRow2 := by
  refine ⟨?_, ?_, ?_, ?_, ?_, ?_, ?_, ?_, ?_, ?_, ?_, ?_, ?_, ?_, ?_, ?_, trivial⟩ <;> intro o h <;> cases o <;>
    first | exact ⟨rfl, rfl, rfl⟩ | cases h
theorem row3_fits : RowsFit 0x30 opcodeRow3 := by
  refine ⟨?_, ?_, ?_, ?_, ?_, ?_, ?_, ?_, ?_, ?_, ?_, ?_, ?_, ?_, ?_, ?_, trivial⟩ <;> intro o h <;> cases o <;>
    first | exact ⟨rfl, rfl, rfl⟩ | cases h
theorem row4_fits : RowsFit 0x40 opcodeRow4 := by
  refine ⟨?_, ?_, ?_, ?_, ?_, ?_, ?_, ?_, ?_, ?_, ?_, ?_, ?_, ?_, ?_, ?_, trivial⟩ <;> intro o h <;> cases o <;>
    first | exact ⟨rfl, rfl, rfl⟩ | cases h
theorem row5_fits : RowsFit 0x50 opcodeRow5 := by
  refine ⟨?_, ?_, ?_, ?_, ?_, ?_, ?_, ?_, ?_, ?_, ?_, ?_, ?_, ?_, ?_, ?_, trivial⟩ <;> intro o h <;> cases o <;>
    first | exact ⟨rfl, rfl, rfl⟩ | cases h
theorem row6_fits : RowsFit 0x60 opcodeRow6 := by
  refine ⟨?_, ?_, ?_, ?_, ?_, ?_, ?_, ?_, ?_, ?_, ?_, ?_, ?_, ?_, ?_, ?_, trivial⟩ <;> intro o h <;> cases o <;>
    first | exact ⟨rfl, rfl, rfl⟩ | cases h
theorem row7_fits : RowsFit 0x70 opcodeRow7 := by
  refine ⟨?_, ?_, ?_, ?_, ?_, ?_, ?_, ?_, ?_, ?_, ?_, ?_, ?_, ?_, ?_, ?_, trivial⟩ <;> intro o h <;> cases o <;>
    first | exact ⟨rfl, rfl, rfl⟩ | cases h
theorem row8_fits : RowsFit 0x80 opcodeRow8 := by
  refine ⟨?_, ?_, ?_, ?_, ?_, ?_, ?_, ?_, ?_, ?_, ?_, ?_, ?_, ?_, ?_, ?_, trivial⟩ <;> intro o h <;> cases o <;>
    first | exact ⟨rfl, rfl, rfl⟩ | cases h
theorem row9_fits : RowsFit 0x90 opcodeRow9 := by
  refine ⟨?_, ?_, ?_, ?_, ?_, ?_, ?_, ?_, ?_, ?_, ?_, ?_, ?_, ?_, ?_, ?_, trivial⟩ <;> intro o h <;> cases o <;>
    first | exact ⟨rfl, rfl, rfl⟩ | cases h
theorem rowA_fits : RowsFit 0xA0 opcodeRowA := by
  refine ⟨?_, ?_, ?_, ?_, ?_, ?_, ?_, ?_, ?_, ?_, ?_, ?_, ?_, ?_, ?_, ?_, trivial⟩ <;> intro o h <;> cases o <;>
    first | exact ⟨rfl, rfl, rfl⟩ | cases h
theorem rowB_fits : RowsFit 0xB0 opcodeRowB := by
  refine ⟨?_, ?_, ?_, ?_, ?_, ?_, ?_, ?_, ?_, ?_, ?_, ?_, ?_, ?_, ?_, ?_, trivial⟩ <;> intro o h <;> cases o <;>
    first | exact ⟨rfl, rfl, rfl⟩ | cases h
theorem rowC_fits : RowsFit 0xC0 opcodeRowC := by
  refine ⟨?_, ?_, ?_, ?_, ?_, ?_, ?_, ?_, ?_, ?_, ?_, ?_, ?_, ?_, ?_, ?_, trivial⟩ <;> intro o h <;> cases o <;>
    first | exact ⟨rfl, rfl, rfl⟩ | cases h
theorem rowD_fits : RowsFit 0xD0 opcodeRowD := by
  refine ⟨?_, ?_, ?_, ?_, ?_, ?_, ?_, ?_, ?_, ?_, ?_, ?_, ?_, ?_, ?_, ?_, trivial⟩ <;> intro o h <;> cases o <;>
    first | exact ⟨rfl, rfl, rfl⟩ | cases h
theorem rowE_fits : RowsFit 0xE0 opcodeRowE := by
  refine ⟨?_, ?_, ?_, ?_, ?_, ?_, ?_, ?_, ?_, ?_, ?_, ?_, ?_, ?_, ?_, ?_, trivial⟩ <;> intro o h <;> cases o <;>
    first | exact ⟨rfl, rfl, rfl⟩ | cases h
theorem rowF_fits : RowsFit 0xF0 opcodeRowF := by
  refine ⟨?_, ?_, ?_, ?_, ?_, ?_, ?_, ?_, ?_, ?_, ?_, ?_, ?_, ?_, ?_, ?_, trivial⟩ <;> intro o h <;> cases o <;>
    first | exact ⟨rfl, rfl, rfl⟩ | cases h

theorem opcodeTable_fits : RowsFit 0 opcodeTable := by
  unfold opcodeTable
  refine RowsFit.append ?_ (by simp only [List.length_append]; rfl) rowF_fits
  refine RowsFit.append ?_ (by simp only [List.length_append]; rfl) rowE_fits
  refine RowsFit.append ?_ (by simp only [List.length_append]; rfl) rowD_fits
  refine RowsFit.append ?_ (by simp only [List.length_append]; rfl) rowC_fits
  refine RowsFit.append ?_ (by simp only [List.length_append]; rfl) rowB_fits
  refine RowsFit.append ?_ (by simp only [List.length_append]; rfl) rowA_fits
  refine RowsFit.append ?_ (by simp only [List.length_append]; rfl) row9_fits
  refine RowsFit.append ?_ (by simp only [List.length_append]; rfl) row8_fits
  refine RowsFit.append ?_ (by simp only [List.length_append]; rfl) row7_fits
  refine RowsFit.append ?_ (by simp only [List.length_append]; rfl) row6_fits
  refine RowsFit.append ?_ (by simp only [List.length_append]; rfl) row5_fits
  refine RowsFit.append ?_ (by simp only [List.length_append]; rfl) row4_fits
  refine RowsFit.append ?_ (by simp only [List.length_append]; rfl) row3_fits
  refine RowsFit.append ?_ (by simp only [List.length_append]; rfl) row2_fits
  refine RowsFit.append ?_ rfl row1_fits
  exact row0_fits

/-- What a record builds from an operand of its mode. -/
theorem make_fits {opc : Byte} {r : Row} {o : Operand} (h : recordOf opc = some r) (hm : o.mode = r.mode) :
    (r.make o).wf = true ∧ opcodeOf (r.make o) = some opc ∧ (r.make o).operand = o := by
  have := opcodeTable_fits.get h o hm
  simpa using this

/-- What decodes is well formed. -/
theorem decode_wf {bs rest : List Byte} {i : Instr} (h : decode bs = .ok (i, rest)) : i.wf = true := by
  cases bs with
  | nil => cases h
  | cons opc tl =>
    simp only [decode] at h
    split at h
    · cases h
    · rename_i r hr
      split at h
      · cases h
      · rename_i o rest' ho
        cases h
        exact (make_fits hr (operandOf_some ho).1).1

end Sys2Proof
end

