-- ==== Sys2Proof/Laws/Retire.lean ====
section
/-! SUPPORT. How an instruction ends: what `perform` answers for a rule that completed or failed, by the shape of the rule, and
the numbers behind words and their bytes. -/

namespace Sys2Proof

theorem word_toNat (h l : Byte) : (word h l).toNat = 256 * h.toNat + l.toNat := by
  have := l.isLt
  simp only [word, BitVec.toNat_append]
  rw [← Nat.shiftLeft_add_eq_or_of_lt (by omega), Nat.shiftLeft_eq]; omega

theorem hi_toNat (w : Word) : (hi w).toNat = w.toNat / 256 := by
  have := w.isLt
  simp [hi, BitVec.extractLsb'_toNat, Nat.shiftRight_eq_div_pow]; omega

theorem lo_toNat (w : Word) : (lo w).toNat = w.toNat % 256 := by
  simp [lo, BitVec.extractLsb'_toNat]

namespace Machine

variable {i : Instr} {o : Operand} {s t u v : State} {r : Resolved} {d : Done} {m : Mode} {n : Bool → Nat} {k : Nat}

/-- The row of an instruction has mode `m` and costs `n cross` cycles. -/
def Costs (i : Instr) (m : Mode) (n : Bool → Nat) : Prop :=
  ∃ opc row, rowOf i = some (opc, row) ∧ row.mode = m ∧ ∀ c, row.cycles + (if c && row.penalty then 1 else 0) = n c

/-- A rule that completes without setting PC: PC passes the operand bytes and the cycles are charged. -/
theorem Costs.stays {rule : State → Access Done} (h : Costs i m n) (h1 : rule s = .ok d t) (hd : d.transferred = false)
    (he : d.extra = 0) (hpc : t.pc = s.pc) :
    perform i rule s = .next (tick (n d.cross) (t.setPc (t.pc + BitVec.ofNat 16 (m.bytes - 1)))) := by
  obtain ⟨opc, row, hr, rfl, hn⟩ := h
  have : skipsAdvance s.pc d t = false := by unfold skipsAdvance; split <;> simp [hd, hpc]
  simp only [perform, hr, h1, finish, cost, he, hn, pcAfter, this, Bool.false_eq_true, if_false, Nat.add_zero]

/-- A rule that completes by setting PC. -/
theorem Costs.transfers {rule : State → Access Done} (h : Costs i m n) (h1 : rule s = .ok d t) (hd : d.transferred = true)
    (hc : d.cross = false) :
    perform i rule s = .next (tick (n false + d.extra) (t.setPc
      (if t.cfg.pcAdvance = .compare ∧ t.pc = s.pc then t.pc + BitVec.ofNat 16 (m.bytes - 1) else t.pc))) := by
  obtain ⟨opc, row, hr, rfl, hn⟩ := h
  have h0 := hn false
  simp only [Bool.false_and, Bool.false_eq_true, if_false] at h0
  simp only [perform, hr, h1, finish, cost, hc, ← h0, Bool.false_and, Bool.false_eq_true, if_false]
  congr 3
  unfold pcAfter skipsAdvance
  cases t.cfg.pcAdvance <;> simp [hd]

/-- Two instructions of one mode and cost whose rules agree complete alike. -/
theorem Costs.next_congr {j : Instr} {rule rule' : State → Access Done} (h : Costs i m n) (g : Costs j m n)
    (e : rule s = rule' s) (hn : perform i rule s = .next t) : perform j rule' s = .next t := by
  obtain ⟨opc, row, hr, rfl, h1⟩ := h
  obtain ⟨opc', row', hr', hm, h2⟩ := g
  simp only [perform, hr, hr', e] at hn ⊢
  cases hx : rule' s with
  | fail f w => rw [hx] at hn; cases f <;> cases hn
  | ok d w => rw [hx] at hn; simpa only [finish, cost, h1, h2, pcAfter, hm] using hn

/-- An instruction that reads its operand completes. -/
theorem readThen_completes {b : Byte} {cross : Bool} {update : Byte → State → State} (hc : Costs i m n)
    (h : readOperand o s = .ok (b, cross) t) (hu : (update b t).pc = t.pc) :
    perform i (readThen o update) s =
      .next (tick (n cross) ((update b t).setPc ((update b t).pc + BitVec.ofNat 16 (m.bytes - 1)))) :=
  hc.stays (d := { cross := cross }) (by simp [readThen, h, Access.bind]) rfl rfl (hu.trans (readOperand_ok h).1.pc)

/-- An instruction that makes no bus access completes. -/
theorem registerOnly_completes {update : State → State} (hc : Costs i m n) (hu : (update s).pc = s.pc) :
    perform i (registerOnly update) s =
      .next (tick (n false) ((update s).setPc ((update s).pc + BitVec.ofNat 16 (m.bytes - 1)))) :=
  hc.stays (d := {}) rfl rfl rfl hu

/-- A store whose address takes the byte completes. -/
theorem storeThen_completes {value : State → Byte} (hc : Costs i m fun _ => k) (h : resolve o s = .ok r t)
    (hv : value t = value s) (hw : memWrite r.ea (value s) t = .ok () u) :
    perform i (storeThen o value) s = .next (tick k (u.setPc (u.pc + BitVec.ofNat 16 (m.bytes - 1)))) :=
  hc.stays (d := { cross := r.cross }) (by simp [storeThen, h, Access.bind, hv, hw]) rfl rfl
    ((resolve_ok h).2.1.trans (memWrite_step hw)).pc

/-- A high-byte store whose address takes the byte completes. -/
theorem highStore_completes {value : State → Byte} (hc : Costs i m fun _ => k) (h : resolve o s = .ok r t)
    (hv : value t = value s)
    (hw : memWrite (highStoreAddress r (value s)) (highStoreValue r (value s)) t = .ok () u) :
    perform i (highStore o value) s = .next (tick k (u.setPc (u.pc + BitVec.ofNat 16 (m.bytes - 1)))) :=
  hc.stays (d := { cross := r.cross }) (by simp [highStore, h, Access.bind, hv, hw]) rfl rfl
    ((resolve_ok h).2.1.trans (memWrite_step hw)).pc

/-- A read-modify-write whose address gives and takes the byte completes. -/
theorem modifyThen_completes {b : Byte} {result : Byte → State → Byte} {before : Byte → State → State}
    {after : Byte → Byte → State → State} (hc : Costs i m fun _ => k) (h : resolve o s = .ok r t)
    (hr : memRead r.ea t = .ok b u) (hw : memWrite r.ea (result b u) (before b u) = .ok () v)
    (hb : (before b u).pc = u.pc) (ha : (after b (result b u) v).pc = v.pc) :
    perform i (modifyThen o result before after) s =
      .next (tick k ((after b (result b u) v).setPc
        ((after b (result b u) v).pc + BitVec.ofNat 16 (m.bytes - 1)))) := by
  refine hc.stays (d := { cross := r.cross }) (by simp [modifyThen, h, hr, Access.bind, hw]) rfl rfl ?_
  rw [ha, (memWrite_step hw).pc, hb, (memRead_step hr).pc, (resolve_ok h).2.1.pc]

/-- An instruction whose rule fails raises that fault, at the address of its opcode. -/
theorem perform_fails {rule : State → Access Done} {f : FaultKind} {opc : Byte} {row : Row} (hi : rowOf i = some (opc, row))
    (h : rule s = .fail f u) : perform i rule s = raise f (s.pc - 1) (some opc) u := by
  simp only [perform, hi, h]

/-- A rule that reads its operand fails where the read fails. -/
theorem readThen_fail {f : FaultKind} {update : Byte → State → State} (h : readOperand o s = .fail f u) :
    readThen o update s = .fail f u := by simp [readThen, h, Access.bind]

/-- A store fails where its write fails. -/
theorem storeThen_fail {f : FaultKind} {value : State → Byte} (h : resolve o s = .ok r t)
    (hw : memWrite r.ea (value t) t = .fail f u) : storeThen o value s = .fail f u := by
  simp [storeThen, h, Access.bind, hw]

/-- A high-byte store fails where its write fails. -/
theorem highStore_fail {f : FaultKind} {value : State → Byte} (h : resolve o s = .ok r t)
    (hw : memWrite (highStoreAddress r (value t)) (highStoreValue r (value t)) t = .fail f u) :
    highStore o value s = .fail f u := by simp [highStore, h, Access.bind, hw]

/-- A read-modify-write fails where its read fails. -/
theorem modifyThen_fail_read {f : FaultKind} {result : Byte → State → Byte} {before : Byte → State → State}
    {after : Byte → Byte → State → State} (h : resolve o s = .ok r t) (hr : memRead r.ea t = .fail f u) :
    modifyThen o result before after s = .fail f u := by simp [modifyThen, h, Access.bind, hr]

/-- A read-modify-write fails where its write fails. -/
theorem modifyThen_fail_write {f : FaultKind} {b : Byte} {result : Byte → State → Byte} {before : Byte → State → State}
    {after : Byte → Byte → State → State} (h : resolve o s = .ok r t) (hr : memRead r.ea t = .ok b u)
    (hw : memWrite r.ea (result b u) (before b u) = .fail f v) :
    modifyThen o result before after s = .fail f v := by simp [modifyThen, h, Access.bind, hr, hw]

/-- Where the unstable opcodes are defined, they run like any other. -/
theorem performUnstable_defined {rule : State → Access Done} (h : s.cfg.unstablePolicy = .defined) :
    performUnstable i rule s = perform i rule s := by
  unfold performUnstable; split
  · rename_i h2; rw [h] at h2; cases h2
  · rfl

/-- A bus read never consumes a pending NMI. -/
theorem memRead_nmiPending {a : Word} {b : Byte} (h : memRead a s = .ok b t) : t.video.nmiPending = s.video.nmiPending := by
  unfold memRead regionRead at h
  cases hr : regionOf a <;> simp only [hr] at h
  case ram i => cases h; simp
  case rom i => cases h; simp
  case unrouted => unfold unroutedRead at h; split at h <;> cases h; simp
  case port p =>
    cases p <;> simp only [portRead, readWriteOnly, readStatus] at h
    case status => cases h; unfold spriteBits; split <;> simp [Video.afterStatusRead]
    case oamData => cases h; simp
    case data => cases h; simp [Video.afterDataRead, Video.increment]
    all_goals (split at h <;> cases h; simp)

end Machine

end Sys2Proof
end

