-- ==== Sys2Proof/Laws/Step.lean ====
section
/-! SUPPORT. What a step can do: the interrupt sequence in closed form, and the inversion of a step by its outcome. -/

namespace Sys2Proof.Machine

variable {s t u : State} {k : FaultKind} {a : Word}

@[simp] theorem tick_latched (n : Nat) (s : State) (v : Byte) : tick n (s.latched v) = (tick n s).latched v := by
  unfold State.latched; simp only [tick_cfg]; split <;> rfl

/-- The vector addresses lie in the ROM window. -/
theorem regionOf_vectors : regionOf nmiVector = .rom 0x7FFA ∧ regionOf (nmiVector + 1) = .rom 0x7FFB ∧
    regionOf resetVector = .rom 0x7FFC ∧ regionOf (resetVector + 1) = .rom 0x7FFD := by
  refine ⟨?_, ?_, ?_, ?_⟩ <;> decide

/-- 70_reset_and_hazards R340: the reset vector's read never fails. -/
theorem memRead16_resetVector (s : State) :
    memRead16 resetVector s =
      .ok (word (s.cart.prgByte 0x7FFD) (s.cart.prgByte 0x7FFC)) (s.latched (s.cart.prgByte 0x7FFD)) := by
  obtain ⟨-, -, h1, h2⟩ := regionOf_vectors
  simp only [memRead16, memRead_rom h1, memRead_rom h2, Access.bind, State.latched_cart, State.latched_latched]

/-- RAM after the interrupt sequence's three pushes. -/
def interruptRam (s : State) : Memory :=
  ((s.ram.write (0x100 + s.sp.toNat) (hi s.pc)).write (0x100 + (s.sp - 1).toNat) (lo s.pc)).write
    (0x100 + (s.sp - 1 - 1).toNat) (nmiImage s.p)

/-- 60_exceptions R284, R295: the interrupt sequence never fails; what it leaves. -/
theorem takeInterrupt_eq (s : State) :
    takeInterrupt s = .next
      (((tick nmiCycles (((s.setRam (interruptRam s)).setSp (s.sp - 1 - 1 - 1)).setP (setFlag s.p .i true))).latched
        (s.cart.prgByte 0x7FFB)).setPc (word (s.cart.prgByte 0x7FFB) (s.cart.prgByte 0x7FFA))) := by
  obtain ⟨h1, h2, -, -⟩ := regionOf_vectors
  simp only [takeInterrupt, interruptSequence, push_eq, Access.bind, memRead16, memRead_rom h1, memRead_rom h2,
    State.latched_setRam, State.latched_setSp, State.latched_setP, State.latched_setPc, State.latched_latched, tick_latched,
    State.latched_ram, State.latched_sp, State.latched_p, State.latched_cart, State.setRam_ram,
    State.setRam_p, State.setRam_cart, State.setSp_ram, State.setSp_sp, State.setSp_p,
    State.setSp_cart, State.setP_cart, tick_cart]
  rfl

theorem readBytes_step {s t : State} {n : Nat} {bs : List Byte} (h : readBytes n a s = .ok bs t) : BusStep s t := by
  induction n generalizing a s bs with
  | zero => cases h; exact .refl _
  | succ n ih =>
    simp only [readBytes] at h
    cases h1 : memRead a s with
    | fail k u => rw [h1] at h; cases h
    | ok b u =>
      rw [h1] at h; simp only [Access.bind] at h
      cases h2 : readBytes n (a + 1) u with
      | fail k w => rw [h2] at h; cases h
      | ok cs w => rw [h2] at h; cases h; exact (memRead_step h1).trans (ih h2)

theorem readBytes_ramEq {n : Nat} {bs : List Byte} (h : readBytes n a s = .ok bs t) : t.ram = s.ram := by
  induction n generalizing a s bs with
  | zero => cases h; rfl
  | succ n ih =>
    simp only [readBytes] at h
    cases h1 : memRead a s with
    | fail k u => rw [h1] at h; cases h
    | ok b u =>
      rw [h1] at h; simp only [Access.bind] at h
      cases h2 : readBytes n (a + 1) u with
      | fail k w => rw [h2] at h; cases h
      | ok cs w => rw [h2] at h; cases h; exact (ih h2).trans (memRead_ramEq h1)

theorem readBytes_length {n : Nat} {bs : List Byte} (h : readBytes n a s = .ok bs t) : bs.length = n := by
  induction n generalizing a s bs with
  | zero => cases h; rfl
  | succ n ih =>
    simp only [readBytes] at h
    cases h1 : memRead a s with
    | fail k u => rw [h1] at h; cases h
    | ok b u =>
      rw [h1] at h; simp only [Access.bind] at h
      cases h2 : readBytes n (a + 1) u with
      | fail k w => rw [h2] at h; cases h
      | ok cs w => rw [h2] at h; cases h; simp [ih h2]

theorem readBytes_fail {n : Nat} (h : readBytes n a s = .fail k t) :
    (∃ info, k = .invalidAddress info) ∧ BusStep s t ∧ t.ram = s.ram := by
  induction n generalizing a s with
  | zero => cases h
  | succ n ih =>
    simp only [readBytes] at h
    cases h1 : memRead a s with
    | fail k u => rw [h1] at h; cases h; obtain ⟨h2, rfl⟩ := memRead_fail h1; exact ⟨h2, .refl _, rfl⟩
    | ok b u =>
      rw [h1] at h; simp only [Access.bind] at h
      cases h2 : readBytes n (a + 1) u with
      | fail k w =>
        rw [h2] at h; cases h
        obtain ⟨h3, h4, h5⟩ := ih h2
        exact ⟨h3, (memRead_step h1).trans h4, h5.trans (memRead_ramEq h1)⟩
      | ok cs w => rw [h2] at h; cases h

/-- As many bytes as a mode reads give its operand, with none left. -/
theorem operandOf_of_length {m : Mode} {bs : List Byte} (h : bs.length = m.operandBytes) :
    ∃ o, operandOf m bs = some (o, []) := by
  cases m <;> simp only [Mode.operandBytes] at h
  case imp => exact ⟨_, by rw [List.length_eq_zero_iff.1 h]; rfl⟩
  case acc => exact ⟨_, by rw [List.length_eq_zero_iff.1 h]; rfl⟩
  case abs => obtain ⟨l, b, rfl⟩ := List.length_eq_two.1 h; exact ⟨_, rfl⟩
  case absx => obtain ⟨l, b, rfl⟩ := List.length_eq_two.1 h; exact ⟨_, rfl⟩
  case absy => obtain ⟨l, b, rfl⟩ := List.length_eq_two.1 h; exact ⟨_, rfl⟩
  case ind => obtain ⟨l, b, rfl⟩ := List.length_eq_two.1 h; exact ⟨_, rfl⟩
  all_goals (obtain ⟨b, rfl⟩ := List.length_eq_one_iff.1 h; exact ⟨_, rfl⟩)

/-- The bytes of a record's length always decode. -/
theorem decode_of_length {opc : Byte} {r : Row} {bs : List Byte} (hr : recordOf opc = some r)
    (h : bs.length = r.mode.operandBytes) : ∃ i, decode (opc :: bs) = .ok (i, []) ∧ i.wf = true ∧ opcodeOf i = some opc := by
  obtain ⟨o, ho⟩ := operandOf_of_length h
  have hm := (operandOf_some ho).1
  exact ⟨r.make o, by simp [decode, hr, ho], (make_fits hr hm).1, (make_fits hr hm).2.1⟩

theorem opcodeOf_jam_mem {i : Fin 12} {opc : Byte} (h : opcodeOf (.jam i) = some opc) : opc ∈ jamOpcodes := by
  revert i; decide +revert

/-- How a fetch ends: before `exec`, or in `exec` of a well-formed instruction with PC past its opcode, which is no JAM
under `JAM_POLICY = stuck`. No read of a fetch writes RAM. -/
theorem fetchExecute_cases (s : State) :
    (∃ info opc u, fetchExecute s = raise (.invalidAddress info) s.pc opc u ∧
      ∃ w, BusStep s w ∧ w.ram = s.ram ∧ (opc = none ∧ u = w ∨ opc ≠ none ∧ u = w.setPc (s.pc + 1))) ∨
    (fetchExecute s = .fault (.stuck s) ∧ s.cfg.jamPolicy = .stuck) ∨
    (∃ opc u, fetchExecute s = refuseUnstable s.pc opc (u.setPc (s.pc + 1)) ∧ BusStep s u) ∨
    ∃ i u, fetchExecute s = exec i u ∧ i.wf = true ∧ BusStep (s.setPc (s.pc + 1)) u ∧ u.ram = s.ram ∧
      (s.cfg.jamPolicy = .stuck → ∀ k, i ≠ .jam k) := by
  unfold fetchExecute
  cases h1 : memRead s.pc s with
  | fail k t =>
    obtain ⟨⟨info, rfl⟩, rfl⟩ := memRead_fail h1
    exact .inl ⟨info, none, t, rfl, t, .refl t, rfl, .inl ⟨rfl, rfl⟩⟩
  | ok opc t =>
    have b1 := memRead_step h1
    have r1 : (t.setPc (s.pc + 1)).ram = s.ram := by rw [State.setPc_ram, memRead_ramEq h1]
    obtain ⟨r, hr⟩ := recordOf_total opc
    simp only [hr]
    split
    · rename_i hs
      exact .inr (.inl ⟨rfl, by simpa [sticks] using (Bool.and_eq_true_iff.1 hs).1⟩)
    · rename_i hs
      split
      · exact .inr (.inr (.inl ⟨opc, t, rfl, b1⟩))
      · have b2 : BusStep (s.setPc (s.pc + 1)) (t.setPc (s.pc + 1)) :=
          ⟨⟨b1.run, b1.cart, b1.cfg, b1.cycles, b1.scanline, b1.dot, b1.frames, b1.ramKept, b1.videoInv⟩, b1.a, b1.x, b1.y,
            b1.sp, b1.p, rfl⟩
        have hpc : s.pc + 1 - 1 = s.pc := by simp
        simp only [executeFetched, State.setPc_pc]
        cases h2 : readBytes r.mode.operandBytes (s.pc + 1) (t.setPc (s.pc + 1)) with
        | fail k u =>
          obtain ⟨⟨info, rfl⟩, b3, b5⟩ := readBytes_fail h2
          refine .inl ⟨info, some opc, u, by rw [hpc], u.setPc s.pc, ?_, b5.trans r1, .inr ⟨by simp, ?_⟩⟩
          · have b4 := b2.trans b3
            exact ⟨⟨b4.run, b4.cart, b4.cfg, b4.cycles, b4.scanline, b4.dot, b4.frames, b4.ramKept, b4.videoInv⟩, b4.a,
              b4.x, b4.y, b4.sp, b4.p, rfl⟩
          · have b4 : u.pc = s.pc + 1 := (b2.trans b3).pc
            rw [← b4]; rfl
        | ok bytes u =>
          obtain ⟨i, hd, hw, ho⟩ := decode_of_length hr (readBytes_length h2)
          simp only [hd]
          refine .inr (.inr (.inr ⟨i, u, rfl, hw, b2.trans (readBytes_step h2), (readBytes_ramEq h2).trans r1, ?_⟩))
          rintro hj k rfl
          exact hs (by simp [sticks, hj, opcodeOf_jam_mem ho])

/-- 30_encoding R125: a running step with no NMI pending is a fetch. -/
theorem step_of_running (hr : s.run = .running) (hn : s.video.nmiPending = false) : step s = fetchExecute s := by
  have hp : s.video.poll = (false, s.video) := by
    unfold Video.poll; rw [hn]; exact Prod.ext rfl (by cases hv : s.video; simp [hv] at hn; simp [hn])
  unfold step; rw [hr]; simp only [runningStep, hp, Bool.false_eq_true, if_false]
  rfl

/-- 60_exceptions R295: a running step with an NMI pending is the interrupt sequence. -/
theorem step_of_nmi (hr : s.run = .running) (hn : s.video.nmiPending = true) :
    step s = takeInterrupt (s.setVideo s.video.poll.2) := by
  have hp : s.video.poll.1 = true := by simp [Video.poll, hn]
  unfold step; rw [hr]; simp only [runningStep, hp, if_true]

/-- A step that has a next state: an interrupt sequence, or `exec` of a well-formed instruction. -/
theorem step_next (h : step s = .next t) :
    s.run = .running ∧
    ((s.video.nmiPending = true ∧ takeInterrupt (s.setVideo s.video.poll.2) = .next t) ∨
      (s.video.nmiPending = false ∧ ∃ i u, exec i u = .next t ∧ i.wf = true ∧ BusStep (s.setPc (s.pc + 1)) u)) := by
  have hrun : s.run = .running := by
    cases hrun : s.run <;> simp only [step, hrun] at h <;> first | rfl | cases h
  refine ⟨hrun, ?_⟩
  cases hn : s.video.nmiPending
  · rw [step_of_running hrun hn] at h
    rcases fetchExecute_cases s with ⟨info, opc, u, e, -⟩ | ⟨e, -⟩ | ⟨opc, u, e, -⟩ | ⟨i, u, e, hw, hb, -⟩
    · rw [e] at h; cases h
    · rw [e] at h; cases h
    · rw [e] at h; cases h
    · exact .inr ⟨rfl, i, u, by rw [← e]; exact h, hw, hb⟩
  · exact .inl ⟨rfl, by rw [← step_of_nmi hrun hn]; exact h⟩

end Sys2Proof.Machine
end

