-- ==== Sys2Proof/Tests/Slice0.lean ====
section
/-! SUPPORT. Tests: ill-formed terms, words written out from the Encoding lines, vectors of 95_test_vectors (their expected
results are the spec's), and for each statement states and operands that meet its hypotheses. -/

namespace Sys2Proof.Tests

open Sys2Proof.Machine Sys2Proof.Claims

/-- The vector start state of 95_test_vectors section 0: bytes at 0x0600 and the listed cells of RAM; SPRITE_STATUS reads
00, as section 0 has it. -/
def start (bytes : List Byte) (cells : List (Nat × Byte)) : State :=
  { State.reset with
    pc := 0x0600
    ram := cells.foldl (fun m c => m.write c.1 c.2) (Memory.writeAll [] 0x0600 bytes)
    cfg := { Config.default with spriteStatus := .fixed 0 } }

/-- A view of the next state. -/
def look {β : Type} (f : State → β) : Host.Outcome State Fault Refusal → Option β
  | .next t => some (f t)
  | .fault _ | .refused _ => none

/-- Every byte string is the instruction beside it, with no byte left. -/
def decodesTo (l : List (List Byte × Instr)) : Bool :=
  l.all fun c => match decode c.1 with
    | .ok (i, []) => decide (i = c.2)
    | _ => false

/-- The record of a fault. -/
def faultOf : Host.Outcome State Fault Refusal → Option FaultRecord
  | .fault (.invalidAddress _ t) => match t.run with
    | .faulted r => some r
    | .running | .halted | .refused _ _ => none
  | _ => none

/-! ## Ill-formed terms: one for each operand form list of WellFormed.lean -/

theorem test_wf_refuses_loads : (Instr.lda (.zeroPageY 0x10)).wf = false ∧ (Instr.ldx (.zeroPageX 0x10)).wf = false ∧
    (Instr.ldy (.absoluteY 0x0200)).wf = false ∧ (Instr.lax (.immediate 0x01)).wf = false := by decide

theorem test_wf_refuses_stores : (Instr.sta (.immediate 0x01)).wf = false ∧ (Instr.stx (.zeroPageX 0x10)).wf = false ∧
    (Instr.sty (.zeroPageY 0x10)).wf = false ∧ (Instr.sax (.absoluteX 0x0200)).wf = false ∧
    (Instr.sha (.zeroPage 0x10)).wf = false := by decide

theorem test_wf_refuses_arithmetic : (Instr.adc .implied).wf = false ∧ (Instr.sbc .accumulator).wf = false ∧
    (Instr.and (.indirect 0x0200)).wf = false ∧ (Instr.ora (.relative 0x00)).wf = false ∧
    (Instr.eor (.zeroPageY 0x10)).wf = false ∧ (Instr.cmp .implied).wf = false ∧ (Instr.cpx (.zeroPageX 0x10)).wf = false ∧
    (Instr.cpy (.absoluteX 0x0200)).wf = false ∧ (Instr.bit (.immediate 0x01)).wf = false := by decide

theorem test_wf_refuses_modifies : (Instr.inc .accumulator).wf = false ∧ (Instr.dec (.immediate 0x01)).wf = false ∧
    (Instr.asl (.absoluteY 0x0200)).wf = false ∧ (Instr.lsr .implied).wf = false ∧ (Instr.rol (.immediate 0x01)).wf = false ∧
    (Instr.ror (.indirectIndexed 0x10)).wf = false := by decide

theorem test_wf_refuses_combinations : (Instr.slo (.immediate 0x01)).wf = false ∧ (Instr.rla .accumulator).wf = false ∧
    (Instr.sre (.zeroPageY 0x10)).wf = false ∧ (Instr.rra .implied).wf = false ∧ (Instr.dcp (.immediate 0x01)).wf = false ∧
    (Instr.isc (.relative 0x00)).wf = false := by decide

/-! ## Decoding: for every constructor, bytes written out from its rule's Encoding line -/

/-- R140 to R151. -/
theorem test_decode_load_store_transfer : decodesTo [
    ([0xA9, 0x05], .lda (.immediate 0x05)), ([0xB6, 0xFF], .ldx (.zeroPageY 0xFF)),
    ([0xAC, 0x34, 0x12], .ldy (.absolute 0x1234)), ([0x81, 0x0E], .sta (.indexedIndirect 0x0E)),
    ([0x8E, 0x01, 0x18], .stx (.absolute 0x1801)), ([0x94, 0x80], .sty (.zeroPageX 0x80)), ([0xAA], .tax),
    ([0xA8], .tay), ([0x8A], .txa), ([0x98], .tya), ([0xBA], .tsx), ([0x9A], .txs)] = true := by decide

/-- R160 to R174. -/
theorem test_decode_arithmetic : decodesTo [
    ([0x71, 0x10], .adc (.indirectIndexed 0x10)), ([0xF9, 0xFF, 0x00], .sbc (.absoluteY 0x00FF)),
    ([0x3D, 0xF0, 0x02], .and (.absoluteX 0x02F0)), ([0x0D, 0x07, 0x20], .ora (.absolute 0x2007)),
    ([0x45, 0x7F], .eor (.zeroPage 0x7F)), ([0xD5, 0x20], .cmp (.zeroPageX 0x20)),
    ([0xE0, 0xFF], .cpx (.immediate 0xFF)), ([0xCC, 0x00, 0x80], .cpy (.absolute 0x8000)),
    ([0x24, 0x10], .bit (.zeroPage 0x10)), ([0xF6, 0x01], .inc (.zeroPageX 0x01)),
    ([0xDE, 0x00, 0x02], .dec (.absoluteX 0x0200)), ([0xE8], .inx), ([0xC8], .iny), ([0xCA], .dex), ([0x88], .dey)] = true := by decide

/-- R191 to R194. -/
theorem test_decode_shifts : decodesTo [
    ([0x0A], .asl .accumulator), ([0x46, 0x10], .lsr (.zeroPage 0x10)),
    ([0x2E, 0x00, 0x03], .rol (.absolute 0x0300)), ([0x7E, 0xFF, 0x01], .ror (.absoluteX 0x01FF))] = true := by decide

/-- R200 to R216. -/
theorem test_decode_control : decodesTo [
    ([0x10, 0x04], .bpl 0x04), ([0x30, 0x80], .bmi 0x80), ([0x50, 0x7F], .bvc 0x7F), ([0x70, 0x02], .bvs 0x02),
    ([0x90, 0x01], .bcc 0x01), ([0xB0, 0xFE], .bcs 0xFE), ([0xD0, 0xFF], .bne 0xFF), ([0xF0, 0xFD], .beq 0xFD),
    ([0x4C, 0x34, 0x12], .jmpAbsolute 0x1234), ([0x6C, 0xFF, 0x02], .jmpIndirect 0x02FF),
    ([0x20, 0x00, 0x07], .jsr 0x0700), ([0x60], .rts), ([0x40], .rti), ([0x00], .brk)] = true := by decide

/-- R220 to R236. -/
theorem test_decode_flags_and_stack : decodesTo [
    ([0x18], .clc), ([0x38], .sec), ([0x58], .cli), ([0x78], .sei), ([0xD8], .cld), ([0xF8], .sed), ([0xB8], .clv),
    ([0x48], .pha), ([0x08], .php), ([0x68], .pla), ([0x28], .plp), ([0xEA], .nop)] = true := by decide

/-- R241 to R261. -/
theorem test_decode_undocumented : decodesTo [
    ([0x03, 0x10], .slo (.indexedIndirect 0x10)), ([0x33, 0x10], .rla (.indirectIndexed 0x10)),
    ([0x4F, 0x00, 0x02], .sre (.absolute 0x0200)), ([0x77, 0x10], .rra (.zeroPageX 0x10)),
    ([0xDB, 0x00, 0x02], .dcp (.absoluteY 0x0200)), ([0xFF, 0x00, 0x02], .isc (.absoluteX 0x0200)),
    ([0x97, 0x10], .sax (.zeroPageY 0x10)), ([0xB7, 0x10], .lax (.zeroPageY 0x10)), ([0x0B, 0x80], .anc 0 0x80),
    ([0x2B, 0x80], .anc 1 0x80), ([0x4B, 0x03], .alr 0x03), ([0x6B, 0xFF], .arr 0xFF), ([0x8B, 0x0F], .ane 0x0F),
    ([0xAB, 0x5A], .lxa 0x5A), ([0xCB, 0x02], .sbx 0x02), ([0xEB, 0x01], .usbc 0x01),
    ([0x93, 0x10], .sha (.indirectIndexed 0x10)), ([0x9F, 0x00, 0x02], .sha (.absoluteY 0x0200)),
    ([0x9B, 0x00, 0x02], .tas 0x0200), ([0x9C, 0xF0, 0x02], .shy 0x02F0), ([0x9E, 0x00, 0x02], .shx 0x0200),
    ([0xBB, 0x00, 0x02], .las 0x0200)] = true := by decide

/-- R262 to R268. -/
theorem test_decode_no_operations : decodesTo [
    ([0x1A], .nopImplied 0), ([0xFA], .nopImplied 5), ([0x80, 0x12], .nopImmediate 0 0x12),
    ([0xE2, 0x12], .nopImmediate 4 0x12), ([0x04, 0x10], .nopZeroPage 0 0x10), ([0x64, 0x10], .nopZeroPage 2 0x10),
    ([0xF4, 0x10], .nopZeroPageX 5 0x10), ([0x0C, 0x00, 0x02], .nopAbsolute 0x0200),
    ([0xFC, 0x00, 0x02], .nopAbsoluteX 5 0x0200), ([0x02], .jam 0), ([0xF2], .jam 11)] = true := by decide

/-- The table's numbering: the first byte is bits 7 to 0, operand bytes above `nbits` are 0. -/
theorem test_decodeTableWord : decodeTableWord 16 0x05A9 = some (.lda (.immediate 0x05)) ∧
    decodeTableWord 8 0x6C = some (.jmpIndirect 0x0000) ∧ decodeTableWord 24 0x0700_20 = some (.jsr 0x0700) := by decide

/-! ## One step: vectors of 95_test_vectors -/

/-- Vector AR1 (R160). -/
theorem test_adc_AR1 :
    look (fun t => (t.a, t.p)) (step { start [0x69, 0x50] [] with a := 0x50 }) = some (0xA0, 0xC0) := by decide

/-- Vector AR3 (R160). -/
theorem test_adc_AR3 :
    look (fun t => (t.a, t.p)) (step { start [0x69, 0x80] [] with a := 0x80 }) = some (0x00, 0x43) := by decide

/-- Vector UD11 (R250). -/
theorem test_alr_UD11 :
    look (fun t => (t.a, t.p)) (step { start [0x4B, 0x03] [] with a := 0xFF }) = some (0x01, 0x01) := by decide

/-- Vector UD10 (R249). -/
theorem test_anc_UD10 :
    look (fun t => (t.a, t.p)) (step { start [0x0B, 0x80] [] with a := 0xFF }) = some (0x80, 0x81) := by decide

/-- Vector AR10 (R162). -/
theorem test_and_AR10 :
    look (fun t => (t.a, t.p)) (step { start [0x29, 0x0F] [] with a := 0xF0 }) = some (0x00, 0x02) := by decide

/-- Vector UD14 (R252). -/
theorem test_ane_UD14 :
    look (fun t => (t.a, t.cycles)) (step { start [0x8B, 0x0F] [] with a := 0x00, x := 0x3C }) = some (0x0C, 2) := by decide

/-- Vector UD12 (R251). -/
theorem test_arr_UD12 :
    look (fun t => (t.p, t.cycles)) (step { start [0x6B, 0xFF] [] with a := 0xFF, p := 0x01 }) = some (0x81, 2) := by decide

/-- Vector UD13 (R251). -/
theorem test_arr_UD13 :
    look (fun t => (t.a, t.p)) (step { start [0x6B, 0xFF] [] with a := 0x80 }) = some (0x40, 0x41) := by decide

/-- Vector SH1 (R191). -/
theorem test_asl_SH1 :
    look (fun t => (t.a, t.p)) (step { start [0x0A] [] with a := 0x80 }) = some (0x00, 0x03) := by decide

/-- Vector SH2 (R191). -/
theorem test_asl_SH2 :
    look (fun t => (t.ram.read 0x0010, t.p)) (step (start [0x06, 0x10] [(0x0010, 0x41)])) = some (0x82, 0x80) := by decide

/-- Vector CT5 (R205). -/
theorem test_bcc_CT5 :
    look (fun t => (t.pc, t.cycles)) (step { start [0x90, 0x02] [] with p := 0x01 }) = some (0x0602, 2) := by decide

/-- Vector CT6 (R206). -/
theorem test_bcs_CT6 :
    look (fun t => (t.pc, t.cycles)) (step { start [0xB0, 0x80] [] with p := 0x01 }) = some (0x0582, 4) := by decide

/-- Vector CT8 (R208). -/
theorem test_beq_CT8 :
    look (fun t => (t.pc, t.cycles)) (step { start [0xF0, 0xFD] [] with p := 0x02 }) = some (0x05FF, 4) := by decide

/-- Vector AR18 (R168). -/
theorem test_bit_AR18 :
    look (fun t => (t.p, t.cycles)) (step { start [0x24, 0x10] [(0x0010, 0xC0)] with a := 0x01 }) = some (0xC2, 3) := by decide

/-- Vector AR19 (R168). -/
theorem test_bit_AR19 :
    look (fun t => (t.p, t.cycles)) (step { start [0x2C, 0x00, 0x02] [(0x0200, 0x01)] with a := 0xFF, p := 0xC0 }) = some (0x00, 4) := by decide

/-- Vector CT2 (R202). -/
theorem test_bmi_CT2 :
    look (fun t => (t.pc, t.cycles)) (step { start [0x30, 0x04] [] with p := 0x00 }) = some (0x0602, 2) := by decide

/-- Vector CT7 (R207). -/
theorem test_bne_CT7 :
    look (fun t => (t.pc, t.cycles)) (step { start [0xD0, 0xFE] [] with p := 0x00 }) = some (0x0600, 3) := by decide

/-- Vector CT9 (R209). -/
theorem test_bne_CT9 :
    look (fun t => (t.pc, t.cycles)) (step { start [0xD0, 0xFF] [] with p := 0x00 }) = some (0x0601, 3) := by decide

/-- Vector CT1 (R201). -/
theorem test_bpl_CT1 :
    look (fun t => (t.pc, t.cycles)) (step { start [0x10, 0x04] [] with p := 0x00 }) = some (0x0606, 3) := by decide

/-- Vector CT15 (R216). -/
theorem test_brk_CT15 :
    look (fun t => (t.pc, t.run)) (step { start [0x00] [] with a := 0x12 }) = some (0x0601, .halted) := by decide

/-- Vector CT3 (R203). -/
theorem test_bvc_CT3 :
    look (fun t => (t.pc, t.cycles)) (step { start [0x50, 0x7F] [] with p := 0x00 }) = some (0x0681, 3) := by decide

/-- Vector CT4 (R204). -/
theorem test_bvs_CT4 :
    look (fun t => (t.pc, t.cycles)) (step { start [0x70, 0x02] [] with p := 0x40 }) = some (0x0604, 3) := by decide

/-- Vector FS1 (R220). -/
theorem test_clc_FS1 :
    look (fun t => (t.p, t.cycles)) (step { start [0x18] [] with p := 0xFF }) = some (0xFE, 2) := by decide

/-- Vector FS5 (R224). -/
theorem test_cld_FS5 :
    look (fun t => (t.p, t.cycles)) (step { start [0xD8] [] with p := 0x08 }) = some (0x00, 2) := by decide

/-- Vector FS3 (R222). -/
theorem test_cli_FS3 :
    look (fun t => (t.p, t.cycles)) (step { start [0x58] [] with p := 0x04 }) = some (0x00, 2) := by decide

/-- Vector FS7 (R226). -/
theorem test_clv_FS7 :
    look (fun t => (t.p, t.cycles)) (step { start [0xB8] [] with p := 0x40 }) = some (0x00, 2) := by decide

/-- Vector AR13 (R165). -/
theorem test_cmp_AR13 :
    look (fun t => (t.p, t.cycles)) (step { start [0xC9, 0x10] [] with a := 0x10 }) = some (0x03, 2) := by decide

/-- Vector AR15 (R165). -/
theorem test_cmp_AR15 :
    look (fun t => (t.p, t.cycles)) (step { start [0xC9, 0x01] [] with a := 0x90 }) = some (0x81, 2) := by decide

/-- Vector AR16 (R166). -/
theorem test_cpx_AR16 :
    look (fun t => (t.pc, t.cycles)) (step { start [0xE0, 0xFF] [] with x := 0x00 }) = some (0x0602, 2) := by decide

/-- Vector AR17 (R167). -/
theorem test_cpy_AR17 :
    look (fun t => (t.p, t.cycles)) (step { start [0xC4, 0x10] [(0x0010, 0x3F)] with y := 0x40 }) = some (0x01, 3) := by decide

/-- Vector UD5 (R245). -/
theorem test_dcp_UD5 :
    look (fun t => (t.ram.read 0x0010, t.p)) (step { start [0xC7, 0x10] [(0x0010, 0x06)] with a := 0x05 }) = some (0x05, 0x03) := by decide

/-- Vector AR21 (R170). -/
theorem test_dec_AR21 :
    look (fun t => (t.ram.read 0x0205, t.p)) (step { start [0xDE, 0x00, 0x02] [(0x0205, 0x00)] with x := 0x05 }) = some (0xFF, 0x80) := by decide

/-- Vector AR24 (R173). -/
theorem test_dex_AR24 :
    look (fun t => (t.x, t.p)) (step { start [0xCA] [] with x := 0x01 }) = some (0x00, 0x02) := by decide

/-- Vector AR25 (R174). -/
theorem test_dey_AR25 :
    look (fun t => (t.y, t.p)) (step { start [0x88] [] with y := 0x00 }) = some (0xFF, 0x80) := by decide

/-- Vector AR12 (R164). -/
theorem test_eor_AR12 :
    look (fun t => (t.a, t.p)) (step { start [0x49, 0xFF] [] with a := 0x0F }) = some (0xF0, 0x80) := by decide

/-- Vector AR20 (R169). -/
theorem test_inc_AR20 :
    look (fun t => (t.ram.read 0x0010, t.p)) (step (start [0xE6, 0x10] [(0x0010, 0xFF)])) = some (0x00, 0x02) := by decide

/-- Vector AR22 (R171). -/
theorem test_inx_AR22 :
    look (fun t => (t.x, t.p)) (step { start [0xE8] [] with x := 0xFF }) = some (0x00, 0x02) := by decide

/-- Vector AR23 (R172). -/
theorem test_iny_AR23 :
    look (fun t => (t.y, t.p)) (step { start [0xC8] [] with y := 0x7F }) = some (0x80, 0x80) := by decide

/-- Vector UD6 (R246). -/
theorem test_isc_UD6 :
    look (fun t => (t.ram.read 0x0010, t.a)) (step { start [0xE7, 0x10] [(0x0010, 0x04)] with a := 0x05, p := 0x01 }) = some (0x05, 0x00) := by decide

/-- Vector UD31 (R268). -/
theorem test_jam_UD31 :
    look (fun t => (t.pc, t.cycles)) (step { start [0x02] [] with a := 0x01 }) = some (0x0601, 2) := by decide

/-- Vector CT10 (R210). -/
theorem test_jmpAbsolute_CT10 :
    look (fun t => (t.pc, t.cycles)) (step (start [0x4C, 0x34, 0x12] [])) = some (0x1234, 3) := by decide

/-- Vector CT11 (R212). -/
theorem test_jmpIndirect_CT11 :
    look (fun t => (t.pc, t.cycles)) (step (start [0x6C, 0xFF, 0x02] [(0x02FF, 0x00), (0x0200, 0x07), (0x0300, 0x09)])) = some (0x0700, 5) := by decide

/-- Vector CT12 (R213). -/
theorem test_jsr_CT12 :
    look (fun t => (t.ram.read 0x01FD, t.ram.read 0x01FC)) (step (start [0x20, 0x00, 0x07] [])) = some (0x06, 0x02) := by decide

/-- Vector UD24 (R261). -/
theorem test_las_UD24 :
    look (fun t => (t.sp, t.a)) (step { start [0xBB, 0x00, 0x02] [(0x0200, 0x3F)] with sp := 0xF0 }) = some (0x30, 0x30) := by decide

/-- Vector UD8 (R248). -/
theorem test_lax_UD8 :
    look (fun t => (t.a, t.x)) (step (start [0xA7, 0x10] [(0x0010, 0x80)])) = some (0x80, 0x80) := by decide

/-- Vector UD9 (R248). -/
theorem test_lax_UD9 :
    look (fun t => (t.p, t.cycles)) (step { start [0xBF, 0xF0, 0x02] [(0x0310, 0x00)] with y := 0x20 }) = some (0x02, 5) := by decide

/-- Vector AM7 (R116, R121). -/
theorem test_lda_AM7 :
    look (fun t => (t.a, t.cycles)) (step { start [0xBD, 0xF0, 0x02] [(0x0310, 0x02)] with x := 0x20 }) = some (0x02, 5) := by decide

/-- Vector LS1 (R140). -/
theorem test_lda_LS1 :
    look (fun t => (t.a, t.p)) (step { start [0xA9, 0x00] [] with a := 0x12 }) = some (0x00, 0x02) := by decide

/-- Vector AM4 (R114). -/
theorem test_ldx_AM4 :
    look (fun t => (t.x, t.cycles)) (step { start [0xB6, 0xFF] [(0x0001, 0x33)] with y := 0x02 }) = some (0x33, 4) := by decide

/-- Vector LS3 (R141). -/
theorem test_ldx_LS3 :
    look (fun t => (t.x, t.p)) (step (start [0xAE, 0x00, 0x02] [(0x0200, 0xFF)])) = some (0xFF, 0x80) := by decide

/-- Vector LS4 (R142). -/
theorem test_ldy_LS4 :
    look (fun t => (t.y, t.cycles)) (step { start [0xB4, 0x10] [(0x0011, 0x01)] with x := 0x01 }) = some (0x01, 4) := by decide

/-- Vector SH3 (R192). -/
theorem test_lsr_SH3 :
    look (fun t => (t.a, t.p)) (step { start [0x4A] [] with a := 0x01 }) = some (0x00, 0x03) := by decide

/-- Vector SH4 (R192). -/
theorem test_lsr_SH4 :
    look (fun t => (t.ram.read 0x0200, t.cycles)) (step (start [0x4E, 0x00, 0x02] [(0x0200, 0xFE)])) = some (0x7F, 6) := by decide

/-- Vector UD15 (R253). -/
theorem test_lxa_UD15 :
    look (fun t => (t.a, t.x)) (step { start [0xAB, 0x5A] [] with a := 0x00 }) = some (0x5A, 0x5A) := by decide

/-- Vector FS15 (R236). -/
theorem test_nop_FS15 :
    look (fun t => (t.pc, t.cycles)) (step { start [0xEA] [] with a := 0x01, p := 0x81 }) = some (0x0601, 2) := by decide

/-- Vector UD29 (R266). -/
theorem test_nopAbsolute_UD29 :
    look (fun t => (t.pc, t.cycles)) (step (start [0x0C, 0x00, 0x02] [])) = some (0x0603, 4) := by decide

/-- Vector UD30 (R267). -/
theorem test_nopAbsoluteX_UD30 :
    look (fun t => (t.pc, t.cycles)) (step { start [0x1C, 0xF0, 0x02] [] with x := 0x20 }) = some (0x0603, 5) := by decide

/-- Vector UD26 (R263). -/
theorem test_nopImmediate_UD26 :
    look (fun t => (t.pc, t.cycles)) (step (start [0x80, 0x12] [])) = some (0x0602, 2) := by decide

/-- Vector UD25 (R262). -/
theorem test_nopImplied_UD25 :
    look (fun t => (t.pc, t.cycles)) (step { start [0x1A] [] with a := 0x01 }) = some (0x0601, 2) := by decide

/-- Vector UD27 (R264). -/
theorem test_nopZeroPage_UD27 :
    look (fun t => (t.pc, t.cycles)) (step (start [0x04, 0x10] [(0x0010, 0xFF)])) = some (0x0602, 3) := by decide

/-- Vector UD28 (R265). -/
theorem test_nopZeroPageX_UD28 :
    look (fun t => (t.pc, t.cycles)) (step { start [0x14, 0x10] [] with x := 0x01 }) = some (0x0602, 4) := by decide

/-- Vector AR11 (R163). -/
theorem test_ora_AR11 :
    look (fun t => (t.a, t.p)) (step { start [0x05, 0x10] [(0x0010, 0x80)] with a := 0x01 }) = some (0x81, 0x80) := by decide

/-- Vector FS8 (R230). -/
theorem test_pha_FS8 :
    look (fun t => (t.ram.read 0x01FD, t.sp)) (step { start [0x48] [] with a := 0x99 }) = some (0x99, 0xFC) := by decide

/-- Vector FS13 (R230). -/
theorem test_pha_FS13 :
    look (fun t => (t.ram.read 0x0100, t.sp)) (step { start [0x48] [] with a := 0x5A, sp := 0x00 }) = some (0x5A, 0xFF) := by decide

/-- Vector FS9 (R231). -/
theorem test_php_FS9 :
    look (fun t => (t.ram.read 0x01FD, t.sp)) (step { start [0x08] [] with p := 0xC3 }) = some (0xF3, 0xFC) := by decide

/-- Vector FS10 (R232). -/
theorem test_pla_FS10 :
    look (fun t => (t.a, t.sp)) (step { start [0x68] [(0x01FD, 0x80)] with sp := 0xFC }) = some (0x80, 0xFD) := by decide

/-- Vector FS14 (R232). -/
theorem test_pla_FS14 :
    look (fun t => (t.a, t.sp)) (step { start [0x68] [(0x0100, 0x01)] with sp := 0xFF }) = some (0x01, 0x00) := by decide

/-- Vector FS11 (R233). -/
theorem test_plp_FS11 :
    look (fun t => (t.sp, t.p)) (step { start [0x28] [(0x01FD, 0xFF)] with sp := 0xFC }) = some (0xFD, 0xEF) := by decide

/-- Vector FS12 (R233). -/
theorem test_plp_FS12 :
    look (fun t => (t.sp, t.p)) (step { start [0x28] [(0x01FD, 0x00)] with sp := 0xFC }) = some (0xFD, 0x20) := by decide

/-- Vector UD2 (R242). -/
theorem test_rla_UD2 :
    look (fun t => (t.ram.read 0x0010, t.a)) (step { start [0x27, 0x10] [(0x0010, 0x40)] with a := 0xFF, p := 0x01 }) = some (0x81, 0x81) := by decide

/-- Vector SH5 (R193). -/
theorem test_rol_SH5 :
    look (fun t => (t.a, t.cycles)) (step { start [0x2A] [] with a := 0x80, p := 0x01 }) = some (0x01, 2) := by decide

/-- Vector SH6 (R193). -/
theorem test_rol_SH6 :
    look (fun t => (t.ram.read 0x0011, t.p)) (step { start [0x36, 0x10] [(0x0011, 0x40)] with x := 0x01 }) = some (0x80, 0x80) := by decide

/-- Vector SH7 (R194). -/
theorem test_ror_SH7 :
    look (fun t => (t.a, t.p)) (step { start [0x6A] [] with a := 0x01, p := 0x01 }) = some (0x80, 0x81) := by decide

/-- Vector SH8 (R194). -/
theorem test_ror_SH8 :
    look (fun t => (t.ram.read 0x0200, t.cycles)) (step { start [0x7E, 0xFF, 0x01] [(0x0200, 0x02)] with x := 0x01 }) = some (0x01, 7) := by decide

/-- Vector UD4 (R244). -/
theorem test_rra_UD4 :
    look (fun t => (t.ram.read 0x0010, t.a)) (step { start [0x67, 0x10] [(0x0010, 0x03)] with a := 0x10 }) = some (0x01, 0x12) := by decide

/-- Vector CT14 (R215). -/
theorem test_rti_CT14 :
    look (fun t => (t.pc, t.sp)) (step { start [0x40] [(0x01FB, 0xFF), (0x01FC, 0x34), (0x01FD, 0x12)] with sp := 0xFA }) = some (0x1234, 0xFD) := by decide

/-- Vector CT13 (R214). -/
theorem test_rts_CT13 :
    look (fun t => (t.pc, t.sp)) (step { start [0x60] [(0x01FC, 0x02), (0x01FD, 0x06)] with sp := 0xFB }) = some (0x0603, 0xFD) := by decide

/-- Vector UD7 (R247). -/
theorem test_sax_UD7 :
    look (fun t => (t.ram.read 0x0010, t.cycles)) (step { start [0x87, 0x10] [] with a := 0xF0, x := 0x3C }) = some (0x30, 3) := by decide

/-- Vector AR6 (R161). -/
theorem test_sbc_AR6 :
    look (fun t => (t.a, t.p)) (step { start [0xE9, 0x01] [] with a := 0x00, p := 0x01 }) = some (0xFF, 0x80) := by decide

/-- Vector AR7 (R161). -/
theorem test_sbc_AR7 :
    look (fun t => (t.a, t.p)) (step { start [0xE9, 0x01] [] with a := 0x80, p := 0x01 }) = some (0x7F, 0x41) := by decide

/-- Vector UD16 (R254). -/
theorem test_sbx_UD16 :
    look (fun t => (t.x, t.p)) (step { start [0xCB, 0x02] [] with a := 0x0F, x := 0x07 }) = some (0x05, 0x01) := by decide

/-- Vector UD17 (R254). -/
theorem test_sbx_UD17 :
    look (fun t => (t.x, t.p)) (step { start [0xCB, 0x10] [] with a := 0x0F, x := 0x07 }) = some (0xF7, 0x80) := by decide

/-- Vector FS2 (R221). -/
theorem test_sec_FS2 :
    look (fun t => (t.p, t.cycles)) (step (start [0x38] [])) = some (0x01, 2) := by decide

/-- Vector FS6 (R225). -/
theorem test_sed_FS6 :
    look (fun t => (t.p, t.cycles)) (step (start [0xF8] [])) = some (0x08, 2) := by decide

/-- Vector FS4 (R223). -/
theorem test_sei_FS4 :
    look (fun t => (t.p, t.cycles)) (step (start [0x78] [])) = some (0x04, 2) := by decide

/-- Vector UD19 (R257, R256). -/
theorem test_sha_UD19 :
    look (fun t => (t.ram.read 0x0201, t.cycles)) (step { start [0x93, 0x10] [(0x0010, 0x00), (0x0011, 0x02)] with a := 0xFF, x := 0xFF, y := 0x01 }) = some (0x03, 6) := by decide

/-- Vector UD22 (R260). -/
theorem test_shx_UD22 :
    look (fun t => (t.ram.read 0x0210, t.cycles)) (step { start [0x9E, 0x00, 0x02] [] with x := 0xFF, y := 0x10 }) = some (0x03, 5) := by decide

/-- Vector UD23 (R260, R256). -/
theorem test_shx_UD23 :
    look (fun t => (t.ram.read 0x0310, t.cycles)) (step { start [0x9E, 0xF0, 0x02] [] with x := 0xFF, y := 0x20 }) = some (0x03, 5) := by decide

/-- Vector UD21 (R259, R256). -/
theorem test_shy_UD21 :
    look (fun t => (t.ram.read 0x0110, t.ram.read 0x0310)) (step { start [0x9C, 0xF0, 0x02] [] with y := 0x01, x := 0x20 }) = some (0x01, 0x00) := by decide

/-- Vector UD1 (R241). -/
theorem test_slo_UD1 :
    look (fun t => (t.ram.read 0x0010, t.a)) (step { start [0x07, 0x10] [(0x0010, 0x81)] with a := 0x01 }) = some (0x02, 0x03) := by decide

/-- Vector UD3 (R243). -/
theorem test_sre_UD3 :
    look (fun t => (t.ram.read 0x0010, t.a)) (step { start [0x47, 0x10] [(0x0010, 0x03)] with a := 0x0F }) = some (0x01, 0x0E) := by decide

/-- Vector AM14 (R116, R121). -/
theorem test_sta_AM14 :
    look (fun t => (t.ram.read 0x0310, t.cycles)) (step { start [0x9D, 0xF0, 0x02] [] with a := 0xAB, x := 0x20 }) = some (0xAB, 5) := by decide

/-- Vector LS6 (R144). -/
theorem test_stx_LS6 :
    look (fun t => (t.ram.read 0x0001, t.cycles)) (step { start [0x96, 0xFF] [] with x := 0x5A, y := 0x02 }) = some (0x5A, 4) := by decide

/-- Vector LS7 (R145). -/
theorem test_sty_LS7 :
    look (fun t => (t.ram.read 0x0000, t.cycles)) (step { start [0x8C, 0x00, 0x08] [] with y := 0x77 }) = some (0x77, 4) := by decide

/-- Vector UD20 (R258). -/
theorem test_tas_UD20 :
    look (fun t => (t.ram.read 0x0200, t.sp)) (step { start [0x9B, 0x00, 0x02] [] with a := 0xF3, x := 0x3F }) = some (0x03, 0x33) := by decide

/-- Vector LS8 (R146). -/
theorem test_tax_LS8 :
    look (fun t => (t.x, t.p)) (step { start [0xAA] [] with a := 0x00, x := 0x55 }) = some (0x00, 0x02) := by decide

/-- Vector LS9 (R147). -/
theorem test_tay_LS9 :
    look (fun t => (t.y, t.p)) (step { start [0xA8] [] with a := 0x90 }) = some (0x90, 0x80) := by decide

/-- Vector LS12 (R150). -/
theorem test_tsx_LS12 :
    look (fun t => (t.x, t.p)) (step { start [0xBA] [] with sp := 0xFD }) = some (0xFD, 0x80) := by decide

/-- Vector LS10 (R148). -/
theorem test_txa_LS10 :
    look (fun t => (t.a, t.p)) (step { start [0x8A] [] with x := 0x01, a := 0xFF, p := 0x80 }) = some (0x01, 0x00) := by decide

/-- Vector LS13 (R151). -/
theorem test_txs_LS13 :
    look (fun t => (t.sp, t.cycles)) (step { start [0x9A] [] with x := 0x00, p := 0x80 }) = some (0x00, 2) := by decide

/-- Vector LS11 (R149). -/
theorem test_tya_LS11 :
    look (fun t => (t.a, t.p)) (step { start [0x98] [] with y := 0x80 }) = some (0x80, 0x80) := by decide

/-- Vector UD18 (R255). -/
theorem test_usbc_UD18 :
    look (fun t => (t.a, t.p)) (step { start [0xEB, 0x01] [] with a := 0x00, p := 0x01 }) = some (0xFF, 0x80) := by decide

/-! ## The interrupt, the video unit, faults, reset and the parameters -/

/-- Vector NM1 (R292, R295). -/
theorem test_interrupt_NM1 :
    look (fun t => (t.pc, t.p, t.sp, t.ram.read 0x01FB))
      (step { start [0xEA] [] with
        p := 0xC1, video.nmiPending := true, cart.prg := [(0x7FFB, 0x80)] }) = some (0x8000, 0xC5, 0xFA, 0xE1) := by decide

/-- Vector NM2 (R294): P.I masks nothing. -/
theorem test_interrupt_NM2 :
    look (fun t => (t.pc, t.ram.read 0x01FB))
      (step { start [0xEA] [] with
        p := 0x04, video.nmiPending := true, cart.prg := [(0x7FFB, 0x80)] }) = some (0x8000, 0x24) := by decide

/-- Vector NM7 (R308). -/
theorem test_vertical_blank_NM7 :
    look (fun t => (t.video.scanline, t.video.dot, t.video.status, t.video.nmiPending))
      (step { start [0xEA] [] with video.scanline := 240, video.dot := 336, video.ctrl := 0x80 }) =
      some (241, 1, 0x80, true) := by decide

/-- Vector NM9 (R309, R310). -/
theorem test_frame_end_NM9 :
    look (fun t => (t.video.scanline, t.video.dot, t.video.status, t.video.frames))
      (step { start [0xEA] [] with video.scanline := 261, video.dot := 338, video.status := 0x80 }) =
      some (0, 3, 0x00, 1) := by decide

/-- Vector VP1 (R305): a STATUS read clears vertical blank and the latch toggle. -/
theorem test_status_read_VP1 :
    look (fun t => (t.a, t.video.status, t.video.w))
      (step { start [0xAD, 0x02, 0x20] [] with video.status := 0x80, video.w := true }) = some (0x80, 0x00, false) := by decide

/-- Vector VP17's last step (R319, R320): INC $2007 reads the stale RDBUF and writes the next cell. -/
theorem test_data_port_VP17 :
    look (fun t => (t.video.vram.read 1, t.video.rdbuf, t.video.vaddr))
      (step { start [0xEE, 0x07, 0x20] [] with
        video.vaddr := 0x2000, video.rdbuf := 0x05, video.vram := [(0, 0x10)] }) = some (0x06, 0x10, 0x2002) := by decide

/-- Vector FT1 (R281, R282). -/
theorem test_fault_FT1 : (faultOf (step (start [0xAD, 0x00, 0x40] []))).map (fun r => (r.kind, r.opc, r.pc, r.cycles)) =
    some (.invalidAddress (.unmapped .read 0x4000), some 0xAD, 0x0601, 0) := by decide

/-- Vector FT6's second step (R282): the opcode fetch itself faults. -/
theorem test_fault_FT6 : (faultOf (step { start [] [] with pc := 0x4000 })).map (fun r => (r.opAddr, r.opc, r.pc)) =
    some (0x4000, none, 0x4000) := by decide

/-- Vector FT7 (R283): the read of ROM succeeds and the write faults. -/
theorem test_fault_FT7 : (faultOf (step { start [0xEE, 0x00, 0x80] [] with a := 0x33 })).map (fun r => (r.kind, r.a)) =
    some (.invalidAddress (.romWrite 0x8000), 0x33) := by decide

/-- Vector MM7's second step (R79, R282): the read of STATUS stands though the operand fetch faults. -/
theorem test_fault_MM7 :
    (faultOf (step { start [] [] with pc := 0x2002, video.status := 0x80 })).map (fun r => (r.kind, r.opc, r.pc)) =
      some (.invalidAddress (.writeOnlyPortRead .oamAddr 0x2003), some 0x80, 0x2003) := by decide

/-- Vector RS1 (R340, R341). -/
theorem test_reset_RS1 :
    let s := hostReset { start [] [] with
      a := 0x12, sp := 0x10, p := 0xFF, pc := 0x1234, cycles := 100, video.ctrl := 0x80
      cart.prg := [(0x7FFC, 0x23), (0x7FFD, 0x81)] }
    (s.pc, s.sp, s.p, s.cycles, s.video.ctrl) = (0x8123, 0xFD, 0x00, 100, 0x80) := by decide

/-- Vector PV1 (R124, R209): under `PC_ADVANCE = compare` a branch to op_addr + 1 is advanced past its operand. -/
theorem test_compare_PV1 : look (fun t => (t.pc, t.cycles))
    (step { start [0xD0, 0xFF] [] with cfg := { Config.default with pcAdvance := .compare } }) = some (0x0602, 3) := by decide

/-- A word placed where the reset state fetches is the one the next step runs (LDA #$05). -/
theorem test_withFetchWord : look (fun t => (t.a, t.pc)) (step (State.reset.withFetchWord 16 0x05A9)) = some (0x05, 0x0002) := by
  decide

/-! ## Witnesses: states and operands that meet a statement's hypotheses, clause by clause -/

/-- A running machine whose RAM holds `LDA $10` at PC and data in the zero page and in page 2. -/
def sample : State := start [0xA5, 0x10] [(0x0010, 0x42), (0x0011, 0x02), (0x0242, 0x99)]

/-- The same under the open-bus policy. -/
def openSample : State := { sample with cfg := { Config.default with busPolicy := .openBus } }

/-- A machine that faulted, and one that was refused. -/
def faultedSample : State := faulted (.invalidAddress (.unmapped .read 0x4000)) 0x0600 (some 0xAD) (sample.setPc 0x0601)
def refusedSample : State := sample.setRun (.refused 0x0600 0x8B)

theorem witness_DecodeEncode : (Instr.lda (.absoluteX 0xFFFF)).wf = true ∧ (Instr.jam 11).wf = true := by decide

theorem witness_EncodeDecode : ∃ i, decode [0x6C, 0xFF, 0x02, 0xEA] = .ok (i, [0xEA]) := ⟨_, rfl⟩

theorem witness_TableComplete : (∃ r, recordOf 0x00 = some r) ∧ ∃ r, recordOf 0xFF = some r := ⟨⟨_, rfl⟩, _, rfl⟩

theorem witness_StepRunsDecoded : ∃ t u r bytes rest i, sample.run = .running ∧ sample.video.nmiPending = false ∧
    memRead sample.pc sample = .ok 0xA5 t ∧ recordOf 0xA5 = some r ∧
    ¬(sample.cfg.jamPolicy = .stuck ∧ 0xA5 ∈ jamOpcodes) ∧ ¬(sample.cfg.unstablePolicy = .refuse ∧ 0xA5 ∈ unstableOpcodes) ∧
    readBytes r.mode.operandBytes (sample.pc + 1) (t.setPc (sample.pc + 1)) = .ok bytes u ∧
    decode (0xA5 :: bytes) = .ok (i, rest) :=
  ⟨_, _, _, _, _, _, rfl, rfl, rfl, rfl, by decide, by decide, rfl, rfl⟩

theorem witness_StepRunsPlaced : sample.run = .running ∧ sample.video.nmiPending = false ∧
    encode (.lda (.zeroPage 0x10)) = some [0xA5, 0x10] ∧ [0xA5, 0x10].getLast? = some (0x10 : Byte) ∧
    (∀ k b, [0xA5, 0x10][k]? = some b → peek sample (sample.pc + BitVec.ofNat 16 k) = some b) ∧
    ¬(sample.cfg.jamPolicy = .stuck ∧ ∃ k, Instr.lda (.zeroPage 0x10) = .jam k) ∧
    ¬(sample.cfg.unstablePolicy = .refuse ∧ Unstable (.lda (.zeroPage 0x10))) := by
  refine ⟨rfl, rfl, rfl, rfl, fun k b h => ?_, fun h => absurd h.1 (by decide), fun h => absurd h.1 (by decide)⟩
  match k with
  | 0 => cases h; rfl
  | 1 => cases h; rfl
  | k + 2 => cases h

/-- A machine with an NMI pending, its stack pointer about to wrap. -/
def nmiSample : State := { sample with sp := 0x01, video.nmiPending := true, cart.prg := [(0x7FFB, 0x80)] }

theorem witness_InterruptTaken : nmiSample.run = .running ∧ nmiSample.video.nmiPending = true := ⟨rfl, rfl⟩

/-- The machine that an interrupt handler leaves, which has written a byte of RAM. -/
def handlerDone (s : State) : State :=
  match step s with
  | .next t => t.setRam (t.ram.write 0x0010 0x77)
  | .fault _ | .refused _ => s

theorem witness_InterruptReturns : ∃ t u : State, nmiSample.run = .running ∧ nmiSample.video.nmiPending = true ∧
    nmiSample.ram.wf = true ∧ step nmiSample = .next t ∧ u.sp = t.sp ∧
    (∀ k ∈ [nmiSample.sp, nmiSample.sp - 1, nmiSample.sp - 2], u.ram.read (cell k) = t.ram.read (cell k)) ∧
    u.ram ≠ t.ram :=
  ⟨_, (handlerDone nmiSample), rfl, rfl, by decide, rfl, by decide, by decide, by decide⟩

theorem witness_OnlyRunningSteps : (∃ t, step sample = .next t) ∧ (hostReset sample).run = .running ∧ sample.run = .running ∧
    (sample.setRun .halted).run = .halted ∧ (∃ r, faultedSample.run = .faulted r) ∧
    ∃ a opc, refusedSample.run = .refused a opc := ⟨⟨_, rfl⟩, rfl, rfl, rfl, ⟨_, rfl⟩, _, _, rfl⟩

theorem witness_HostReset : sample.run = .running ∧ (sample.setRun .halted).run = .halted ∧
    (∃ r, faultedSample.run = .faulted r) ∧ ∃ a opc, refusedSample.run = .refused a opc :=
  ⟨rfl, rfl, ⟨_, rfl⟩, _, _, rfl⟩

theorem witness_HostLoad : sample.ram.wf = true ∧ (List.replicate 0x200 (0xEA : Byte)).length ≤ 0x200 ∧
    0x200 < (List.replicate 0x201 (0xEA : Byte)).length ∧ (∃ r t, faultedSample.run = .faulted r ∧ load [0xEA] faultedSample = some t) ∧
    ∃ a opc t, refusedSample.run = .refused a opc ∧ load [0xEA] refusedSample = some t :=
  ⟨by decide, by rw [List.length_replicate], by rw [List.length_replicate]; decide, ⟨_, _, rfl, rfl⟩, _, _, _, rfl, rfl⟩

/-- 70_reset_and_hazards R344: PC is at the start address though the reset of a faulted state does nothing (R342). -/
theorem test_loadAndRun_faulted : (loadAndStart [0xEA] faultedSample).map (fun t => (t.pc, t.a, t.ram.read 0x600)) =
    some (0x0600, faultedSample.a, 0xEA) := by decide

theorem witness_StepKeepsInv : sample.Inv ∧ ∃ t, step sample = .next t := ⟨by decide, _, rfl⟩

theorem witness_CycleDotIdentity : sample.Synced ∧ (∃ t, step sample = .next t) ∧ ∃ t, load [0xEA] sample = some t :=
  ⟨by decide, ⟨_, rfl⟩, _, rfl⟩

theorem witness_MemoryWindows : ∃ t, (0x1FFF : Word).toNat ≤ 0x1FFF ∧ (0x07FF : Word).toNat ≤ 0x1FFF ∧
    (0x1FFF : Word).toNat % 0x800 = (0x07FF : Word).toNat % 0x800 ∧ sample.ram.wf = true ∧
    memWrite 0x1FFF 0x5A sample = .ok () t ∧ 0x8000 ≤ (0x8000 : Word).toNat :=
  ⟨_, by decide, by decide, by decide, by decide, rfl, by decide⟩

/-- Each clause has an access that takes it, at both ends of its range. -/
theorem witness_AccessFaults : (∃ k t, memRead 0x4000 sample = .fail k t) ∧ (∃ k t, memRead 0x7FFF sample = .fail k t) ∧
    (∃ k t, memRead 0x2000 sample = .fail k t) ∧ (∃ k t, memRead 0x3FFE sample = .fail k t) ∧
    (∃ k t, memWrite 0x4000 1 sample = .fail k t) ∧ (∃ k t, memWrite 0x7FFF 1 sample = .fail k t) ∧
    (∃ k t, memWrite 0x8000 1 sample = .fail k t) ∧ (∃ k t, memWrite 0xFFFF 1 openSample = .fail k t) ∧
    (∃ k t, memWrite 0x3FFA 1 sample = .fail k t) ∧ ∃ k t, memWrite 0x2007 1 openSample = .fail k t :=
  ⟨⟨_, _, rfl⟩, ⟨_, _, rfl⟩, ⟨_, _, rfl⟩, ⟨_, _, rfl⟩, ⟨_, _, rfl⟩, ⟨_, _, rfl⟩, ⟨_, _, rfl⟩, ⟨_, _, rfl⟩,
    ⟨_, _, rfl⟩, _, _, rfl⟩

theorem witness_OpenBus : openSample.cfg.busPolicy = .openBus ∧ (∃ v t, memRead 0x0010 openSample = .ok v t) ∧
    (∃ t, memWrite 0x0010 0x5A openSample = .ok () t) ∧ (∃ k t, memWrite 0x8000 0x5A openSample = .fail k t) ∧
    0x4000 ≤ (0x4000 : Word).toNat ∧ (0x7FFF : Word).toNat ≤ 0x7FFF ∧ portAt 0x2000 0 ∧ portAt 0x3FFE 6 ∧ portAt 0x2002 2 := by
  refine ⟨rfl, ⟨_, _, rfl⟩, ⟨_, rfl⟩, ⟨_, _, rfl⟩, ?_⟩; unfold portAt; decide

theorem witness_PushPop : sample.ram.wf = true ∧ ∃ t, push 0x5A sample = .ok () t := ⟨by decide, _, rfl⟩

theorem witness_TickLaw : Video.construction.dot = 0 ∧ Video.construction.scanline = 0 ∧
    Video.construction.status.getLsbD 7 = false ∧ Video.construction.nmiPending = false := by decide

theorem witness_DotEdges : { Video.construction with dot := 339 }.dot < 340 ∧
    ({ Video.construction with dot := 340, scanline := 239 }.dot = 340 ∧
      { Video.construction with dot := 340, scanline := 239 }.scanline ≠ 240 ∧
      { Video.construction with dot := 340, scanline := 239 }.scanline ≠ 261) ∧
    { Video.construction with dot := 340, scanline := 240 }.scanline = 240 ∧
    { Video.construction with dot := 340, scanline := 261 }.scanline = 261 := by decide

theorem witness_StatusRead : portAt 0x2002 2 ∧ portAt 0x3FFA 2 ∧ sample.cfg.spriteStatus = .fixed 0 ∧
    State.reset.cfg.spriteStatus = .draw := by unfold portAt; decide

theorem witness_CtrlWrite : portAt 0x2000 0 ∧ portAt 0x3FF8 0 := by unfold portAt; decide

theorem witness_StoredPorts : portAt 0x2001 1 ∧ portAt 0x2003 3 ∧ portAt 0x2004 4 ∧ portAt 0x3FFD 5 ∧
    sample.cfg.scrollToggle = .shared ∧
    { sample with cfg := { Config.default with scrollToggle := .separate } }.cfg.scrollToggle = .separate := by
  unfold portAt; decide

theorem witness_AddressLatch : portAt 0x2006 6 ∧ portAt 0x3FFE 6 ∧ sample.video.w = false ∧
    { sample with video.w := true }.video.w = true := by unfold portAt; decide

theorem witness_DataPort : portAt 0x2007 7 ∧ (0x1FFF : Word).toNat < 0x2000 ∧
    (0x2000 ≤ (0x2000 : Word).toNat ∧ (0x3EFF : Word).toNat < 0x3F00) ∧ 0x3F00 ≤ (0x3F00 : Word).toNat := by
  unfold portAt; decide

theorem witness_VideoMirrors : 0x3F00 ≤ (0x3F00 : Word).toNat ∧ (0x3FFF : Word).toNat ≤ 0x3FFF := by decide

theorem witness_OperandRead : address (.zeroPage 0x10) sample = some (0x10, false) ∧
    peek sample (BitVec.ofNat 16 0x10) = some 0x42 ∧
    address (.indirectIndexed 0x10) { sample with y := 0xFF } = some (0x341, true) ∧
    address (.indexedIndirect 0xFF) { sample with x := 0x11 } = some (0x242, false) ∧
    peek { sample with x := 0x11 } (BitVec.ofNat 16 0x242) = some 0x99 ∧
    address (.absolute 0x2007) sample = some (0x2007, false) ∧ (∃ m u, memRead (BitVec.ofNat 16 0x2007) sample = .ok m u) ∧
    address (.absoluteX 0x3FFF) { sample with x := 1 } = some (0x4000, true) ∧
    ∃ k u, memRead (BitVec.ofNat 16 0x4000) { sample with x := 1 } = .fail k u :=
  ⟨by decide, by decide, by decide, by decide, by decide, by decide, ⟨_, _, rfl⟩, by decide, _, _, rfl⟩

theorem witness_LoadsComplete : readOperand (.zeroPage 0x10) sample = .ok (0x42, false) sample ∧
    (Instr.lda (.zeroPage 0x10)).wf = true ∧ (Instr.ldx (.zeroPage 0x10)).wf = true ∧ (Instr.ldy (.zeroPage 0x10)).wf = true ∧
    (Instr.lax (.zeroPage 0x10)).wf = true ∧
    ∃ m t, readOperand (.absoluteY 0x01FF) { sample with y := 0x43 } = .ok (m, true) t :=
  ⟨rfl, by decide, by decide, by decide, by decide, _, _, rfl⟩

theorem witness_StoresComplete : ∃ t u v w x, resolve (.zeroPage 0x10) sample = .ok (Resolved.plain 0x10) t ∧
    (Instr.sta (.zeroPage 0x10)).wf = true ∧ memWrite 0x10 sample.a t = .ok () u ∧
    (Instr.stx (.zeroPage 0x10)).wf = true ∧ memWrite 0x10 sample.x t = .ok () v ∧
    (Instr.sty (.zeroPage 0x10)).wf = true ∧ memWrite 0x10 sample.y t = .ok () w ∧
    (Instr.sax (.zeroPage 0x10)).wf = true ∧ memWrite 0x10 (sample.a &&& sample.x) t = .ok () x :=
  ⟨_, _, _, _, _, rfl, by decide, rfl, by decide, rfl, by decide, rfl, by decide, rfl⟩

theorem witness_AddSubtractComplete : readOperand (.immediate 0x80) sample = .ok (0x80, false) sample ∧
    (Instr.adc (.immediate 0x80)).wf = true ∧ (Instr.sbc (.immediate 0x80)).wf = true := ⟨rfl, by decide, by decide⟩

theorem witness_LogicComplete : readOperand (.immediate 0x0F) sample = .ok (0x0F, false) sample ∧
    (Instr.and (.immediate 0x0F)).wf = true ∧ (Instr.ora (.immediate 0x0F)).wf = true ∧ (Instr.eor (.immediate 0x0F)).wf = true :=
  ⟨rfl, by decide, by decide, by decide⟩

theorem witness_CompareComplete : readOperand (.zeroPage 0x10) sample = .ok (0x42, false) sample ∧
    (Instr.cmp (.zeroPage 0x10)).wf = true ∧ (Instr.cpx (.zeroPage 0x10)).wf = true ∧ (Instr.cpy (.zeroPage 0x10)).wf = true ∧
    (Instr.bit (.zeroPage 0x10)).wf = true := ⟨rfl, by decide, by decide, by decide, by decide⟩

/-- A memory byte that a read-modify-write can read and write. -/
theorem witness_MemoryIncrementsComplete : ∃ t u v w, resolve (.zeroPage 0x10) sample = .ok (Resolved.plain 0x10) t ∧
    memRead 0x10 t = .ok 0x42 u ∧ (Instr.inc (.zeroPage 0x10)).wf = true ∧ memWrite 0x10 (0x42 + 1) u = .ok () v ∧
    (Instr.dec (.zeroPage 0x10)).wf = true ∧ memWrite 0x10 (0x42 - 1) u = .ok () w :=
  ⟨_, _, _, _, rfl, rfl, by decide, rfl, by decide, rfl⟩

theorem witness_ShiftsComplete : ∃ t u, resolve (.zeroPage 0x10) sample = .ok (Resolved.plain 0x10) t ∧
    memRead 0x10 t = .ok 0x42 u ∧ ∀ k, (shiftInstr k (.zeroPage 0x10)).wf = true ∧
      ∃ v, memWrite 0x10 (shiftValue k (getFlag sample.p .c) 0x42) u = .ok () v :=
  ⟨_, _, rfl, rfl, fun k => by cases k <;> exact ⟨rfl, _, rfl⟩⟩

theorem witness_JumpsComplete : ∃ l h t u, memRead 0x02FF sample = .ok l t ∧
    memRead (BitVec.ofNat 16 ((0x02FF : Word).toNat / 256 * 256 + ((0x02FF : Word).toNat + 1) % 256)) t = .ok h u :=
  ⟨_, _, _, _, rfl, rfl⟩

theorem witness_HaltCompletes : ∃ t, (start [0x00] []).run = .running ∧ (start [0x00] []).video.nmiPending = false ∧
    memRead (start [0x00] []).pc (start [0x00] []) = .ok 0x00 t := ⟨_, rfl, rfl, rfl⟩

theorem witness_CombinationsComplete : ∃ t u, resolve (.zeroPage 0x10) sample = .ok (Resolved.plain 0x10) t ∧
    memRead 0x10 t = .ok 0x42 u ∧
    ((Instr.slo (.zeroPage 0x10)).wf = true ∧ ∃ v, memWrite 0x10 (shiftValue .asl (getFlag sample.p .c) 0x42) u = .ok () v) ∧
    ((Instr.rla (.zeroPage 0x10)).wf = true ∧ ∃ v, memWrite 0x10 (shiftValue .rol (getFlag sample.p .c) 0x42) u = .ok () v) ∧
    ((Instr.sre (.zeroPage 0x10)).wf = true ∧ ∃ v, memWrite 0x10 (shiftValue .lsr (getFlag sample.p .c) 0x42) u = .ok () v) ∧
    ((Instr.rra (.zeroPage 0x10)).wf = true ∧ ∃ v, memWrite 0x10 (shiftValue .ror (getFlag sample.p .c) 0x42) u = .ok () v) ∧
    ((Instr.dcp (.zeroPage 0x10)).wf = true ∧ ∃ v, memWrite 0x10 (0x42 - 1) u = .ok () v) ∧
    (Instr.isc (.zeroPage 0x10)).wf = true ∧ ∃ v, memWrite 0x10 (0x42 + 1) u = .ok () v :=
  ⟨_, _, rfl, rfl, ⟨by decide, _, rfl⟩, ⟨by decide, _, rfl⟩, ⟨by decide, _, rfl⟩, ⟨by decide, _, rfl⟩, ⟨by decide, _, rfl⟩,
    by decide, _, rfl⟩

theorem witness_MagicComplete : sample.cfg.unstablePolicy = .defined ∧ sample.cfg.magic = .fixed 0xFF ∧
    { sample with cfg := { Config.default with magic := .draw } }.cfg.magic = .draw ∧
    { sample with cfg := { Config.default with magic := .draw } }.cfg.unstablePolicy = .defined := by decide

/-- Each high-byte store, across a page (the address takes the value's high byte) and within one. -/
theorem witness_HighStoresComplete : sample.cfg.unstablePolicy = .defined ∧
    (∃ r t u, resolve (.indirectIndexed 0x10) sample = .ok r t ∧ r.cross = false ∧ (Instr.sha (.indirectIndexed 0x10)).wf = true ∧
      memWrite r.ea ((sample.a &&& sample.x) &&& (hi r.base + 1)) t = .ok () u) ∧
    (∃ r t u, resolve (.absoluteY 0x0200) sample = .ok r t ∧ r.cross = false ∧
      memWrite r.ea ((sample.a &&& sample.x) &&& (hi r.base + 1)) (sample.setSp (sample.a &&& sample.x)) = .ok () u ∧
      ∃ v, memWrite r.ea (sample.x &&& (hi r.base + 1)) t = .ok () v) ∧
    ∃ r t u, resolve (.absoluteX 0x02F0) { sample with x := 0x20, y := 0x01 } = .ok r t ∧ r.cross = true ∧
      memWrite (word (0x01 &&& (hi r.base + 1)) (lo r.ea)) (0x01 &&& (hi r.base + 1)) t = .ok () u :=
  ⟨rfl, ⟨_, _, _, rfl, rfl, rfl, rfl⟩, ⟨_, _, _, rfl, rfl, rfl, _, rfl⟩, _, _, _, rfl, rfl, rfl⟩

theorem witness_NoOperationsComplete : sample.cfg.jamPolicy = .nop ∧
    readOperand (.zeroPage 0x10) sample = .ok (0x42, false) sample ∧ (∃ m t, readOperand (.zeroPageX 0xFF) sample = .ok m t) ∧
    (∃ m t, readOperand (.absolute 0x8000) sample = .ok m t) ∧
    ∃ m t, readOperand (.absoluteX 0x01FF) { sample with x := 0x01 } = .ok (m, true) t :=
  ⟨rfl, rfl, ⟨_, _, rfl⟩, ⟨_, _, rfl⟩, _, _, rfl⟩

/-- A machine about to run an opcode under the policies that stop it. -/
def strictSample (opc : Byte) : State :=
  { start [opc] [] with cfg := { Config.default with jamPolicy := .stuck, unstablePolicy := .refuse } }

theorem witness_StuckJam : ∃ t, (strictSample 0x02).run = .running ∧ (strictSample 0x02).video.nmiPending = false ∧
    (strictSample 0x02).cfg.jamPolicy = .stuck ∧ memRead (strictSample 0x02).pc (strictSample 0x02) = .ok 0x02 t :=
  ⟨_, rfl, rfl, rfl, rfl⟩

theorem witness_RefusedUnstable : (∃ t, (strictSample 0x8B).run = .running ∧ (strictSample 0x8B).video.nmiPending = false ∧
    (strictSample 0x8B).cfg.unstablePolicy = .refuse ∧ memRead (strictSample 0x8B).pc (strictSample 0x8B) = .ok 0x8B t) ∧
    refusedSample.run = .refused 0x0600 0x8B ∧ sample.cfg.unstablePolicy = .defined :=
  ⟨⟨_, rfl, rfl, rfl, rfl⟩, rfl, rfl⟩

/-- A machine whose PC is where nothing is routed, and one whose opcode is the last byte of the ports' window, a read of
port 7 (so of RDBUF, here 0xAD), with its operand beyond. -/
def lostSample : State := sample.setPc 0x4000
def edgeSample : State := (sample.setPc 0x3FFF).setVideo { sample.video with rdbuf := 0xAD }

theorem witness_PreciseFaults : (Instr.lda (.absolute 0x4000)).wf = true ∧
    (∃ f, exec (.lda (.absolute 0x4000)) sample = .fault f) ∧ (∃ f, exec (.jam 0) (strictSample 0x02) = .fault f) ∧
    (∃ k, memRead lostSample.pc lostSample = .fail k lostSample) ∧ (∃ f, step lostSample = .fault f) ∧
    (∃ r t k u, memRead edgeSample.pc edgeSample = .ok 0xAD t ∧ recordOf 0xAD = some r ∧
      readBytes r.mode.operandBytes (edgeSample.pc + 1) (t.setPc (edgeSample.pc + 1)) = .fail k u) ∧
    lostSample.run = .running ∧ lostSample.video.nmiPending = false ∧ edgeSample.run = .running ∧
    edgeSample.video.nmiPending = false ∧ lostSample.cfg.jamPolicy = .nop ∧ lostSample.cfg.unstablePolicy = .defined ∧
    edgeSample.cfg.jamPolicy = .nop ∧ edgeSample.cfg.unstablePolicy = .defined :=
  ⟨by decide, ⟨_, rfl⟩, ⟨_, rfl⟩, ⟨_, rfl⟩, ⟨_, rfl⟩, ⟨_, _, _, _, rfl, rfl, rfl⟩, rfl, rfl, rfl, rfl, rfl, rfl, rfl, rfl⟩

/-- The accesses that fail in turn: a read, a store, the read and the write of a read-modify-write and of a shift, a high-byte
store, and the two reads of JMP indirect (through 0x20FF: port 7, then port 0). -/
theorem witness_PreciseFaults_data :
    (∃ info u, readOperand (.absolute 0x4000) sample = .fail (.invalidAddress info) u) ∧
    (Instr.nopAbsoluteX 5 0x3FFF).wf = true ∧
    (∃ info u, readOperand (.absoluteX 0x3FFF) { sample with x := 1 } = .fail (.invalidAddress info) u) ∧
    (Instr.sta (.absolute 0x8000)).wf = true ∧ resolve (.absolute 0x8000) sample = .ok (Resolved.plain 0x8000) sample ∧
    (Instr.sta (.absolute 0x8000), sample.a) ∈ stored (.absolute 0x8000) sample ∧
    (∃ info u, memWrite 0x8000 sample.a sample = .fail (.invalidAddress info) u) ∧
    (Instr.inc (.absolute 0x2000)).wf = true ∧ Modifies (.inc (.absolute 0x2000)) (.absolute 0x2000) ∧
    resolve (.absolute 0x2000) sample = .ok (Resolved.plain 0x2000) sample ∧
    (∃ info u, memRead 0x2000 sample = .fail (.invalidAddress info) u) ∧
    (Instr.slo (.absolute 0xFFFF)).wf = true ∧ (Instr.ror (.absolute 0xFFFF)).wf = true ∧
    resolve (.absolute 0xFFFF) sample = .ok (Resolved.plain 0xFFFF) sample ∧ memRead 0xFFFF sample = .ok 0x00 sample ∧
    (∃ info v, memWrite 0xFFFF 0x00 sample = .fail (.invalidAddress info) v) ∧
    (Instr.slo (.absolute 0xFFFF), 0x00) ∈ rewritten (.absolute 0xFFFF) (getFlag sample.p .c) 0x00 ∧
    shiftValue .ror (getFlag sample.p .c) 0x00 = 0x00 ∧ sample.cfg.unstablePolicy = .defined ∧
    (∃ info u, memWrite 0x8000 ((sample.a &&& sample.x) &&& (hi 0x8000 + 1)) (sample.setSp (sample.a &&& sample.x)) =
      .fail (.invalidAddress info) u) ∧
    (∃ info u, memRead 0x4000 sample = .fail (.invalidAddress info) u) ∧
    (∃ l t, memRead 0x20FF sample = .ok l t ∧
      ∃ info u, memRead (BitVec.ofNat 16 ((0x20FF : Word).toNat / 256 * 256 + ((0x20FF : Word).toNat + 1) % 256)) t =
        .fail (.invalidAddress info) u) :=
  ⟨⟨_, _, rfl⟩, by decide, ⟨_, _, rfl⟩, by decide, rfl, by decide, ⟨_, _, rfl⟩, by decide, .inl (by decide), rfl, ⟨_, _, rfl⟩,
    by decide, by decide, rfl, rfl, ⟨_, _, rfl⟩, by decide, by decide, rfl, ⟨_, _, rfl⟩, ⟨_, _, rfl⟩, ⟨_, _, rfl, _, _, rfl⟩⟩

theorem witness_StepOutcomes : (∃ t, step sample = .next t) ∧ ∃ r, step (strictSample 0x8B) = .refused r := ⟨⟨_, rfl⟩, _, rfl⟩

theorem witness_AddSubtractLaw : ∃ t u w1, readOperand (.immediate 0x30) sample = .ok (0x30, false) sample ∧
    exec (.adc (.immediate 0x30)) sample = .next t ∧ readOperand (.zeroPage 0x10) (t.setRam [(0x10, 0x30)]) = .ok (0x30, false) w1 ∧
    exec (.sbc (.zeroPage 0x10)) (t.setRam [(0x10, 0x30)]) = .next u := ⟨_, _, _, rfl, rfl, rfl, rfl⟩

theorem witness_ShiftLaws : getFlag sample.p .c = false ∧ (∃ t, exec (.asl (.zeroPage 0x10)) sample = .next t) ∧
    (∃ t, exec (.lsr .accumulator) sample = .next t) ∧ ∀ k, ∃ t, exec (shiftInstr k (.absoluteX 0x0242)) sample = .next t :=
  ⟨rfl, ⟨_, rfl⟩, ⟨_, rfl⟩, fun k => by cases k <;> exact ⟨_, rfl⟩⟩

theorem witness_SubroutineAndStackLaws : sample.ram.wf = true ∧ (∃ t u : State, exec (.jsr 0x0700) sample = .next t ∧ u.sp = t.sp ∧
    u.ram.read (cell sample.sp) = t.ram.read (cell sample.sp) ∧
    u.ram.read (cell (sample.sp - 1)) = t.ram.read (cell (sample.sp - 1))) ∧
    (∃ t u : State, exec .pha sample = .next t ∧ u.sp = t.sp ∧ u.ram = t.ram) ∧
    ∃ t u : State, exec .php sample = .next t ∧ u.sp = t.sp ∧ u.ram = t.ram :=
  ⟨by decide, ⟨_, _, rfl, rfl, rfl, rfl⟩, ⟨_, _, rfl, rfl, rfl⟩, _, _, rfl, rfl, rfl⟩

theorem witness_RegisterFrame : (∃ t, exec (.sta (.zeroPage 0x10)) sample = .next t) ∧ (footprint (.sta (.zeroPage 0x10))).a = false ∧
    (footprint (.sta (.zeroPage 0x10))).x = false ∧ (footprint (.sta (.zeroPage 0x10))).y = false ∧
    (footprint (.sta (.zeroPage 0x10))).sp = false ∧ Flag.n ∉ (footprint (.sta (.zeroPage 0x10))).flags ∧
    Instr.sta (.zeroPage 0x10) ≠ .brk := ⟨⟨_, rfl⟩, by decide, by decide, by decide, by decide, by decide, by decide⟩

/-- A store to RAM: the cells below and above it, and program ROM, are outside what it stores to. -/
theorem witness_MemoryFrame : (∃ t, exec (.sta (.absolute 0x0810)) sample = .next t) ∧
    stores (.sta (.absolute 0x0810)) sample = [0x0810] ∧ regionOf 0x0810 ≠ regionOf 0x000F ∧ regionOf 0x0810 ≠ regionOf 0x0011 ∧
    regionOf 0x0810 ≠ regionOf 0x8010 ∧ (∀ p, regionOf 0x0810 ≠ .port p) ∧ sample.cfg.busPolicy = .fault :=
  ⟨⟨_, rfl⟩, by decide, by decide, by decide, by decide, fun p h => (by cases h), rfl⟩

theorem witness_CostAndAdvance : (∃ t, exec .brk sample = .next t) ∧ (∃ t, exec (.lda (.zeroPage 0x10)) sample = .next t) ∧
    (footprint (.lda (.zeroPage 0x10))).transfers = false := ⟨⟨_, rfl⟩, ⟨_, rfl⟩, rfl⟩

theorem witness_InertFlags : (∃ t, exec (.adc (.zeroPage 0x10)) sample = .next t) ∧ Instr.adc (.zeroPage 0x10) ≠ .php :=
  ⟨⟨_, rfl⟩, by decide⟩

end Sys2Proof.Tests
end

section
/-! PROOFS. The family 00_scope: SetNZ. `Writes` is built one flag at a time, along the writes of the operation. -/

namespace Sys2Proof.Claims

open Sys2Proof.Machine

/-- Nothing written, nothing changed. -/
theorem Writes.refl (p : Byte) : Writes p p [] := ⟨fun _ _ h => absurd h List.not_mem_nil, fun _ _ => rfl⟩

/-- Writing one more flag, not yet in the list, adds it to the list. -/
theorem Writes.setFlag {p q : Byte} {l : List (Flag × Bool)} {f : Flag} (h : Writes p q l) (v : Bool)
    (hf : ∀ w, (f, w) ∉ l) : Writes p (Machine.setFlag q f v) (l ++ [(f, v)]) := by
  obtain ⟨written, kept⟩ := h
  refine ⟨fun g w hg => ?_, fun g hg => ?_⟩ <;> rw [getFlag_setFlag]
  · obtain hg | hg := List.mem_append.mp hg
    · have hne : g ≠ f := fun e => hf w (e ▸ hg)
      rw [if_neg hne, written g w hg]
    · obtain ⟨rfl, rfl⟩ := Prod.mk.inj (List.mem_singleton.mp hg)
      exact if_pos rfl
  · have hne : g ≠ f := fun e => hg v (by simp [e])
    rw [if_neg hne, kept g fun w hw => hg w (List.mem_append_left _ hw)]

/-- Settles O28: SetNZ is a write of Z and then one of N. -/
theorem flagHelper : Obligations.FlagHelper := fun p r =>
  ((Writes.refl p).setFlag (f := .z) (decide (r = 0)) (by simp)).setFlag (f := .n) (r.getLsbD 7) (by simp)

end Sys2Proof.Claims
end

section
/-! PROOFS. The family 20_memory: PushPop. Push and pop are the laws `push_eq` and `pop_eq`, in the cells SP names; the
round trip is two facts, what a push leaves in SP and RAM and what a pop reads from them. -/

namespace Sys2Proof.Claims

open Sys2Proof.Machine

/-- 20_memory R75: what a push leaves in SP and in RAM. -/
theorem sp_ram_of_push {v : Byte} {s t : State} (h : push v s = .ok () t) :
    t.sp = s.sp - 1 ∧ t.ram = s.ram.write (cell s.sp) v := by
  rw [push_eq] at h; cases h; simp [cell]

/-- 20_memory R76: a pop depends on SP and on the byte in the cell above it only. -/
theorem pop_of_read_cell {v sp : Byte} {t : State} (hsp : t.sp = sp - 1) (hv : t.ram.read (cell sp) = v) :
    ∃ u, pop t = .ok v u ∧ u.sp = sp := by
  have hup : t.sp + 1 = sp := by rw [hsp, BitVec.sub_add_cancel]
  have hpop : pop t = .ok v ((t.setSp sp).latched v) := by rw [pop_eq, hup, ← hv]; rfl
  exact ⟨_, hpop, by simp⟩

/-- 20_memory R75 to R77: a pop after a push gives the byte and the old SP, in a canonical RAM. -/
theorem pop_after_push {v : Byte} {s t : State} (hw : s.ram.wf = true) (h : push v s = .ok () t) :
    ∃ u, pop t = .ok v u ∧ u.sp = s.sp := by
  obtain ⟨hsp, hram⟩ := sp_ram_of_push h
  exact pop_of_read_cell hsp (by rw [hram, Memory.read_write_same hw])

/-- Settles O19: the stack page is RAM for every SP, and the byte a push stores is the one a pop reads. -/
theorem pushPop : Obligations.PushPop := ⟨push_eq, pop_eq, fun _ _ _ => pop_after_push⟩

end Sys2Proof.Claims
end

section
/-! PROOFS. The family 40_load_store_transfer: the register transfers. Their encodings follow from the round trip of decoder
and encoder; their effect is that of any one-byte instruction of 2 cycles that makes no bus access. -/

namespace Sys2Proof.Claims

open Sys2Proof.Machine

/-- 30_encoding R100: the decoder reads the bytes that the encoder writes, whatever bytes follow. -/
theorem encoded_of_encode {bytes : List Byte} {i : Instr} (h : encode i = some bytes) : Encoded bytes i := by
  obtain ⟨opc, hopc, rfl⟩ := Option.map_eq_some_iff.mp h
  have hwf : i.wf = true := by
    cases hw : i.wf with
    | true => rfl
    | false => cases hopc.symm.trans ((Laws.encodes i).2 hw)
  obtain ⟨opc', r, hopc', hrow, hmode, hmake, -⟩ := (Laws.encodes i).1 hwf
  obtain rfl : opc = opc' := Option.some.inj (hopc.symm.trans hopc')
  intro rest
  simp only [List.cons_append, decode, hrow, hmode, operandOf_bytes, hmake]

/-- 30_encoding R121: an implied instruction of 2 cycles has this cost whatever its rule reports of a page cross. -/
theorem costs_implied {i : Instr} {opc : Byte} {make : Operand → Instr}
    (h : rowOf i = some (opc, ⟨.imp, 2, false, make⟩)) : Costs i .imp fun _ => 2 :=
  ⟨opc, _, h, rfl, fun cross => by simp⟩

/-- 30_encoding R123, R124: an implied instruction of 2 cycles whose rule makes no bus access and keeps PC leaves what its rule
leaves, with PC past its byte and 2 cycles charged. -/
theorem exec_registerOnly {i : Instr} {opc : Byte} {make : Operand → Instr} {s : State} (update : State → State)
    (hrule : exec i s = perform i (registerOnly update) s) (hrow : rowOf i = some (opc, ⟨.imp, 2, false, make⟩))
    (hpc : (update s).pc = s.pc) : exec i s = .next (retired 1 2 (update s)) := by
  rw [hrule, registerOnly_completes (costs_implied hrow) hpc]
  rfl

/-- 40_load_store_transfer R146 to R151: the encodings of the register transfers. -/
theorem transfers_encoded : Encoded [0xAA] .tax ∧ Encoded [0xA8] .tay ∧ Encoded [0x8A] .txa ∧ Encoded [0x98] .tya ∧
    Encoded [0xBA] .tsx ∧ Encoded [0x9A] .txs :=
  ⟨encoded_of_encode rfl, encoded_of_encode rfl, encoded_of_encode rfl, encoded_of_encode rfl, encoded_of_encode rfl,
    encoded_of_encode rfl⟩

/-- Settles O32: each transfer is a `registerOnly` rule that keeps PC, that of TXS without SetNZ, in an implied row of 2
cycles. -/
theorem transfersComplete : Obligations.TransfersComplete :=
  ⟨transfers_encoded, fun _ =>
    ⟨exec_registerOnly (fun t => t.loadX t.a) rfl rfl rfl, exec_registerOnly (fun t => t.loadY t.a) rfl rfl rfl,
      exec_registerOnly (fun t => t.loadA t.x) rfl rfl rfl, exec_registerOnly (fun t => t.loadA t.y) rfl rfl rfl,
      exec_registerOnly (fun t => t.loadX t.sp) rfl rfl rfl, exec_registerOnly (fun t => t.setSp t.x) rfl rfl rfl⟩⟩

end Sys2Proof.Claims
end

section
/-! PROOFS. The family 41_arith_logic: increments and decrements of the index registers. Like the transfers, they are one-byte
instructions of 2 cycles that make no bus access. -/

namespace Sys2Proof.Claims

open Sys2Proof.Machine

/-- 41_arith_logic R171 to R174: the encodings of the increments and decrements of X and Y. -/
theorem indexIncrements_encoded : Encoded [0xE8] .inx ∧ Encoded [0xC8] .iny ∧ Encoded [0xCA] .dex ∧ Encoded [0x88] .dey :=
  ⟨encoded_of_encode rfl, encoded_of_encode rfl, encoded_of_encode rfl, encoded_of_encode rfl⟩

/-- Settles O37: each is a `registerOnly` rule that loads X or Y with its neighbour modulo 256 and keeps PC, in an implied row
of 2 cycles. -/
theorem indexIncrementsComplete : Obligations.IndexIncrementsComplete :=
  ⟨indexIncrements_encoded, fun _ =>
    ⟨exec_registerOnly (fun t => t.loadX (t.x + 1)) rfl rfl rfl, exec_registerOnly (fun t => t.loadY (t.y + 1)) rfl rfl rfl,
      exec_registerOnly (fun t => t.loadX (t.x - 1)) rfl rfl rfl, exec_registerOnly (fun t => t.loadY (t.y - 1)) rfl rfl rfl⟩⟩

end Sys2Proof.Claims
end

section
/-! PROOFS. The family 43_control_stack_flags: the flag instructions. Like the transfers, they are one-byte instructions of 2
cycles that make no bus access; a write of one flag is a mask of P. -/

namespace Sys2Proof.Claims

open Sys2Proof.Machine

/-- An implied instruction of 2 cycles whose rule clears one flag keeps the other bits of P and leaves the rest of the state
as it is, but for PC and the dots. -/
theorem exec_clearFlag {i : Instr} {opc kept : Byte} {make : Operand → Instr} {s : State} (f : Flag)
    (hrule : exec i s = perform i (registerOnly fun t => t.writeFlag f false) s)
    (hrow : rowOf i = some (opc, ⟨.imp, 2, false, make⟩)) (hkept : ~~~f.mask = kept) :
    exec i s = .next (retired 1 2 (s.setP (s.p &&& kept))) := by
  subst hkept
  exact exec_registerOnly (fun t => t.writeFlag f false) hrule hrow rfl

/-- The same for a rule that sets one flag: its mask is joined to P. -/
theorem exec_raiseFlag {i : Instr} {opc raised : Byte} {make : Operand → Instr} {s : State} (f : Flag)
    (hrule : exec i s = perform i (registerOnly fun t => t.writeFlag f true) s)
    (hrow : rowOf i = some (opc, ⟨.imp, 2, false, make⟩)) (hraised : f.mask = raised) :
    exec i s = .next (retired 1 2 (s.setP (s.p ||| raised))) := by
  subst hraised
  exact exec_registerOnly (fun t => t.writeFlag f true) hrule hrow rfl

/-- 43_control_stack_flags R220 to R226: the encodings of the flag instructions. -/
theorem flagInstructions_encoded : Encoded [0x18] .clc ∧ Encoded [0x38] .sec ∧ Encoded [0x58] .cli ∧ Encoded [0x78] .sei ∧
    Encoded [0xD8] .cld ∧ Encoded [0xF8] .sed ∧ Encoded [0xB8] .clv :=
  ⟨encoded_of_encode rfl, encoded_of_encode rfl, encoded_of_encode rfl, encoded_of_encode rfl, encoded_of_encode rfl,
    encoded_of_encode rfl, encoded_of_encode rfl⟩

/-- Settles O43: each clears or sets its one flag, by the mask of the flag's bit, in an implied row of 2 cycles. -/
theorem flagInstructionsComplete : Obligations.FlagInstructionsComplete :=
  ⟨flagInstructions_encoded, fun _ =>
    ⟨exec_clearFlag .c rfl rfl rfl, exec_raiseFlag .c rfl rfl rfl, exec_clearFlag .i rfl rfl rfl, exec_raiseFlag .i rfl rfl rfl,
      exec_clearFlag .d rfl rfl rfl, exec_raiseFlag .d rfl rfl rfl, exec_clearFlag .v rfl rfl rfl⟩⟩

end Sys2Proof.Claims
end

section
/-! PROOFS. The family other, encoding: the decoder and the encoder are inverse, and the table is complete. -/

namespace Sys2Proof.Claims

open Sys2Proof.Machine

/-- Settles O2: a well-formed instruction has bytes, and the decoder reads the encoder's bytes back. -/
theorem decodeEncode : Obligations.DecodeEncode := fun i hwf => by
  obtain ⟨opc, r, hopc, -⟩ := (Laws.encodes i).1 hwf
  have henc : encode i = some (opc :: i.operand.bytes) := by simp [encode, hopc]
  exact ⟨_, henc, encoded_of_encode henc⟩

/-- 30_encoding R100 to R102: what `decode` reads is an opcode and the bytes of an operand of its record's mode, from which the
record builds the instruction. -/
theorem decode_ok {bytes rest : List Byte} {i : Instr} (h : decode bytes = .ok (i, rest)) :
    ∃ opc r o, recordOf opc = some r ∧ o.mode = r.mode ∧ i = r.make o ∧ bytes = opc :: (o.bytes ++ rest) := by
  cases bytes with
  | nil => cases h
  | cons opc tail =>
    obtain ⟨r, hr⟩ := recordOf_total opc
    simp only [decode, hr] at h
    cases ho : operandOf r.mode tail with
    | none => rw [ho] at h; cases h
    | some c =>
      obtain ⟨o, rest'⟩ := c
      rw [ho] at h; cases h
      obtain ⟨hmode, rfl⟩ := operandOf_some ho
      exact ⟨opc, r, o, hr, hmode, rfl, rfl⟩

/-- Settles O3: the record of the opcode that was read builds a well-formed instruction with that opcode and operand. -/
theorem encodeDecode : Obligations.EncodeDecode := fun bytes rest i h => by
  obtain ⟨opc, r, o, hr, hmode, rfl, rfl⟩ := decode_ok h
  obtain ⟨hwf, hopc, hoperand⟩ := make_fits hr hmode
  exact ⟨hwf, opc :: o.bytes, by simp [encode, hopc, hoperand], rfl⟩

/-- 30_encoding R100: two bytes are enough for an operand of any mode. -/
theorem operandOf_two (m : Mode) (b1 b2 : Byte) :
    ∃ o rest, operandOf m [b1, b2] = some (o, rest) ∧ rest.length + m.bytes = 3 := by
  cases m <;> exact ⟨_, _, rfl, rfl⟩

/-- 30_encoding R129: a record costs 2 to 8 cycles. -/
theorem recordOf_cycles {opc : Byte} {r : Row} (hr : recordOf opc = some r) : 2 ≤ r.cycles ∧ r.cycles ≤ 8 := by
  obtain ⟨o, rest, ho, -⟩ := operandOf_two r.mode 0 0
  have hopc := (make_fits hr (operandOf_some ho).1).2.1
  have hrow : rowOf (r.make o) = some (opc, r) := by simp [rowOf, hopc, hr]
  exact (rowOf_some hrow).2.2.2

/-- 30_encoding R121: the opcodes whose record carries the page-cross penalty. -/
def penaltyOpcodes : List Byte :=
  [0x11, 0x19, 0x1D, 0x31, 0x39, 0x3D, 0x51, 0x59, 0x5D, 0x71, 0x79, 0x7D, 0xB1, 0xB9, 0xBD,
    0xD1, 0xD9, 0xDD, 0xF1, 0xF9, 0xFD, 0xBE, 0xBC, 0xBF, 0xB3, 0xBB, 0x1C, 0x3C, 0x5C, 0x7C, 0xDC, 0xFC]

/-- The penalty, read along the sixteen rows of the opcode map. -/
theorem opcodeTable_penalty (row column : Fin 16) : (opcodeTable[16 * row.val + column.val]?).map Row.penalty =
    some (penaltyOpcodes.contains (BitVec.ofNat 8 (16 * row.val + column.val))) := by
  revert row column; decide

theorem recordOf_penalty {opc : Byte} {r : Row} (hr : recordOf opc = some r) :
    r.penalty = penaltyOpcodes.contains opc := by
  have hsplit : 16 * (opc.toNat / 16) + opc.toNat % 16 = opc.toNat := Nat.div_add_mod _ _
  have h := opcodeTable_penalty ⟨opc.toNat / 16, by omega⟩ ⟨opc.toNat % 16, by omega⟩
  have hrow : opcodeTable[opc.toNat]? = some r := hr
  simpa [hsplit, hrow] using h

/-- Settles O4: every record reads its operand from two bytes at most and builds an instruction with its opcode; its cost and
its penalty are those of the table. -/
theorem tableComplete : Obligations.TableComplete := by
  refine ⟨fun opc b1 b2 => ?_, fun opc r hr => ?_⟩
  · obtain ⟨r, hr⟩ := recordOf_total opc
    obtain ⟨o, rest, ho, hlen⟩ := operandOf_two r.mode b1 b2
    have hmode := (operandOf_some ho).1
    obtain ⟨-, hopc, hoperand⟩ := make_fits hr hmode
    exact ⟨r.make o, rest, by simp [decode, hr, ho], hopc, by rw [hoperand, hmode, hlen]⟩
  · obtain ⟨hlow, hhigh⟩ := recordOf_cycles hr
    exact ⟨hlow, hhigh, by simp [recordOf_penalty hr, penaltyOpcodes]⟩

/-- Settles O1: each string decodes by evaluation. -/
theorem decodeWords : Obligations.DecodeWords :=
  ⟨rfl, rfl, rfl, rfl, rfl, rfl, rfl, rfl, rfl, rfl, rfl, rfl, rfl, rfl, rfl, rfl, rfl, rfl⟩

end Sys2Proof.Claims
end

section
/-! PROOFS. The family other, what every step keeps: `State.Inv` and the cycle-dot identity. A step is an interrupt sequence, or a
fetch and `exec`; `exec` is a rule that makes bus accesses (`Keeps`), and then a tick. -/

namespace Sys2Proof.Claims

open Sys2Proof.Machine

variable {s t u : State} {i : Instr}

/-! ## Fetches -/

/-- A sequence of accesses completes when each of the two does. -/
theorem bind_ok_iff {α β : Type} {r : Access α} {f : α → State → Access β} {v : β} :
    r.bind f = .ok v t ↔ ∃ w u, r = .ok w u ∧ f w u = .ok v t := by
  cases r <;> simp [Access.bind]

/-- The operand reads of a fetch neither raise nor consume a pending NMI. -/
theorem readBytes_nmiPending {n : Nat} {a : Word} {bs : List Byte} (h : readBytes n a s = .ok bs t) :
    t.video.nmiPending = s.video.nmiPending := by
  induction n generalizing a s bs with
  | zero => cases h; rfl
  | succ n ih =>
    obtain ⟨b, u, hread, hrest⟩ := bind_ok_iff.mp h
    obtain ⟨bs', v, hreads, hdone⟩ := bind_ok_iff.mp hrest
    cases hdone
    exact (ih hreads).trans (memRead_nmiPending hread)

/-- 30_encoding R125: a fetched opcode that no policy stops is executed with PC past it. -/
theorem fetchExecute_of_read {opc : Byte} {r : Row} (hread : memRead s.pc s = .ok opc t) (hr : recordOf opc = some r)
    (hsticks : sticks s.cfg opc = false) (hrefuses : refuses s.cfg opc = false) :
    fetchExecute s = executeFetched opc r (t.setPc (s.pc + 1)) := by
  simp [fetchExecute, hread, hr, hsticks, hrefuses]

/-- 30_encoding R126: the policy of JAM stops the step where it began. -/
theorem fetchExecute_of_sticks {opc : Byte} (hread : memRead s.pc s = .ok opc t) (hsticks : sticks s.cfg opc = true) :
    fetchExecute s = .fault (.stuck s) := by
  obtain ⟨r, hr⟩ := recordOf_total opc
  simp [fetchExecute, hread, hr, hsticks]

/-- 30_encoding R108: the policy of the unstable opcodes stops the step after the fetch. -/
theorem fetchExecute_of_refuses {opc : Byte} (hread : memRead s.pc s = .ok opc t) (hsticks : sticks s.cfg opc = false)
    (hrefuses : refuses s.cfg opc = true) :
    fetchExecute s = .refused (.unstableOpcode ((t.setPc (s.pc + 1)).setRun (.refused s.pc opc))) := by
  obtain ⟨r, hr⟩ := recordOf_total opc
  simp [fetchExecute, hread, hr, hsticks, hrefuses, refuseUnstable]

/-- The operand bytes of a fetched opcode are read and decode to an instruction, or their reads fail. -/
theorem executeFetched_cases {opc : Byte} {r : Row} (hr : recordOf opc = some r) (s : State) :
    (∃ k u, readBytes r.mode.operandBytes s.pc s = .fail k u ∧ executeFetched opc r s = raise k (s.pc - 1) (some opc) u) ∨
    ∃ bytes u i, readBytes r.mode.operandBytes s.pc s = .ok bytes u ∧ executeFetched opc r s = exec i u := by
  unfold executeFetched
  cases hbytes : readBytes r.mode.operandBytes s.pc s with
  | fail k u => exact .inl ⟨k, u, rfl, rfl⟩
  | ok bytes u =>
    obtain ⟨i, hdecode, -⟩ := decode_of_length hr (readBytes_length hbytes)
    exact .inr ⟨bytes, u, i, rfl, by simp only [hdecode]⟩

/-- A fetch that a policy or a failing access does not stop runs `exec` from the state that its reads left, with an NMI pending
there just as before them. -/
theorem fetchExecute_outcome (s : State) :
    (∃ f, fetchExecute s = .fault f) ∨
    (∃ u, fetchExecute s = .refused (.unstableOpcode u) ∧ s.cfg.unstablePolicy = .refuse) ∨
    ∃ i u, fetchExecute s = exec i u ∧ BusStep (s.setPc (s.pc + 1)) u ∧ u.video.nmiPending = s.video.nmiPending := by
  have raised (k : FaultKind) (opc : Option Byte) (u : State) : ∃ f, raise k s.pc opc u = .fault f := by
    cases k <;> exact ⟨_, rfl⟩
  cases hread : memRead s.pc s with
  | fail k t =>
    obtain ⟨f, hf⟩ := raised k none t
    exact .inl ⟨f, by simp [fetchExecute, hread, hf]⟩
  | ok opc t =>
    obtain ⟨r, hr⟩ := recordOf_total opc
    cases hsticks : sticks s.cfg opc with
    | true => exact .inl ⟨_, fetchExecute_of_sticks hread hsticks⟩
    | false =>
      cases hrefuses : refuses s.cfg opc with
      | true =>
        have hpolicy : s.cfg.unstablePolicy = .refuse := by simp [refuses] at hrefuses; exact hrefuses.1
        exact .inr (.inl ⟨_, fetchExecute_of_refuses hread hsticks hrefuses, hpolicy⟩)
      | false =>
        rw [fetchExecute_of_read hread hr hsticks hrefuses]
        obtain ⟨k, u, -, hfail⟩ | ⟨bytes, u, i, hbytes, hexec⟩ := executeFetched_cases hr (t.setPc (s.pc + 1))
        · obtain ⟨f, hf⟩ := raised k (some opc) u
          exact .inl ⟨f, by rw [hfail, State.setPc_pc, BitVec.add_sub_cancel, hf]⟩
        · have ht := memRead_step hread
          have hpc : BusStep (s.setPc (s.pc + 1)) (t.setPc (s.pc + 1)) :=
            ⟨⟨ht.run, ht.cart, ht.cfg, ht.cycles, ht.scanline, ht.dot, ht.frames, ht.ramKept, ht.videoInv⟩, ht.a, ht.x, ht.y,
              ht.sp, ht.p, rfl⟩
          have hnmi : u.video.nmiPending = t.video.nmiPending := readBytes_nmiPending (s := t.setPc (s.pc + 1)) hbytes
          exact .inr (.inr ⟨i, u, hexec, hpc.trans (readBytes_step hbytes), hnmi.trans (memRead_nmiPending hread)⟩)

/-! ## `State.Inv` -/

/-- A rule and a tick keep `State.Inv`; the halt keeps it where no NMI is pending. -/
theorem exec_inv (h : exec i s = .next t) (hinv : s.Inv) (hrun : s.run = .running) (hnmi : s.video.nmiPending = false) :
    t.Inv := by
  obtain ⟨hram, hvideo, hcart, -⟩ := hinv
  rcases exec_next h with ⟨-, rfl⟩ | ⟨opc, r, d, u, -, rfl, hran⟩
  · exact ⟨hram, hvideo, hcart, fun _ => hnmi⟩
  · have hcart' : u.cart.Inv := by rw [hran.cart]; exact hcart
    have hrun' : u.run = .running := hran.run.trans hrun
    exact ⟨hran.ramKept hram, Video.tick_inv _ (hran.videoInv hvideo), hcart', fun hhalt => by cases hrun'.symm.trans hhalt⟩

/-- 60_exceptions R295: the three pushes keep RAM canonical. -/
theorem interruptRam_kept (h : s.ram.Kept ramSize) : (interruptRam s).Kept ramSize := by
  have store {m : Memory} (hm : m.Kept ramSize) (sp v : Byte) : (m.write (0x100 + sp.toNat) v).Kept ramSize :=
    ⟨Memory.wf_write hm.1 _ _, Memory.below_write (by have := sp.isLt; unfold ramSize; omega) hm.2 _⟩
  exact store (store (store h _ _) _ _) _ _

theorem takeInterrupt_inv (h : takeInterrupt s = .next t) (hinv : s.Inv) (hrun : s.run = .running) : t.Inv := by
  obtain ⟨hram, hvideo, hcart, -⟩ := hinv
  rw [takeInterrupt_eq] at h; cases h
  refine ⟨?_, ?_, ?_, fun hhalt => ?_⟩
  · simpa using interruptRam_kept hram
  · simpa using Video.tick_inv _ hvideo
  · simpa using hcart
  · simp [hrun] at hhalt

/-- The poll keeps `State.Inv`. -/
theorem poll_inv (hinv : s.Inv) : (s.setVideo s.video.poll.2).Inv := by
  obtain ⟨hram, hvideo, hcart, -⟩ := hinv
  exact ⟨hram, Video.poll_inv hvideo, hcart, fun _ => rfl⟩

/-- The reads of a fetch keep `State.Inv`. -/
theorem fetched_inv (h : BusStep (s.setPc (s.pc + 1)) u) (hinv : s.Inv) (hnmi : u.video.nmiPending = false) : u.Inv := by
  obtain ⟨hram, hvideo, hcart, -⟩ := hinv
  have hcart' : u.cart.Inv := by rw [h.cart]; exact hcart
  exact ⟨h.ramKept hram, h.videoInv hvideo, hcart', fun _ => hnmi⟩

/-- Settles O14: a step is the interrupt sequence after the poll, or `exec` after the fetch, which finds no NMI pending. -/
theorem stepKeepsInv : Obligations.StepKeepsInv := fun s t hinv h => by
  obtain ⟨hrun, ⟨-, hint⟩ | ⟨hnmi, -⟩⟩ := step_next h
  · exact takeInterrupt_inv hint (poll_inv hinv) hrun
  · rw [step_of_running hrun hnmi] at h
    obtain ⟨f, hf⟩ | ⟨v, hv, -⟩ | ⟨i, u, hexec, hbus, hpending⟩ := fetchExecute_outcome s
    · rw [hf] at h; cases h
    · rw [hv] at h; cases h
    · have hnmi' := hpending.trans hnmi
      exact exec_inv (hexec.symm.trans h) (fetched_inv hbus hinv hnmi') (hbus.run.trans hrun) hnmi'

/-! ## The cycle-dot identity -/

/-- 70_reset_and_hazards R361: the identity says that the unit's position is three dots per cycle, with its counters in range. -/
theorem synced_iff : s.Synced ↔ s.video.position = 3 * s.cycles ∧ s.video.dot < 341 ∧ s.video.scanline < 262 := by
  have hframe := Nat.div_div_eq_div_mul (3 * s.cycles) 341 262
  unfold State.Synced Video.position
  constructor
  · omega
  · rintro ⟨hpos, hdot, hline⟩
    have hlines : 3 * s.cycles / 341 = s.video.frames * 262 + s.video.scanline := by omega
    omega

/-- A tick moves the cycles and the position alike. -/
theorem tick_synced (n : Nat) (h : s.Synced) : (tick n s).Synced := by
  obtain ⟨hpos, hdot, hline⟩ := synced_iff.mp h
  obtain ⟨hpos', hdot', hline'⟩ := Video.tick_position hdot hline (dotsPerCycle * n)
  refine synced_iff.mpr ⟨?_, hdot', hline'⟩
  rw [tick_video, hpos', hpos, tick_cycles, dotsPerCycle, Nat.mul_add]

/-- Bus accesses move neither. -/
theorem synced_of_keeps (h : Keeps s t) (hs : s.Synced) : t.Synced := by
  unfold State.Synced at hs ⊢
  rwa [h.scanline, h.dot, h.frames, h.cycles]

theorem exec_synced (h : exec i s = .next t) (hs : s.Synced) : t.Synced := by
  rcases exec_next h with ⟨-, rfl⟩ | ⟨opc, r, d, u, -, rfl, hran⟩
  · exact hs
  · have hu : u.Synced := synced_of_keeps hran.toKeeps hs
    exact tick_synced (s := u.setPc _) _ hu

theorem takeInterrupt_synced (h : takeInterrupt s = .next t) (hs : s.Synced) : t.Synced := by
  rw [takeInterrupt_eq] at h; cases h
  simpa [State.Synced] using tick_synced nmiCycles hs

theorem step_synced (h : step s = .next t) (hs : s.Synced) : t.Synced := by
  obtain ⟨-, ⟨-, hint⟩ | ⟨-, i, u, hexec, -, hbus⟩⟩ := step_next h
  · exact takeInterrupt_synced hint hs
  · exact exec_synced hexec (synced_of_keeps hbus.toKeeps hs)

/-- 70_reset_and_hazards R340: `reset()` in either of the run states that it leaves. -/
theorem hostReset_of_active (h : s.run = .running ∨ s.run = .halted) :
    hostReset s = (s.latched (s.cart.prgByte 0x7FFD)).resetRegisters (word (s.cart.prgByte 0x7FFD) (s.cart.prgByte 0x7FFC)) := by
  rcases h with h | h <;> simp [hostReset, h, memRead16_resetVector]

/-- 70_reset_and_hazards R342: `reset()` in the other two. -/
theorem hostReset_of_ended (h : (∃ r, s.run = .faulted r) ∨ ∃ a opc, s.run = .refused a opc) : hostReset s = s := by
  rcases h with ⟨r, h⟩ | ⟨a, opc, h⟩ <;> simp [hostReset, h]

/-- 10_state R43: every run state is one of the two kinds. -/
theorem run_cases (s : State) :
    (s.run = .running ∨ s.run = .halted) ∨ (∃ r, s.run = .faulted r) ∨ ∃ a opc, s.run = .refused a opc := by
  cases s.run <;> simp

theorem hostReset_synced (hs : s.Synced) : (hostReset s).Synced := by
  rcases run_cases s with h | h
  · rw [hostReset_of_active h]
    simpa [State.Synced, State.resetRegisters] using hs
  · rwa [hostReset_of_ended h]

/-- The bus writes of a load are bus accesses. -/
theorem storeBytes_step {bytes : List Byte} {a : Word} {x : Unit} (h : storeBytes bytes a s = .ok x t) : BusStep s t := by
  induction bytes generalizing a s with
  | nil => cases h; exact .refl _
  | cons b bs ih =>
    obtain ⟨y, u, hwrite, hrest⟩ := bind_ok_iff.mp h
    exact (memWrite_step hwrite).trans (ih hrest)

/-- 70_reset_and_hazards R343: a load that is answered made its bus writes. -/
theorem load_some {bytes : List Byte} (h : load bytes s = some t) : storeBytes bytes loadAddr s = .ok () t := by
  unfold load at h
  split at h
  · cases hstore : storeBytes bytes loadAddr s with
    | ok x u => rw [hstore] at h; cases h; rfl
    | fail k u => rw [hstore] at h; cases h
  · cases h

/-- Settles O15: only a tick moves the cycles or the position, and it moves both. -/
theorem cycleDotIdentity : Obligations.CycleDotIdentity :=
  ⟨by decide, fun _ _ hs h => step_synced h hs, fun _ hs => hostReset_synced hs,
    fun _ _ _ hs h => synced_of_keeps (storeBytes_step (load_some h)).toKeeps hs⟩

end Sys2Proof.Claims
end

section
/-! PROOFS. The family other, the bus (20_memory): the four regions of the address map by arithmetic, and what an access of each
does. -/

namespace Sys2Proof.Claims

open Sys2Proof.Machine

variable {s t : State} {a : Word} {v : Byte} {k : FaultKind}

/-! ## Regions -/

/-- 60_exceptions R305: the number of a port. -/
def portNumber : Port → Nat
  | .ctrl => 0
  | .mask => 1
  | .status => 2
  | .oamAddr => 3
  | .oamData => 4
  | .scroll => 5
  | .addr => 6
  | .data => 7

theorem portOf_number (a : Word) : portNumber (portOf a) = a.toNat % 8 := by
  have h : a.toNat % 8 < 8 := Nat.mod_lt _ (by decide)
  unfold portOf
  interval_cases a.toNat % 8 <;> rfl

theorem portOf_portNumber (p : Port) : portOf (BitVec.ofNat 16 (portNumber p)) = p := by
  cases p <;> rfl

theorem portNumber_inj {p q : Port} (h : portNumber p = portNumber q) : p = q := by
  rw [← portOf_portNumber p, h, portOf_portNumber]

/-- 20_memory R64: an address reaches a port when it lies in the window and has the port's number modulo 8. -/
theorem portAt_iff (p : Port) : portAt a (portNumber p) ↔ regionOf a = .port p := by
  constructor
  · rintro ⟨hlow, hhigh, hmod⟩
    rw [regionOf_port hlow hhigh, portNumber_inj ((portOf_number a).trans hmod)]
  · intro h
    unfold regionOf at h
    split_ifs at h
    cases h
    exact ⟨by omega, by assumption, (portOf_number a).symm⟩

theorem unrouted_iff : 0x4000 ≤ a.toNat ∧ a.toNat ≤ 0x7FFF ↔ regionOf a = .unrouted := by
  constructor
  · exact fun h => regionOf_unrouted h.1 h.2
  · intro h
    unfold regionOf at h
    split_ifs at h
    omega

theorem rom_iff : 0x8000 ≤ a.toNat ↔ ∃ offset, regionOf a = .rom offset := by
  constructor
  · exact fun h => ⟨_, regionOf_rom h⟩
  · rintro ⟨offset, h⟩
    unfold regionOf at h
    split_ifs at h
    omega

/-- 20_memory R65: the byte of program ROM at an address is that at its distance from 0x8000. -/
theorem rom_eq (c : Cartridge) (n : Nat) : rom c n = c.prgByte (n - 0x8000) := by
  unfold rom Cartridge.prgByte Cartridge.prgIndex PrgSize.length
  cases c.prgSize <;> rfl

/-! ## RAM and program ROM -/

/-- Settles O16: every mirror of a cell is in the region of that cell. -/
theorem memoryWindows : Obligations.MemoryWindows := by
  refine ⟨fun a s ha => memRead_ram (regionOf_ram ha) s, fun a v s ha => memWrite_ram (regionOf_ram ha) v s,
    fun a b v s t ha hb hab hwf h => ?_, fun a s ha => ?_⟩
  · rw [memWrite_ram (regionOf_ram ha)] at h; cases h
    have hread : (s.ram.write (a.toNat % 2048) v).read (b.toNat % 2048) = v := by
      rw [← hab]; exact Memory.read_write_same hwf _ v
    rw [memRead_ram (regionOf_ram hb), State.setRam_ram, hread]
  · rw [memRead_rom (regionOf_rom ha), rom_eq]

/-- 20_memory R63, R65: a byte of RAM or program ROM is read with no effect but LATCH. -/
theorem memRead_of_peek {b : Byte} (h : peek s a = some b) : memRead a s = .ok b (s.latched b) := by
  obtain ⟨hram, -, -, hrom⟩ := memoryWindows
  unfold peek at h
  split_ifs at h with hlow hhigh <;> cases h
  · exact hram a s (by omega)
  · exact hrom a s hhigh

/-! ## Which accesses fail -/

/-- 60_exceptions R305: the ports that are not read. -/
def writeOnly : Port → Bool
  | .ctrl | .mask | .oamAddr | .scroll | .addr => true
  | .status | .oamData | .data => false

theorem writeOnly_iff : (∃ p, regionOf a = .port p ∧ writeOnly p = true) ↔
    portAt a 0 ∨ portAt a 1 ∨ portAt a 3 ∨ portAt a 5 ∨ portAt a 6 := by
  have h0 := portAt_iff (a := a) .ctrl
  have h1 := portAt_iff (a := a) .mask
  have h3 := portAt_iff (a := a) .oamAddr
  have h5 := portAt_iff (a := a) .scroll
  have h6 := portAt_iff (a := a) .addr
  simp only [portNumber] at h0 h1 h3 h5 h6
  rw [h0, h1, h3, h5, h6]
  constructor
  · rintro ⟨p, hp, hw⟩
    cases p <;> simp_all [writeOnly]
  · rintro (h | h | h | h | h) <;> exact ⟨_, h, rfl⟩

/-- The port of an address in the window. -/
theorem portOf_of_region {p : Port} (h : regionOf a = .port p) : portOf a = p := by
  obtain ⟨-, -, hmod⟩ := (portAt_iff p).mpr h
  exact portNumber_inj ((portOf_number a).trans hmod)

/-- 60_exceptions R305: a read of a write-only port fails under the default policy, no other read of a port does. -/
theorem memRead_port_fail_iff {p : Port} (h : regionOf a = .port p) :
    memRead a s = .fail k t ↔
      writeOnly p = true ∧ s.cfg.busPolicy = .fault ∧ k = .invalidAddress (.writeOnlyPortRead p a) ∧ t = s := by
  unfold memRead regionRead
  simp only [h]
  cases p <;> simp only [portRead, readWriteOnly, readStatus, writeOnly, Access.bind] <;>
    cases s.cfg.busPolicy <;> simp [eq_comm]

/-- 20_memory R66, R68. -/
theorem memRead_unrouted_fail_iff (h : regionOf a = .unrouted) :
    memRead a s = .fail k t ↔ s.cfg.busPolicy = .fault ∧ k = .invalidAddress (.unmapped .read a) ∧ t = s := by
  unfold memRead regionRead unroutedRead
  simp only [h]
  cases s.cfg.busPolicy <;> simp [Access.bind, eq_comm]

theorem memRead_fail_iff : memRead a s = .fail k t ↔ t = s ∧ s.cfg.busPolicy = .fault ∧
    ((regionOf a = .unrouted ∧ k = .invalidAddress (.unmapped .read a)) ∨
      ((∃ p, regionOf a = .port p ∧ writeOnly p = true) ∧ k = .invalidAddress (.writeOnlyPortRead (portOf a) a))) := by
  cases h : regionOf a with
  | ram i => simp [memRead_ram h]
  | port p =>
    rw [memRead_port_fail_iff h, portOf_of_region h]
    simp
    tauto
  | unrouted =>
    rw [memRead_unrouted_fail_iff h]
    simp
    tauto
  | rom i => simp [memRead_rom h]

/-- 60_exceptions R305, R320: a write of port 2 fails under the default policy, one of port 7 where VADDR names the character
ROM, no other write of a port does. -/
theorem memWrite_port_fail_iff {p : Port} (h : regionOf a = .port p) :
    memWrite a v s = .fail k t ↔ t = s.latched v ∧
      ((p = .status ∧ s.cfg.busPolicy = .fault ∧ k = .invalidAddress (.readOnlyPortWrite a)) ∨
        (p = .data ∧ s.video.vaddr.toNat < 0x2000 ∧ k = .invalidAddress (.chrRomWrite s.video.vaddr))) := by
  unfold memWrite regionWrite
  simp only [h]
  cases p <;> simp only [portWrite]
  case status =>
    simp only [State.latched_cfg]
    cases s.cfg.busPolicy <;> simp [eq_comm, and_comm]
  case data =>
    by_cases hlow : s.video.vaddr.toNat < 0x2000
    · simp [Video.writeData, hlow, eq_comm, and_comm]
    · by_cases hmid : s.video.vaddr.toNat < 0x3F00 <;> simp [Video.writeData, hlow, hmid]
  all_goals simp

theorem memWrite_fail_iff : memWrite a v s = .fail k t ↔ t = s.latched v ∧
    ((regionOf a = .unrouted ∧ s.cfg.busPolicy = .fault ∧ k = .invalidAddress (.unmapped .write a)) ∨
      ((∃ offset, regionOf a = .rom offset) ∧ k = .invalidAddress (.romWrite a)) ∨
      (regionOf a = .port .status ∧ s.cfg.busPolicy = .fault ∧ k = .invalidAddress (.readOnlyPortWrite a)) ∨
      (regionOf a = .port .data ∧ s.video.vaddr.toNat < 0x2000 ∧ k = .invalidAddress (.chrRomWrite s.video.vaddr))) := by
  cases h : regionOf a with
  | ram i => simp [memWrite_ram h]
  | port p => rw [memWrite_port_fail_iff h]; simp
  | unrouted =>
    unfold memWrite regionWrite unroutedWrite
    simp only [h, State.latched_cfg]
    cases s.cfg.busPolicy <;> simp [eq_comm, and_comm]
  | rom i => simp [memWrite_rom h, eq_comm, and_comm]

/-- Settles O17: the accesses that fail, by region. -/
theorem accessFaults : Obligations.AccessFaults := by
  have status (a : Word) := portAt_iff (a := a) .status
  have data (a : Word) := portAt_iff (a := a) .data
  simp only [portNumber] at status data
  refine ⟨fun a s t k => ?_, fun a v s t k => ?_⟩
  · rw [memRead_fail_iff, writeOnly_iff, ← unrouted_iff, and_assoc (b := _ ≤ 0x7FFF)]
  · rw [memWrite_fail_iff, ← rom_iff, ← unrouted_iff, status, data, and_assoc (b := _ ≤ 0x7FFF)]

/-! ## The latch -/

/-- No region's part of a write touches LATCH. -/
theorem regionWrite_latch {x : Unit} (h : regionWrite a v s = .ok x t) : t.latch = s.latch := by
  unfold regionWrite at h
  cases hregion : regionOf a <;> simp only [hregion] at h
  case ram i => cases h; rfl
  case rom i => cases h
  case unrouted => unfold unroutedWrite at h; split at h <;> cases h; rfl
  case port p =>
    cases p <;> simp only [portWrite] at h
    case status => split at h <;> cases h; rfl
    case data => split at h <;> cases h; rfl
    all_goals cases h; rfl

/-- LATCH at the byte that it holds is the same state. -/
theorem latched_self (s : State) : s.latched s.latch = s := by
  unfold State.latched; split <;> rfl

/-- 20_memory R68: an access with no routing answers LATCH under the open-bus policy. -/
theorem memRead_openBus (hopen : s.cfg.busPolicy = .openBus)
    (h : regionOf a = .unrouted ∨ ∃ p, regionOf a = .port p ∧ writeOnly p = true) : memRead a s = .ok s.latch s := by
  have hself := latched_self s
  rcases h with h | ⟨p, h, hw⟩
  · simp [memRead, regionRead, h, unroutedRead, hopen, Access.bind, hself]
  · cases p <;> simp [writeOnly] at hw <;>
      simp [memRead, regionRead, h, portRead, readWriteOnly, hopen, Access.bind, hself]

/-- 20_memory R68: a write with no routing changes LATCH alone. -/
theorem memWrite_openBus (hopen : s.cfg.busPolicy = .openBus) (h : regionOf a = .unrouted ∨ regionOf a = .port .status) :
    memWrite a v s = .ok () (s.setLatch v) := by
  have hlatch : s.latched v = s.setLatch v := by simp [State.latched, hopen]
  rcases h with h | h <;> simp [memWrite, regionWrite, h, unroutedWrite, portWrite, hlatch, hopen]

/-- Settles O18: a read that completes leaves LATCH at its byte last, and a write puts its byte there first; the accesses with
no routing answer what stands there. -/
theorem openBus : Obligations.OpenBus := by
  intro a s hopen
  have status := portAt_iff (a := a) .status
  simp only [portNumber] at status
  refine ⟨fun v t h => ?_, fun v t h => ?_, fun v k t h => ?_, fun h => ?_, fun h v => ?_⟩
  · have hcfg := (memRead_step h).cfg
    obtain ⟨w, u, -, hdone⟩ := bind_ok_iff.mp h
    cases hdone
    rw [State.latched_cfg] at hcfg
    rw [State.latched_latch, hcfg, if_pos hopen]
  · rw [regionWrite_latch h, State.latched_latch, if_pos hopen]
  · rw [(memWrite_fail h).2, State.latched_latch, if_pos hopen]
  · rw [unrouted_iff, ← writeOnly_iff] at h
    exact memRead_openBus hopen h
  · rw [unrouted_iff, status] at h
    exact memWrite_openBus hopen h

end Sys2Proof.Claims
end

section
/-! PROOFS. The family other, the video unit (60_exceptions): dots, the ports, and the memories behind the data port. -/

namespace Sys2Proof.Claims

open Sys2Proof.Machine

variable {s t : State} {a : Word} {b : Byte} {v : Video}

/-! ## Dots -/

/-- Settles O21: the three edges of a line, each with its line number put in. -/
theorem dotEdges : Obligations.DotEdges := by
  refine ⟨fun v hdot => ?_, fun v hdot hvblank hend => ?_, fun v hdot hline => ?_, fun v hdot hline => ?_⟩
  · rw [Video.dotStep, if_neg (by unfold dotsPerLine; omega)]
  · rw [Video.dotStep, if_pos (by rw [hdot]; rfl), Video.enterLine, if_neg (by simp [vblankLine, hvblank]),
      if_neg (by simp [linesPerFrame, hend])]
  · rw [Video.dotStep, if_pos (by rw [hdot]; rfl), Video.enterLine, if_pos (by rw [hline]; rfl), Video.enterVblank, hline]
  · rw [Video.dotStep, if_pos (by rw [hdot]; rfl), Video.enterLine, if_neg (by simp [hline, vblankLine]),
      if_pos (by rw [hline]; rfl), Video.endFrame]

/-- 60_exceptions R308, R309: vertical blank is set in the scanlines from 241 on. -/
def VblankByLine (v : Video) : Prop := v.status.getLsbD 7 = decide (241 ≤ v.scanline)

/-- 60_exceptions R308, R309: an NMI is pending in the same scanlines when CTRL bit 7 is set. -/
def NmiByLine (v : Video) : Prop := v.nmiPending = (v.ctrl.getLsbD 7 && decide (241 ≤ v.scanline))

/-- A dot keeps both: they change at the two edges where they are written. -/
theorem dotStep_byLine (hdot : v.dot < 341) (hline : v.scanline < 262) :
    (VblankByLine v → VblankByLine v.dotStep) ∧ (NmiByLine v → NmiByLine v.dotStep) := by
  obtain ⟨inLine, nextLine, enterVblank, endFrame⟩ := dotEdges
  unfold VblankByLine NmiByLine
  by_cases hd : v.dot = 340
  · by_cases h240 : v.scanline = 240
    · rw [enterVblank v hd h240]
      refine ⟨fun _ => by simp, fun h => ?_⟩
      have hclear : v.nmiPending = false := by simpa [h240] using h
      simp [hclear]
    · by_cases h261 : v.scanline = 261
      · rw [endFrame v hd h261]
        simp
      · rw [nextLine v hd h240 h261]
        have hsame : (241 ≤ v.scanline + 1) = (241 ≤ v.scanline) := by simp; omega
        simp only [hsame]
        exact ⟨id, id⟩
  · rw [inLine v (by omega)]
    exact ⟨id, id⟩

theorem tick_byLine (hdot : v.dot < 341) (hline : v.scanline < 262) (n : Nat) :
    (VblankByLine v → VblankByLine (v.tick n)) ∧ (NmiByLine v → NmiByLine (v.tick n)) := by
  induction n generalizing v with
  | zero => exact ⟨id, id⟩
  | succ n ih =>
    obtain ⟨hvblank, hnmi⟩ := dotStep_byLine hdot hline
    obtain ⟨-, hdot', hline'⟩ := Video.dotStep_position hdot hline
    obtain ⟨hvblank', hnmi'⟩ := ih hdot' hline'
    exact ⟨hvblank' ∘ hvblank, hnmi' ∘ hnmi⟩

/-- Where n dots lead the counters from the start of a frame. -/
theorem tick_counters (hdot : v.dot = 0) (hline : v.scanline = 0) (n : Nat) :
    (v.tick n).dot = n % 341 ∧ (v.tick n).scanline = n / 341 % 262 ∧ (v.tick n).frames = v.frames + n / 89342 := by
  obtain ⟨hpos, hdot', hline'⟩ := Video.tick_position (v := v) (by omega) (by omega) n
  unfold Video.position at hpos
  have hn : n = ((v.tick n).frames - v.frames) * 89342 + (v.tick n).scanline * 341 + (v.tick n).dot := by omega
  have hlines : n / 341 = ((v.tick n).frames - v.frames) * 262 + (v.tick n).scanline := by omega
  omega

/-- Settles O20: the counters follow from the position, the two bits from the scanline. -/
theorem tickLaw : Obligations.TickLaw := by
  intro v n hdot hline
  obtain ⟨hdots, hlines, hframes⟩ := tick_counters hdot hline n
  obtain ⟨hvblank, hnmi⟩ := tick_byLine (v := v) (by omega) (by omega) n
  unfold VblankByLine at hvblank
  unfold NmiByLine at hnmi
  rw [hlines, hline] at hvblank hnmi
  refine ⟨hdots, hlines, hframes, fun h => hvblank (by simpa using h), fun h => ?_, by simp, by simp, by simp, by simp, by simp,
    by simp, by simp⟩
  simpa using hnmi (by simpa using h)

/-! ## The ports -/

theorem memRead_port {p : Port} (h : regionOf a = .port p) (s : State) :
    memRead a s = (portRead p a s).bind fun v t => .ok v (t.latched v) := by simp [memRead, regionRead, h]

theorem memWrite_port {p : Port} (h : regionOf a = .port p) (b : Byte) (s : State) :
    memWrite a b s = portWrite p a b (s.latched b) := by simp [memWrite, regionWrite, h]

/-- Settles O22: the byte is taken before the read clears vertical blank and the toggle. -/
theorem statusRead : Obligations.StatusRead := by
  intro a s hport
  have hregion := (portAt_iff .status).mp hport
  rw [memRead_port hregion, portRead, readStatus, spriteBits]
  refine ⟨fun b hb => ?_, fun hb => ⟨Config.freeSpriteBits s.draws, ?_⟩⟩ <;> rw [hb] <;> rfl

/-- Settles O23: the write of port 0 is `Video.writeCtrl`. -/
theorem ctrlWrite : Obligations.CtrlWrite := fun a v s hport => by
  rw [memWrite_port ((portAt_iff .ctrl).mp hport), portWrite, State.latched_video]
  rfl

/-- Settles O24: each port stores its byte; a scroll write fills one of two bytes by its toggle. -/
theorem storedPorts : Obligations.StoredPorts := by
  refine ⟨fun a v s hport => ?_, fun a v s hport => ?_, fun a v s hport => ?_, fun a s hport => ?_,
    fun a v s hport htoggle => ?_, fun a v s hport htoggle => ?_⟩
  · rw [memWrite_port ((portAt_iff .mask).mp hport), portWrite, State.latched_video]
  · rw [memWrite_port ((portAt_iff .oamAddr).mp hport), portWrite, State.latched_video]
  · rw [memWrite_port ((portAt_iff .oamData).mp hport), portWrite, State.latched_video]
    rfl
  · rw [memRead_port ((portAt_iff .oamData).mp hport)]
    rfl
  · rw [memWrite_port ((portAt_iff .scroll).mp hport), portWrite, State.latched_video, State.latched_cfg, htoggle]
    cases hw : s.video.w <;> simp [Video.writeScroll, Video.fillScroll, hw]
  · rw [memWrite_port ((portAt_iff .scroll).mp hport), portWrite, State.latched_video, State.latched_cfg, htoggle]
    cases hw : s.video.ws <;> simp [Video.writeScroll, Video.fillScroll, hw]

/-- 60_exceptions R317: VADDR is kept modulo 0x4000. -/
theorem and_3FFF_eq (w : Word) : w &&& 0x3FFF = BitVec.ofNat 16 (w.toNat % 0x4000) := by
  apply BitVec.eq_of_toNat_eq
  rw [BitVec.toNat_and, BitVec.toNat_ofNat]
  have hmask : w.toNat &&& 0x3FFF = w.toNat % 0x4000 := Nat.and_two_pow_sub_one_eq_mod w.toNat 14
  have hlt : w.toNat % 0x4000 < 0x4000 := Nat.mod_lt _ (by decide)
  rw [show (0x3FFF : Word).toNat = 0x3FFF from rfl, hmask]
  omega

/-- Settles O25: the word with one byte replaced, by arithmetic. -/
theorem addressLatch : Obligations.AddressLatch := by
  have first (a : Word) (v : Byte) (s : State) (hport : portAt a 6) (hw : s.video.w = false) :
      memWrite a v s = .ok () ((s.latched v).setVideo { s.video with
        vaddr := BitVec.ofNat 16 ((v.toNat * 256 + s.video.vaddr.toNat % 256) % 0x4000), w := true }) := by
    have hvaddr : (word v (lo s.video.vaddr)).toNat = v.toNat * 256 + s.video.vaddr.toNat % 256 := by
      rw [word_toNat, lo_toNat, Nat.mul_comm]
    rw [memWrite_port ((portAt_iff .addr).mp hport), portWrite, State.latched_video, Video.writeAddr, ← hvaddr,
      ← and_3FFF_eq, hw]
    rfl
  have second (a : Word) (v : Byte) (s : State) (hport : portAt a 6) (hw : s.video.w = true) :
      memWrite a v s = .ok () ((s.latched v).setVideo { s.video with
        vaddr := BitVec.ofNat 16 ((s.video.vaddr.toNat / 256 * 256 + v.toNat) % 0x4000), w := false }) := by
    have hvaddr : (word (hi s.video.vaddr) v).toNat = s.video.vaddr.toNat / 256 * 256 + v.toNat := by
      rw [word_toNat, hi_toNat, Nat.mul_comm]
    rw [memWrite_port ((portAt_iff .addr).mp hport), portWrite, State.latched_video, Video.writeAddr, ← hvaddr,
      ← and_3FFF_eq, hw]
    rfl
  refine ⟨first, second, fun a b h l s ha hb hw => ⟨_, _, first a h s ha hw, second b l _ hb rfl, ?_, rfl⟩⟩
  have hl := l.isLt
  have hvaddr : ((h.toNat * 256 + s.video.vaddr.toNat % 256) % 0x4000 % 2 ^ 16 / 256 * 256 + l.toNat) % 0x4000 =
      (h.toNat * 256 + l.toNat) % 0x4000 := by omega
  simp only [State.setVideo_video, BitVec.toNat_ofNat, hvaddr]

/-! ## The data port -/

/-- 60_exceptions R321: where the data port moves VADDR. -/
theorem increment_eq (v : Video) : v.increment =
    { v with vaddr := BitVec.ofNat 16 ((v.vaddr.toNat + if v.ctrl.getLsbD 2 then 32 else 1) % 0x4000) } := by
  rw [Video.increment, and_3FFF_eq, BitVec.toNat_add]
  congr 2
  split <;> simp

/-- Settles O26: the three ranges of VADDR, in each of which the access is one of the unit's data operations and a move of
VADDR. -/
theorem dataPort : Obligations.DataPort := by
  intro a s hport
  have hregion := (portAt_iff .data).mp hport
  simp only [memRead_port hregion, memWrite_port hregion, portRead, portWrite, State.latched_video, State.latched_cart,
    Video.afterDataRead, Access.bind]
  refine ⟨fun hlow => ?_, fun hlow hhigh => ?_, fun hlow => ?_, fun b hlow hhigh => ?_, fun b hlow => ?_⟩
  · have hnt : s.video.vaddr.toNat < 0x3F00 := by omega
    simp [Video.dataByte, Video.refill, videoMem, increment_eq, hlow, hnt]
  · have hchr : ¬s.video.vaddr.toNat < 0x2000 := by omega
    simp [Video.dataByte, Video.refill, videoMem, increment_eq, hchr, hhigh]
  · have hnt : ¬s.video.vaddr.toNat < 0x3F00 := by omega
    simp [Video.dataByte, Video.refill, increment_eq, hnt]
  · have hchr : ¬s.video.vaddr.toNat < 0x2000 := by omega
    simp [Video.writeData, increment_eq, hchr, hhigh]
  · have hchr : ¬s.video.vaddr.toNat < 0x2000 := by omega
    have hnt : ¬s.video.vaddr.toNat < 0x3F00 := by omega
    simp [Video.writeData, increment_eq, hchr, hnt]

/-- Settles O27: the table number (horizontal: its high bit, vertical: its low bit) chooses the half of VRAM; the four shared
palette cells are those whose index is 0 modulo 4. -/
theorem videoMirrors : Obligations.VideoMirrors := by
  intro a
  refine ⟨?_, ?_, fun hlow hhigh => ?_⟩
  · unfold ntIndex
    dsimp only
    split_ifs <;> omega
  · unfold ntIndex
    dsimp only
    split_ifs <;> omega
  · unfold palIndex
    dsimp only
    split_ifs <;> omega

end Sys2Proof.Claims
end

section
/-! PROOFS. The family other, operands: what `resolve` computes, by arithmetic, and the data read at that address. -/

namespace Sys2Proof.Claims

open Sys2Proof.Machine

variable {s t : State} {o : Operand} {ea : Nat} {cross : Bool}

/-- A zero-page address, by arithmetic. -/
theorem zext_eq (b : Byte) : zext b = BitVec.ofNat 16 b.toNat := by simp [zext]

/-- 30_encoding R116, R117, R120: the indexed address and the page cross, by arithmetic. -/
theorem indexed_eq (base : Word) (index : Byte) :
    (Resolved.indexed base index).ea = BitVec.ofNat 16 ((base.toNat + index.toNat) % 65536) ∧
      (Resolved.indexed base index).cross = decide ((base.toNat + index.toNat) / 256 ≠ base.toNat / 256) := by
  have hbase := base.isLt
  have hindex := index.isLt
  have hea : (base + zext index).toNat = (base.toNat + index.toNat) % 65536 := by
    rw [BitVec.toNat_add, zext_eq, BitVec.toNat_ofNat, Nat.mod_eq_of_lt (a := index.toNat) (by omega)]
  have hpage : hi (base + zext index) = hi base ↔ (base.toNat + index.toNat) / 256 = base.toNat / 256 := by
    rw [← BitVec.toNat_inj, hi_toNat, hi_toNat, hea]
    omega
  constructor
  · rw [← hea, BitVec.ofNat_toNat, BitVec.setWidth_eq]; rfl
  · rw [Bool.eq_iff_iff]
    simp [Resolved.indexed, hpage]

/-- 30_encoding R119, R120: the pointer that `resolve` assembles, by arithmetic. -/
theorem zeroPagePointer_toNat (z : Byte) (s : State) :
    (word (s.ram.read (z + 1).toNat) (s.ram.read z.toNat)).toNat = pointer s z.toNat := by
  have hz := z.isLt
  have hlow : z.toNat % 256 = z.toNat := by omega
  rw [word_toNat, pointer, BitVec.toNat_add, hlow, Nat.add_comm]
  rfl

/-- The pointer's address is taken modulo 256. -/
theorem pointer_mod (s : State) (n : Nat) : pointer s (n % 256) = pointer s n := by
  unfold pointer
  rw [Nat.mod_mod, Nat.mod_add_mod]

/-- 30_encoding R112 to R120: a mode that has an address resolves to it, with its page cross and no effect but LATCH. -/
theorem resolve_of_address (h : address o s = some (ea, cross)) :
    ∃ r t, resolve o s = .ok r t ∧ r.ea = BitVec.ofNat 16 ea ∧ r.cross = cross ∧ (t = s ∨ ∃ v, t = s.latched v) := by
  cases o <;> cases h
  case zeroPage b => exact ⟨_, _, rfl, zext_eq b, rfl, .inl rfl⟩
  case zeroPageX b => exact ⟨_, _, rfl, by rw [Resolved.plain, zext_eq, BitVec.toNat_add], rfl, .inl rfl⟩
  case zeroPageY b => exact ⟨_, _, rfl, by rw [Resolved.plain, zext_eq, BitVec.toNat_add], rfl, .inl rfl⟩
  case absolute w => exact ⟨_, _, rfl, by simp [Resolved.plain], rfl, .inl rfl⟩
  case absoluteX w => exact ⟨_, _, rfl, (indexed_eq w s.x).1, (indexed_eq w s.x).2, .inl rfl⟩
  case absoluteY w => exact ⟨_, _, rfl, (indexed_eq w s.y).1, (indexed_eq w s.y).2, .inl rfl⟩
  case indexedIndirect b =>
    refine ⟨_, _, by rw [resolve, zeroPagePointer_eq]; rfl, ?_, rfl, .inr ⟨_, rfl⟩⟩
    have hsum : (b + s.x).toNat = (b.toNat + s.x.toNat) % 256 := BitVec.toNat_add b s.x
    rw [← pointer_mod, ← hsum, ← zeroPagePointer_toNat, BitVec.ofNat_toNat, BitVec.setWidth_eq, Resolved.plain]
  case indirectIndexed b =>
    have hindexed := indexed_eq (word (s.ram.read (b + 1).toNat) (s.ram.read b.toNat)) s.y
    rw [zeroPagePointer_toNat] at hindexed
    exact ⟨_, _, by rw [resolve, zeroPagePointer_eq, Access.bind, State.latched_y], hindexed.1, hindexed.2, .inr ⟨_, rfl⟩⟩

/-- 20_memory R69: a latch changes LATCH at most. -/
theorem latched_eq (s : State) (v : Byte) : s.latched v = { s with latch := (s.latched v).latch } := by
  unfold State.latched; split <;> rfl

/-- The data read of a mode that has an address is one bus read there, from the state that resolving it leaves. -/
theorem readOperand_of_address (h : address o s = some (ea, cross)) :
    ∃ r t, resolve o s = .ok r t ∧ r.ea = BitVec.ofNat 16 ea ∧ r.cross = cross ∧ (t = s ∨ ∃ v, t = s.latched v) ∧
      readOperand o s = (memRead (BitVec.ofNat 16 ea) t).bind fun m u => .ok (m, cross) u := by
  obtain ⟨r, t, hres, hea, hcross, ht⟩ := resolve_of_address h
  have hne : ∀ b, o ≠ .immediate b := by rintro b rfl; cases h
  exact ⟨r, t, hres, hea, hcross, ht, by rw [readOperand_of_ne hne, hres, Access.bind, hea, hcross]⟩

/-- Settles O29: resolve, then read. -/
theorem operandRead : Obligations.OperandRead := by
  refine ⟨fun b s => rfl, fun o s ea cross m haddr hpeek => ?_, fun o s ea cross haddr => ?_⟩
  · obtain ⟨r, t, -, -, -, ht, hread⟩ := readOperand_of_address haddr
    have hpeek' : peek t (BitVec.ofNat 16 ea) = some m := by
      rcases ht with rfl | ⟨v, rfl⟩
      · exact hpeek
      · simpa [peek] using hpeek
    have hlatched : t.latched m = s.latched m := by rcases ht with rfl | ⟨v, rfl⟩ <;> simp
    rw [hread, memRead_of_peek hpeek', hlatched]
    rfl
  · obtain ⟨r, t, hres, hea, hcross, ht, hread⟩ := readOperand_of_address haddr
    refine ⟨r, t, hres, hea, hcross, ?_, fun hfault => ?_, fun m u hok => ?_, fun k u hfail => ?_⟩
    · rcases ht with rfl | ⟨v, rfl⟩
      · rfl
      · exact latched_eq s v
    · rcases ht with rfl | ⟨v, rfl⟩
      · rfl
      · exact State.latched_of_fault s v hfault
    · rw [hread, hok]; rfl
    · rw [hread, hfail]; rfl

end Sys2Proof.Claims
end

section
/-! PROOFS. The family other, completion: the cost of each class of instructions by mode (the Encoding lines), and from it what
an instruction of each shape of rule leaves. -/

namespace Sys2Proof.Claims

open Sys2Proof.Machine

variable {s t u v : State} {i : Instr} {o : Operand} {r : Resolved} {m b : Byte} {cross : Bool}

/-! ## Costs -/

/-- The stores of a form. -/
def storers (o : Operand) : List Instr := [.sta o, .stx o, .sty o, .sax o, .sha o]

theorem costs_reader (hi : Reads i o) (hwf : i.wf = true) : Costs i o.mode (readCost o.mode) := by
  rcases hi with hi | ⟨w, rfl, rfl⟩ | ⟨w, rfl, rfl⟩ | ⟨k, w, rfl, rfl⟩
  · simp only [List.mem_cons, List.not_mem_nil, or_false] at hi
    rcases hi with rfl | rfl | rfl | rfl | rfl | rfl | rfl | rfl | rfl | rfl | rfl | rfl | rfl <;> cases o <;>
      first | exact ⟨_, _, rfl, rfl, fun c => by cases c <;> rfl⟩ | cases hwf
  · exact ⟨_, _, rfl, rfl, fun c => by cases c <;> rfl⟩
  · exact ⟨_, _, rfl, rfl, fun c => by cases c <;> rfl⟩
  · fin_cases k <;> exact ⟨_, _, rfl, rfl, fun c => by cases c <;> rfl⟩

theorem costs_storer (hi : i ∈ storers o) (hwf : i.wf = true) : Costs i o.mode fun _ => storeCost o.mode := by
  simp only [storers, List.mem_cons, List.not_mem_nil, or_false] at hi
  rcases hi with rfl | rfl | rfl | rfl | rfl <;> cases o <;>
    first | exact ⟨_, _, rfl, rfl, fun c => by cases c <;> rfl⟩ | cases hwf

theorem costs_modifier (hi : Modifies i o) (hwf : i.wf = true) : Costs i o.mode fun _ => modifyCost o.mode := by
  rcases hi with hi | ⟨k, rfl⟩
  · simp only [List.mem_cons, List.not_mem_nil, or_false] at hi
    rcases hi with rfl | rfl | rfl | rfl | rfl | rfl | rfl | rfl <;> cases o <;>
      first | exact ⟨_, _, rfl, rfl, fun c => by cases c <;> rfl⟩ | cases hwf
  · cases k <;> cases o <;> first | exact ⟨_, _, rfl, rfl, fun c => by cases c <;> rfl⟩ | cases hwf

/-- An instruction whose row carries no penalty costs what the row says. -/
theorem costs_row {opc : Byte} {mode : Mode} {n : Nat} {make : Operand → Instr}
    (h : rowOf i = some (opc, ⟨mode, n, false, make⟩)) : Costs i mode fun _ => n :=
  ⟨opc, _, h, rfl, fun c => by simp⟩

/-! ## Shapes -/

/-- A reading instruction completes where its operand reads. -/
theorem exec_reader {update : Byte → State → State} (hrule : exec i s = perform i (readThen o update) s) (hi : Reads i o)
    (hwf : i.wf = true) (h : readOperand o s = .ok (m, cross) t) (hpc : (update m t).pc = t.pc) :
    exec i s = .next (retired o.mode.bytes (readCost o.mode cross) (update m t)) := by
  rw [hrule, readThen_completes (costs_reader hi hwf) h hpc]; rfl

/-- An instruction with an immediate operand and 2 cycles completes in every state. -/
theorem exec_immediate {update : Byte → State → State} {opc : Byte} {make : Operand → Instr}
    (hrule : exec i s = perform i (readThen (.immediate b) update) s) (hrow : rowOf i = some (opc, ⟨.imm, 2, false, make⟩))
    (hpc : (update b s).pc = s.pc) : exec i s = .next (retired 2 2 (update b s)) := by
  rw [hrule, readThen_completes (costs_row hrow) rfl hpc]; rfl

/-- A store completes where its address takes the byte. -/
theorem exec_storer {value : State → Byte} (hrule : exec i s = perform i (storeThen o value) s) (hi : i ∈ storers o)
    (hwf : i.wf = true) (h : resolve o s = .ok r t) (hvalue : value t = value s)
    (hwrite : memWrite r.ea (value s) t = .ok () u) :
    exec i s = .next (retired o.mode.bytes (storeCost o.mode) u) := by
  rw [hrule, storeThen_completes (costs_storer hi hwf) h hvalue hwrite]; rfl

/-- A read-modify-write that writes no flag before its store completes where its address gives and takes the byte. -/
theorem exec_modifier {result : Byte → State → Byte} {after : Byte → Byte → State → State}
    (hrule : exec i s = perform i (modifyThen o result (fun _ w => w) after) s) (hi : Modifies i o) (hwf : i.wf = true)
    (h : resolve o s = .ok r t) (hread : memRead r.ea t = .ok m u) (hresult : result m u = b)
    (hwrite : memWrite r.ea b u = .ok () v) (hpc : (after m b v).pc = v.pc) :
    exec i s = .next (retired o.mode.bytes (modifyCost o.mode) (after m b v)) := by
  subst hresult
  rw [hrule, modifyThen_completes (costs_modifier hi hwf) h hread hwrite rfl hpc]; rfl

/-- No access of a read-modify-write changes a register. -/
theorem modify_step (h : resolve o s = .ok r t) (hread : memRead r.ea t = .ok m u) : BusStep s u :=
  (resolve_ok h).2.1.trans (memRead_step hread)

/-! ## Flags written -/

/-- `Writes` by one equation for all flags: a flag has its value in the list, or the value it had where it is not listed. -/
theorem writes_of_lookup {p q : Byte} {l : List (Flag × Bool)} (hl : ∀ c ∈ l, l.lookup c.1 = some c.2)
    (h : ∀ f, getFlag q f = (l.lookup f).getD (getFlag p f)) : Writes p q l := by
  refine ⟨fun f w hmem => by rw [h, hl _ hmem]; rfl, fun f hmem => ?_⟩
  have hnone : l.lookup f = none := by
    rw [List.lookup_eq_none_iff]
    rintro ⟨g, x⟩ hx
    have hne : f ≠ g := by rintro rfl; exact hmem x hx
    simpa using hne
  rw [h, hnone]; rfl

/-- A byte has bit 7 when it is 128 or more. -/
theorem bit7_eq (b : Byte) : b.getLsbD 7 = decide (128 ≤ b.toNat) := BitVec.msb_eq_decide b

/-- 41_arith_logic R160: the overflow of `AddCore` is that the exact signed sum is out of range. -/
theorem overflow_eq (a m : Byte) (c : Bool) :
    (a.getLsbD 7 == m.getLsbD 7 && (addResult a m c).getLsbD 7 != a.getLsbD 7) =
      decide (a.toInt + m.toInt + bit c < -128 ∨ 127 < a.toInt + m.toInt + bit c) := by
  have ha := a.isLt
  have hm := m.isLt
  have hsum : (addResult a m c).toNat = (a.toNat + m.toNat + bit c) % 256 := by
    simp [addResult, addSum, carryNat, bit]
  have hc : bit c ≤ 1 := by cases c <;> decide
  rw [Bool.eq_iff_iff]
  simp only [bit7_eq, hsum, BitVec.toInt_eq_toNat_cond, Bool.and_eq_true, beq_iff_eq, bne_iff_ne, decide_eq_decide, ne_eq,
    decide_eq_true_eq]
  split_ifs <;> omega

/-- 41_arith_logic R160: `AddCore` by exact arithmetic. -/
theorem added_addCore (t : State) (m : Byte) : Added t m (t.addCore m) := by
  refine ⟨addFlags t.p t.a m, rfl, writes_of_lookup (fun c hc => by fin_cases hc <;> rfl) fun f => ?_⟩
  rw [getFlag_addFlags, overflow_eq]
  cases f <;> rfl

/-- 41_arith_logic R161: a subtraction is the addition of the complement. -/
theorem subtracted_of_added {w : State} (h : Added t (~~~m) w) : Subtracted t m w := by
  obtain ⟨q, hw, hwrites⟩ := h
  have ha := t.a.isLt
  have hm := m.isLt
  have hnot : (~~~m).toNat = 255 - m.toNat := by simp [BitVec.toNat_not]
  have hneg : (~~~m).toInt = -m.toInt - 1 := by
    simp only [BitVec.toInt_eq_toNat_cond, hnot]
    split_ifs <;> omega
  have hborrow : (bit (getFlag t.p .c) : Int) = 1 - bit (!getFlag t.p .c) := by cases getFlag t.p .c <;> rfl
  have hresult : BitVec.ofNat 8 (t.a.toNat + (~~~m).toNat + bit (getFlag t.p .c)) =
      BitVec.ofInt 8 (t.a.toNat - m.toNat - bit (!getFlag t.p .c)) := by
    rw [← BitVec.ofInt_natCast]
    apply BitVec.eq_of_toNat_eq
    rw [BitVec.toNat_ofInt, BitVec.toNat_ofInt]
    omega
  have hcarry : 255 < t.a.toNat + (~~~m).toNat + bit (getFlag t.p .c) ↔
      m.toNat + bit (!getFlag t.p .c) ≤ t.a.toNat := by omega
  have hsigned : t.a.toInt + (~~~m).toInt + bit (getFlag t.p .c) = t.a.toInt - m.toInt - bit (!getFlag t.p .c) := by omega
  rw [hresult] at hw
  rw [decide_eq_decide.mpr hcarry, hsigned] at hwrites
  exact ⟨q, hw, hwrites⟩

end Sys2Proof.Claims
end

section
/-! PROOFS. The family other, results of the reading, storing and read-modify-write instructions. -/

namespace Sys2Proof.Claims

open Sys2Proof.Machine

variable {s t u v : State} {i : Instr} {o : Operand} {r : Resolved} {m b : Byte} {cross : Bool}

/-- Settles O30: the loads are readers; LAS has one form only. -/
theorem loadsComplete : Obligations.LoadsComplete := by
  intro o s t m cross h
  refine ⟨fun hwf => exec_reader rfl (.inl (by simp)) hwf h rfl, fun hwf => exec_reader rfl (.inl (by simp)) hwf h rfl,
    fun hwf => exec_reader rfl (.inl (by simp)) hwf h rfl, fun hwf => exec_reader rfl (.inl (by simp)) hwf h rfl, ?_⟩
  rintro w rfl
  exact exec_reader rfl (.inr (.inl ⟨w, rfl, rfl⟩)) rfl h rfl

/-- Settles O34: the logic instructions are readers. -/
theorem logicComplete : Obligations.LogicComplete := fun o s t m cross h =>
  ⟨fun hwf => exec_reader rfl (.inl (by simp)) hwf h rfl, fun hwf => exec_reader rfl (.inl (by simp)) hwf h rfl,
    fun hwf => exec_reader rfl (.inl (by simp)) hwf h rfl⟩

/-- 41_arith_logic R161, 44_undocumented R246, R255: the complement, as the undocumented rules write it. -/
theorem xor_FF (b : Byte) : b ^^^ 0xFF = ~~~b := BitVec.xor_allOnes

/-- Settles O33: `AddCore` of the byte, or of its complement. -/
theorem addSubtractComplete : Obligations.AddSubtractComplete := by
  intro o s t m cross h
  refine ⟨fun hwf => ⟨_, added_addCore t m, exec_reader rfl (.inl (by simp)) hwf h rfl⟩,
    fun hwf => ⟨_, subtracted_of_added (added_addCore t (~~~m)), exec_reader rfl (.inl (by simp)) hwf h rfl⟩, ?_⟩
  rintro b rfl
  refine ⟨_, subtracted_of_added (added_addCore s (~~~b)), ?_⟩
  rw [← xor_FF]
  exact exec_immediate (i := .usbc b) (update := fun m t => t.addCore (m ^^^ 0xFF)) rfl rfl rfl

/-- 41_arith_logic R165: `Compare` by arithmetic. -/
theorem compared_compare (t : State) (r m : Byte) : Compared t r m (t.compare r m) := by
  have hzero : (r - m == 0) = decide (r = m) := by
    rw [Bool.eq_iff_iff]
    simpa using BitVec.sub_eq_iff_eq_add.trans (by simp)
  refine ⟨compareFlags t.p r m, rfl, writes_of_lookup (fun c hc => by fin_cases hc <;> rfl) fun f => ?_⟩
  rw [getFlag_compareFlags, hzero]
  cases f <;> rfl

/-- 41_arith_logic R168: the flags of BIT. -/
theorem writes_bitFlags (p a m : Byte) :
    Writes p (bitFlags p a m) [(.z, decide (a &&& m = 0)), (.n, m.getLsbD 7), (.v, m.getLsbD 6)] := by
  refine writes_of_lookup (fun c hc => by fin_cases hc <;> rfl) fun f => ?_
  rw [getFlag_bitFlags]
  cases f <;> rfl

/-- Settles O35: the comparisons and BIT are readers that write P alone. -/
theorem compareComplete : Obligations.CompareComplete := fun o s t m cross h =>
  ⟨fun hwf => ⟨_, compared_compare t t.a m, exec_reader rfl (.inl (by simp)) hwf h rfl⟩,
    fun hwf => ⟨_, compared_compare t t.x m, exec_reader rfl (.inl (by simp)) hwf h rfl⟩,
    fun hwf => ⟨_, compared_compare t t.y m, exec_reader rfl (.inl (by simp)) hwf h rfl⟩,
    fun hwf => ⟨_, writes_bitFlags t.p t.a m, exec_reader rfl (.inl (by simp)) hwf h rfl⟩⟩

/-- Settles O31: the stored byte is made of registers, which resolving the operand keeps. -/
theorem storesComplete : Obligations.StoresComplete := by
  intro o s t u r h
  have hstep := (resolve_ok h).2.1
  refine ⟨fun hwf hw => exec_storer rfl (by simp [storers]) hwf h hstep.a hw,
    fun hwf hw => exec_storer rfl (by simp [storers]) hwf h hstep.x hw,
    fun hwf hw => exec_storer rfl (by simp [storers]) hwf h hstep.y hw,
    fun hwf hw => exec_storer (value := fun t => t.a &&& t.x) rfl (by simp [storers]) hwf h ?_ hw⟩
  rw [hstep.a, hstep.x]

/-- Settles O36: one read and one write of EA, by which P has not changed. -/
theorem memoryIncrementsComplete : Obligations.MemoryIncrementsComplete := by
  intro o s t u v r m h hread
  refine ⟨fun hwf hw => ?_, fun hwf hw => ?_⟩ <;>
    rw [← ((modify_step h hread).trans (memWrite_step hw)).p] <;>
    exact exec_modifier rfl (.inl (by simp)) hwf h hread rfl hw rfl

/-! ## Shifts -/

/-- 42_shift_rotate R190: the result of a shift is that of the arithmetic. -/
theorem shiftResult_eq (k : ShiftKind) (c : Bool) (m : Byte) : shiftResult k c m = shiftValue k c m := by
  cases k <;> revert c m <;> decide

/-- 42_shift_rotate R190: the carry out of a shift is that of the arithmetic. -/
theorem shiftCarry_eq (k : ShiftKind) (m : Byte) : shiftCarry k m = shiftOut k m := by
  cases k <;> revert m <;> decide

/-- 42_shift_rotate R190: `Shift` writes C alone. -/
theorem writes_shiftFlags (k : ShiftKind) (p m : Byte) : Writes p (shiftFlags k p m) [(.c, shiftOut k m)] := by
  rw [shiftFlags, shiftCarry_eq]
  exact (Writes.refl p).setFlag _ (by simp)

/-- 42_shift_rotate R190: the flags of a shift with its result. -/
theorem writes_shift (k : ShiftKind) (p m r : Byte) :
    Writes p (setNZ (shiftFlags k p m) r) [(.c, shiftOut k m), (.z, decide (r = 0)), (.n, r.getLsbD 7)] :=
  ((writes_shiftFlags k p m).setFlag (f := .z) _ (by simp)).setFlag (f := .n) _ (by simp)

/-- The rule of each of the four instructions is `shiftOperand`. -/
theorem exec_shiftInstr (k : ShiftKind) (o : Operand) (s : State) :
    exec (shiftInstr k o) s = perform (shiftInstr k o) (shiftOperand k o) s := by cases k <;> rfl

/-- An operand that resolves is not the accumulator: the rule is the memory form. -/
theorem exec_shiftInstr_of_resolve (k : ShiftKind) (h : resolve o s = .ok r t) :
    exec (shiftInstr k o) s = perform (shiftInstr k o) (shiftMemory k o) s := by
  have hrule : shiftOperand k o s = shiftMemory k o s := by cases o <;> first | rfl | cases h
  rw [exec_shiftInstr, perform, perform, hrule]

/-- A write after a change of P is the write, and the change. -/
theorem memWrite_ok_setP {a : Word} {q : Byte} (h : memWrite a b u = .ok () v) :
    memWrite a b (u.setP q) = .ok () (v.setP q) := by rw [memWrite_setP, h]; rfl

/-- The accumulator form has no access. -/
theorem exec_shiftAccumulator (k : ShiftKind) (s : State) :
    exec (shiftInstr k .accumulator) s = .next (retired 1 2 (shiftAccumulator k s)) := by
  have hrule : exec (shiftInstr k .accumulator) s =
      perform (shiftInstr k .accumulator) (registerOnly (shiftAccumulator k)) s := exec_shiftInstr k _ s
  rw [hrule, registerOnly_completes (costs_modifier (.inr ⟨k, rfl⟩) (by cases k <;> rfl)) rfl]
  rfl

/-- The memory form has written C when it stores. -/
theorem exec_shiftMemory (k : ShiftKind) (hwf : (shiftInstr k o).wf = true) (h : resolve o s = .ok r t)
    (hread : memRead r.ea t = .ok m u) (hw : memWrite r.ea (shiftValue k (getFlag s.p .c) m) u = .ok () v) :
    exec (shiftInstr k o) s = .next (retired o.mode.bytes (modifyCost o.mode)
      (v.setP (setNZ (shiftFlags k s.p m) (shiftValue k (getFlag s.p .c) m)))) := by
  have hp : u.p = s.p := (modify_step h hread).p
  rw [← hp, ← shiftResult_eq] at hw ⊢
  have hdone := modifyThen_completes (costs_modifier (.inr ⟨k, rfl⟩) hwf) h hread
    (before := fun m t => t.setP (shiftFlags k t.p m))
    (result := fun m t => shiftResult k (getFlag t.p .c) m) (after := fun _ r t => t.setP (setNZ t.p r)) (memWrite_ok_setP hw)
    rfl rfl
  rw [exec_shiftInstr_of_resolve k h]
  exact hdone

/-- Settles O38: both forms leave the flags of `writes_shift`. -/
theorem shiftsComplete : Obligations.ShiftsComplete := by
  refine ⟨fun k s => ⟨_, writes_shift k s.p s.a _, ?_⟩,
    fun k o s t u v e m hwf h hread hw => ⟨_, writes_shift k s.p m _, ?_⟩⟩
  · rw [exec_shiftAccumulator, shiftAccumulator, shiftResult_eq]
  · exact exec_shiftMemory k hwf h hread hw

end Sys2Proof.Claims
end

section
/-! PROOFS. The family other, results of the undocumented instructions (44_undocumented) and of the no-operations. -/

namespace Sys2Proof.Claims

open Sys2Proof.Machine

variable {s t u v : State} {i : Instr} {o : Operand} {r : Resolved} {m b : Byte} {cross : Bool}

/-! ## Read-modify-write combinations -/

/-- 44_undocumented R241 to R244: a combination with a shift completes where its address gives and takes the byte. -/
theorem exec_combination {k : ShiftKind} {combine : Byte → Byte → State → State}
    (hrule : exec i s = perform i (modifyCombine o (shifted k) combine) s) (hi : Modifies i o) (hwf : i.wf = true)
    (h : resolve o s = .ok r t) (hread : memRead r.ea t = .ok m u)
    (hw : memWrite r.ea (shiftValue k (getFlag s.p .c) m) u = .ok () v)
    (hpc : (combine m (shiftValue k (getFlag s.p .c) m) v).pc = v.pc) :
    exec i s = .next (retired o.mode.bytes (modifyCost o.mode) (combine m (shiftValue k (getFlag s.p .c) m) v)) := by
  have hresult : shifted k m u = shiftValue k (getFlag s.p .c) m := by
    rw [shifted, (modify_step h hread).p, shiftResult_eq]
  exact exec_modifier hrule hi hwf h hread hresult hw hpc

/-- Settles O45: A and P are as before when the second operation reads them, but for the C of the shift. -/
theorem combinationsComplete : Obligations.CombinationsComplete := by
  intro o s t u v e m h hread c done
  have kept {b : Byte} (hw : memWrite e.ea b u = .ok () v) : BusStep s v := (modify_step h hread).trans (memWrite_step hw)
  have flags (k : ShiftKind) {b : Byte} (hw : memWrite e.ea b u = .ok () v) :
      Writes s.p (shiftFlags k v.p m) [(.c, shiftOut k m)] := by rw [(kept hw).p]; exact writes_shiftFlags k s.p m
  refine ⟨fun hwf hw => ⟨_, flags .asl hw, ?_⟩, fun hwf hw => ⟨_, flags .rol hw, ?_⟩, fun hwf hw => ⟨_, flags .lsr hw, ?_⟩,
    fun hwf hw => ⟨_, _, flags .ror hw, added_addCore _ _, ?_⟩, fun hwf hw => ?_, fun hwf hw => ?_⟩
  · rw [← (kept hw).a]; exact exec_combination rfl (.inl (by simp)) hwf h hread hw rfl
  · rw [← (kept hw).a]; exact exec_combination rfl (.inl (by simp)) hwf h hread hw rfl
  · rw [← (kept hw).a]; exact exec_combination rfl (.inl (by simp)) hwf h hread hw rfl
  · exact exec_combination rfl (.inl (by simp)) hwf h hread hw rfl
  · rw [← (kept hw).a]
    exact ⟨_, compared_compare v v.a (m - 1), exec_modifier rfl (.inl (by simp)) hwf h hread rfl hw rfl⟩
  · refine ⟨_, subtracted_of_added (added_addCore v (~~~(m + 1))), ?_⟩
    rw [← xor_FF]
    exact exec_modifier rfl (.inl (by simp)) hwf h hread rfl hw rfl

/-! ## Immediate combinations -/

/-- 44_undocumented R249: the flags of ANC. -/
theorem writes_ancFlags (p r : Byte) :
    Writes p (ancFlags p r) [(.c, r.getLsbD 7), (.n, r.getLsbD 7), (.z, decide (r = 0))] := by
  refine writes_of_lookup (fun c hc => by fin_cases hc <;> rfl) fun f => ?_
  rw [getFlag_ancFlags]
  cases f <;> rfl

/-- 44_undocumented R250, R254: the flags of a write of C and a load. -/
theorem writes_carry_setNZ (p r : Byte) (c : Bool) :
    Writes p (setNZ (setFlag p .c c) r) [(.c, c), (.n, r.getLsbD 7), (.z, decide (r = 0))] := by
  refine writes_of_lookup (fun c hc => by fin_cases hc <;> rfl) fun f => ?_
  rw [getFlag_setNZ, getFlag_setFlag]
  cases f <;> rfl

/-- 44_undocumented R251: the flags of ARR. -/
theorem writes_arrFlags (p r : Byte) :
    Writes p (arrFlags p r) [(.c, r.getLsbD 6), (.v, r.getLsbD 6 != r.getLsbD 5), (.n, r.getLsbD 7), (.z, decide (r = 0))] := by
  refine writes_of_lookup (fun c hc => by fin_cases hc <;> rfl) fun f => ?_
  rw [getFlag_arrFlags]
  cases f <;> rfl

/-- Settles O46: ALR halves and ARR rotates as LSR and ROR do. -/
theorem immediatesComplete : Obligations.ImmediatesComplete := by
  intro b s
  refine ⟨fun k => ⟨_, writes_ancFlags s.p (s.a &&& b), ?_⟩, ?_, ⟨_, writes_arrFlags s.p _, ?_⟩,
    ⟨_, writes_carry_setNZ s.p _ _, exec_immediate (i := .sbx b) (update := fun m t => t.sbx m) rfl rfl rfl⟩⟩
  · fin_cases k <;>
      exact exec_immediate (update := fun m t => (t.setA (t.a &&& m)).setP (ancFlags t.p (t.a &&& m))) rfl rfl rfl
  · have hhalf : (s.a &&& b) >>> 1 = BitVec.ofNat 8 ((s.a &&& b).toNat / 2) := shiftResult_eq .lsr false (s.a &&& b)
    have hsign : (BitVec.ofNat 8 ((s.a &&& b).toNat / 2)).getLsbD 7 = false := by rw [← hhalf]; simp
    have hflags := writes_carry_setNZ s.p (BitVec.ofNat 8 ((s.a &&& b).toNat / 2)) ((s.a &&& b).getLsbD 0)
    rw [hsign] at hflags
    refine ⟨_, hflags, ?_⟩
    rw [← hhalf]
    exact exec_immediate (i := .alr b) (update := fun m t => t.alr m) rfl rfl rfl
  · have hrotated := shiftResult_eq .ror (getFlag s.p .c) (s.a &&& b)
    rw [shiftValue] at hrotated
    rw [← hrotated]
    exact exec_immediate (i := .arr b) (update := fun m t => t.arr m) rfl rfl rfl

/-- An unstable instruction that is defined runs as any other. -/
theorem exec_unstable {rule : State → Access Done} (hdefined : s.cfg.unstablePolicy = .defined)
    (hrule : exec i s = performUnstable i rule s) : exec i s = perform i rule s :=
  hrule.trans (performUnstable_defined hdefined)

/-- Settles O47: the MAGIC source gives the byte, and a draw moves the counter. -/
theorem magicComplete : Obligations.MagicComplete := by
  intro b s hdefined
  have hane : exec (.ane b) s = .next (retired 2 2 (s.ane b)) :=
    exec_immediate (update := fun m t => t.ane m) (exec_unstable hdefined rfl) rfl (by unfold State.ane magicByte; split <;> rfl)
  have hlxa : exec (.lxa b) s = .next (retired 2 2 (s.lxa b)) :=
    exec_immediate (update := fun m t => t.lxa m) (exec_unstable hdefined rfl) rfl (by unfold State.lxa magicByte; split <;> rfl)
  rw [hane, hlxa]
  refine ⟨fun k hk => ?_, fun hdraw => ⟨Config.freeMagic s.draws, ?_⟩⟩
  · have hmagic : magicByte s = (k, s) := by simp [magicByte, hk]
    rw [State.ane, State.lxa, hmagic]
    exact ⟨rfl, rfl⟩
  · have hmagic : magicByte s = (Config.freeMagic s.draws, s.setDraws (s.draws + 1)) := by simp [magicByte, hdraw]
    rw [State.ane, State.lxa, hmagic]
    exact ⟨rfl, rfl⟩

/-! ## High-byte stores -/

/-- A high-byte store completes where its address takes the byte. -/
theorem exec_highStore {value : State → Byte} {n : Nat} (hrule : exec i s = perform i (highStore o value) s)
    (hc : Costs i o.mode fun _ => n) (h : resolve o s = .ok r t) (hvalue : value t = value s)
    (hw : memWrite (highStoreAddress r (value s)) (highStoreValue r (value s)) t = .ok () u) :
    exec i s = .next (retired o.mode.bytes n u) := by
  rw [hrule, highStore_completes hc h hvalue hw]; rfl

/-- 44_undocumented R258: TAS is the high-byte store of SP, run from the state in which SP has been set. -/
theorem exec_tas (w : Word) (hdefined : s.cfg.unstablePolicy = .defined) :
    exec (.tas w) s = perform (.tas w) (highStore (.absoluteY w) State.sp) (s.setSp (s.a &&& s.x)) := by
  obtain ⟨opc, row, hrow, -⟩ := rowOf_wf (i := .tas w) rfl
  rw [exec_unstable (i := .tas w) hdefined rfl]
  simp only [perform, hrow, State.setSp_pc]

/-- Settles O48: the value is made of registers, which resolving the operand keeps. -/
theorem highStoresComplete : Obligations.HighStoresComplete := by
  intro o s t u r hdefined h value target
  have hstep := (resolve_ok h).2.1
  refine ⟨fun hwf hw => ?_, ?_, ?_, ?_⟩
  · have hvalue : t.a &&& t.x = s.a &&& s.x := by rw [hstep.a, hstep.x]
    exact exec_highStore (i := .sha o) (value := fun t => t.a &&& t.x) (exec_unstable hdefined rfl)
      (costs_storer (by simp [storers]) hwf) h hvalue hw
  · rintro w rfl hw
    have hcost : Costs (.tas w) .absy fun _ => 5 := costs_row rfl
    have hres : resolve (.absoluteY w) (s.setSp (s.a &&& s.x)) = .ok r (s.setSp (s.a &&& s.x)) := by
      cases h; rfl
    rw [exec_tas w hdefined, highStore_completes (value := State.sp) hcost hres rfl hw]
    rfl
  · rintro w rfl hw
    exact exec_highStore (i := .shy w) (o := .absoluteX w) (exec_unstable hdefined rfl) (costs_row rfl) h hstep.y hw
  · rintro w rfl hw
    exact exec_highStore (i := .shx w) (o := .absoluteY w) (exec_unstable hdefined rfl) (costs_row rfl) h hstep.x hw

/-! ## No-operations -/

/-- A no-operation whose row carries no penalty completes where its data read does. -/
theorem exec_readDiscard {opc : Byte} {n : Nat} {make : Operand → Instr} (hrule : exec i s = perform i (readDiscard o) s)
    (hrow : rowOf i = some (opc, ⟨o.mode, n, false, make⟩)) (h : readOperand o s = .ok (m, cross) t) :
    exec i s = .next (retired o.mode.bytes n t) := by
  have hread : exec i s = perform i (readThen o fun _ t => t) s := hrule
  rw [hread, readThen_completes (costs_row hrow) h rfl]; rfl

/-- Settles O49: the one-byte forms make no access, the immediate ones read what was fetched, the others read and discard. -/
theorem noOperationsComplete : Obligations.NoOperationsComplete := by
  refine ⟨fun s => ⟨exec_registerOnly (fun t => t) rfl rfl rfl, fun k => ?_, fun k b => ?_, fun hjam k => ?_⟩,
    fun o s t m cross h => ⟨?_, ?_, ?_, ?_⟩⟩
  · fin_cases k <;> exact exec_registerOnly (fun t => t) rfl rfl rfl
  · fin_cases k <;> exact exec_readDiscard (o := .immediate b) rfl rfl rfl
  · have hrule : exec (.jam k) s = perform (.jam k) (registerOnly fun t => t) s := by simp [exec, execJam, hjam]
    fin_cases k <;> exact exec_registerOnly (fun t => t) hrule rfl rfl
  · rintro k b rfl
    fin_cases k <;> exact exec_readDiscard (o := .zeroPage b) rfl rfl h
  · rintro k b rfl
    fin_cases k <;> exact exec_readDiscard (o := .zeroPageX b) rfl rfl h
  · rintro w rfl
    exact exec_readDiscard (o := .absolute w) rfl rfl h
  · rintro k w rfl
    exact exec_reader (o := .absoluteX w) rfl (.inr (.inr (.inr ⟨k, w, rfl, rfl⟩))) (by fin_cases k <;> rfl) h rfl

end Sys2Proof.Claims
end

section
/-! PROOFS. The family other, control flow and the stack (43_control_stack_flags). -/

namespace Sys2Proof.Claims

open Sys2Proof.Machine

variable {s t u : State} {i : Instr}

/-! ## Branches and jumps -/

/-- 43_control_stack_flags R200: a branch completes in every state, whichever way it goes. -/
theorem exec_branch {taken : Bool} {disp opc : Byte} {make : Operand → Instr}
    (hrule : exec i s = perform i (branch taken disp) s) (hrow : rowOf i = some (opc, ⟨.rel, 2, false, make⟩)) :
    exec i s = .next (branched taken disp s) := by
  have hcost : Costs i .rel fun _ => 2 := costs_row hrow
  rw [hrule]
  cases taken with
  | false =>
    have hdone : branch false disp s = .ok {} s := rfl
    rw [hcost.stays hdone rfl rfl rfl]
    rfl
  | true =>
    have hcycles (p q : Byte) : 2 + (1 + if p != q then 1 else 0) = if p = q then 3 else 4 := by
      by_cases h : p = q <;> simp [h]
    have hdone : branch true disp s =
        .ok { transferred := true, extra := 1 + if hi (s.pc + 1 + sext disp) != hi (s.pc + 1) then 1 else 0 }
          (s.setPc (s.pc + 1 + sext disp)) := rfl
    rw [hcost.transfers hdone rfl rfl, hcycles]
    rfl

/-- Settles O39: eight flag tests of one rule, in relative rows of 2 cycles. -/
theorem branchesComplete : Obligations.BranchesComplete := fun _ _ =>
  ⟨exec_branch rfl rfl, exec_branch rfl rfl, exec_branch rfl rfl, exec_branch rfl rfl, exec_branch rfl rfl, exec_branch rfl rfl,
    exec_branch rfl rfl, exec_branch rfl rfl⟩

/-- 30_encoding R118: the second pointer byte, by arithmetic. -/
theorem samePageNext_eq (ptr : Word) :
    samePageNext ptr = BitVec.ofNat 16 (ptr.toNat / 256 * 256 + (ptr.toNat + 1) % 256) := by
  have hptr := ptr.isLt
  have hone : (1 : Byte).toNat = 1 := rfl
  apply BitVec.eq_of_toNat_eq
  rw [samePageNext, word_toNat, hi_toNat, BitVec.toNat_add, lo_toNat, hone, BitVec.toNat_ofNat]
  omega

/-- A rule that sets PC to `target` in a row without penalty completes there. -/
theorem exec_transfer {rule : State → Access Done} {opc : Byte} {mode : Mode} {n : Nat} {make : Operand → Instr} {target : Word}
    (hrule : exec i s = perform i rule s) (hrow : rowOf i = some (opc, ⟨mode, n, false, make⟩))
    (h : rule s = .ok { transferred := true } (t.setPc target)) :
    exec i s = .next (tick n (t.setPc (landing t.cfg s.pc target mode.bytes))) := by
  rw [hrule, (costs_row hrow).transfers h rfl rfl]
  rfl

/-- Settles O40: both rules set PC last. -/
theorem jumpsComplete : Obligations.JumpsComplete := by
  refine ⟨fun w s => ?_, fun ptr s t u l h hlow hhigh => ?_⟩
  · rw [exec_transfer (i := .jmpAbsolute w) (rule := fun t => .ok { transferred := true } (t.setPc w)) rfl rfl rfl]
    rfl
  · have hcfg : u.cfg = s.cfg := ((memRead_step hlow).trans (memRead_step hhigh)).cfg
    rw [← samePageNext_eq] at hhigh
    have hrule : jumpIndirect ptr s = .ok { transferred := true } (u.setPc (word h l)) := by
      simp [jumpIndirect, hlow, hhigh, Access.bind]
    rw [exec_transfer (i := .jmpIndirect ptr) rfl rfl hrule, hcfg]
    rfl

/-! ## Subroutines and the stack -/

theorem sub_one_sub_one (b : Byte) : b - 1 - 1 = b - 2 := by bv_omega

theorem sub_one_sub_one_sub_one (b : Byte) : b - 1 - 1 - 1 = b - 3 := by bv_omega

theorem add_one_add_one (b : Byte) : b + 1 + 1 = b + 2 := by bv_omega

theorem add_one_add_one_add_one (b : Byte) : b + 1 + 1 + 1 = b + 3 := by bv_omega

/-- 43_control_stack_flags R213: the two pushes of JSR. -/
theorem callSubroutine_eq (w : Word) (s : State) :
    callSubroutine w s = .ok { transferred := true } ((((s.setRam ((s.ram.write (cell s.sp) (hi (s.pc + 1))).write
      (cell (s.sp - 1)) (lo (s.pc + 1)))).setSp (s.sp - 2)).latched (lo (s.pc + 1))).setPc w) := by
  simp only [callSubroutine, push_eq, Access.bind, State.latched_setRam, State.latched_setSp, State.latched_latched,
    State.latched_ram, State.latched_sp, State.setRam_ram, State.setSp_ram, State.setSp_sp, sub_one_sub_one]
  rfl

/-- A one-byte instruction lands where it goes, even under `PC_ADVANCE = compare`. -/
theorem landing_one (c : Config) (entry target : Word) : landing c entry target 1 = target := by
  simp [landing]

/-- Settles O41: the pushes and pulls are in RAM, so that none fails. -/
theorem subroutinesComplete : Obligations.SubroutinesComplete := by
  intro s
  refine ⟨fun w => ?_, ?_, ?_⟩
  · rw [exec_transfer (i := .jsr w) rfl rfl (callSubroutine_eq w s), State.latched_cfg]
    rfl
  · rw [exec_transfer (i := .rts) rfl rfl (returnFromSubroutine_eq s), Mode.bytes, Mode.operandBytes, landing_one,
      add_one_add_one]
    rfl
  · rw [exec_transfer (i := .rti) rfl rfl (returnFromInterrupt_eq s), Mode.bytes, Mode.operandBytes, landing_one,
      add_one_add_one_add_one, add_one_add_one]
    rfl

/-- Settles O44: one push or one pull, in RAM. -/
theorem stackComplete : Obligations.StackComplete := by
  intro s m popped
  have push {i : Instr} {opc b : Byte} {make : Operand → Instr} {value : State → Byte}
      (hrule : exec i s = perform i (pushThen value) s) (hrow : rowOf i = some (opc, ⟨.imp, 3, false, make⟩))
      (hb : value s = b) :
      exec i s = .next (retired 1 3 (((s.setRam (s.ram.write (cell s.sp) b)).setSp (s.sp - 1)).latched b)) := by
    have hdone : pushThen value s = .ok {} (((s.setRam (s.ram.write (cell s.sp) b)).setSp (s.sp - 1)).latched b) := by
      simp [pushThen, push_eq, Access.bind, hb, cell]
    rw [hrule, (costs_row hrow).stays hdone rfl rfl (by simp)]
    rfl
  have pull {i : Instr} {opc : Byte} {make : Operand → Instr} {update : Byte → State → State}
      (hrule : exec i s = perform i (popThen update) s) (hrow : rowOf i = some (opc, ⟨.imp, 4, false, make⟩))
      (hpc : (update m popped).pc = popped.pc) : exec i s = .next (retired 1 4 (update m popped)) := by
    have hdone : popThen update s = .ok {} (update m popped) := by
      simp [popThen, pop_eq, Access.bind, m, popped, cell]
    rw [hrule, (costs_row hrow).stays hdone rfl rfl (by rw [hpc]; simp [popped])]
    rfl
  exact ⟨push (i := .pha) (value := State.a) rfl rfl rfl, push (i := .php) (value := fun t => phpImage t.p) rfl rfl rfl,
    pull (i := .pla) (update := fun v t => t.loadA v) rfl rfl rfl,
    pull (i := .plp) (update := fun v t => t.setP (pulledStatus v)) rfl rfl rfl⟩

end Sys2Proof.Claims
end

section
/-! PROOFS. The family other, the step (30_encoding R125) and where it stops: which instruction it runs, the policies that stop
it, and the interrupt sequence. -/

namespace Sys2Proof.Claims

open Sys2Proof.Machine

variable {s t u : State} {i : Instr} {a : Word} {opc : Byte} {r : Row}

/-! ## The instruction that a step runs -/

/-- 30_encoding R126. -/
theorem sticks_eq_false {c : Config} : sticks c opc = false ↔ ¬(c.jamPolicy = .stuck ∧ opc ∈ jamOpcodes) := by
  simp [sticks]

/-- 30_encoding R108. -/
theorem refuses_eq_false {c : Config} : refuses c opc = false ↔ ¬(c.unstablePolicy = .refuse ∧ opc ∈ unstableOpcodes) := by
  simp [refuses]

/-- 30_encoding R125: a running step with no NMI pending executes what it fetches, unless a policy stops it. -/
theorem step_of_read (hrun : s.run = .running) (hnmi : s.video.nmiPending = false) (hread : memRead s.pc s = .ok opc t)
    (hr : recordOf opc = some r) (hjam : ¬(s.cfg.jamPolicy = .stuck ∧ opc ∈ jamOpcodes))
    (hrefuse : ¬(s.cfg.unstablePolicy = .refuse ∧ opc ∈ unstableOpcodes)) :
    step s = executeFetched opc r (t.setPc (s.pc + 1)) := by
  rw [step_of_running hrun hnmi, fetchExecute_of_read hread hr (sticks_eq_false.mpr hjam) (refuses_eq_false.mpr hrefuse)]

/-- Settles O5: the operand bytes are read, decoded, and executed. -/
theorem stepRunsDecoded : Obligations.StepRunsDecoded := by
  intro s t u opc r bytes rest i hrun hnmi hread hr hjam hrefuse hbytes hdecode
  rw [step_of_read hrun hnmi hread hr hjam hrefuse, executeFetched, State.setPc_pc, hbytes]
  simp only [hdecode]

/-- `bytes` lie at `a` and on, in RAM or program ROM. -/
def Placed (s : State) (a : Word) (bytes : List Byte) : Prop :=
  ∀ k b, bytes[k]? = some b → peek s (a + BitVec.ofNat 16 k) = some b

theorem Placed.head {b : Byte} {bs : List Byte} (h : Placed s a (b :: bs)) : peek s a = some b := by
  simpa using h 0 b rfl

theorem Placed.tail {b : Byte} {bs : List Byte} (h : Placed s a (b :: bs)) : Placed s (a + 1) bs := fun k c hk => by
  have hoffset : a + 1 + BitVec.ofNat 16 k = a + BitVec.ofNat 16 (k + 1) := by
    rw [BitVec.add_assoc, BitVec.add_comm 1, show (1 : Word) = BitVec.ofNat 16 1 from rfl, ← BitVec.ofNat_add]
  rw [hoffset]
  exact h (k + 1) c hk

/-- Placed bytes are read with no effect but LATCH, which holds the last of them. -/
theorem readBytes_of_placed {bytes : List Byte} (v : Byte) (h : Placed s a bytes) :
    readBytes bytes.length a (s.latched v) = .ok bytes (s.latched (bytes.getLastD v)) := by
  induction bytes generalizing a v with
  | nil => rfl
  | cons b bs ih =>
    have hpeek : peek (s.latched v) a = some b := by simpa [peek] using h.head
    rw [List.length_cons, readBytes, memRead_of_peek hpeek, Access.bind, State.latched_latched, ih b h.tail,
      List.getLastD_cons]
    rfl

/-- 44_undocumented R268: the records of the JAM opcodes build JAM. -/
theorem jam_of_record (hjam : opc ∈ jamOpcodes) (hr : recordOf opc = some r) (hmake : r.make i.operand = i) :
    ∃ k, i = .jam k := by
  simp only [jamOpcodes, List.mem_cons, List.not_mem_nil, or_false] at hjam
  rcases hjam with rfl | rfl | rfl | rfl | rfl | rfl | rfl | rfl | rfl | rfl | rfl | rfl <;> cases hr <;>
    exact ⟨_, hmake.symm⟩

/-- 30_encoding R108: the records of the unstable opcodes build unstable instructions. -/
theorem unstable_of_record (hunstable : opc ∈ unstableOpcodes) (hr : recordOf opc = some r) (hmake : r.make i.operand = i) :
    Unstable i := by
  simp only [unstableOpcodes, List.mem_cons, List.not_mem_nil, or_false] at hunstable
  unfold Unstable
  rcases hunstable with rfl | rfl | rfl | rfl | rfl | rfl | rfl <;> cases hr <;> rw [← hmake] <;> simp

/-- An instruction that has bytes has a record, which builds it. -/
theorem encode_some {bytes : List Byte} (h : encode i = some bytes) :
    ∃ opc r, recordOf opc = some r ∧ r.mode = i.operand.mode ∧ r.make i.operand = i ∧ bytes = opc :: i.operand.bytes := by
  obtain ⟨opc, hopc, rfl⟩ := Option.map_eq_some_iff.mp h
  cases hwf : i.wf with
  | false => cases hopc.symm.trans ((Laws.encodes i).2 hwf)
  | true =>
    obtain ⟨opc', r, hopc', hr, hmode, hmake, -⟩ := (Laws.encodes i).1 hwf
    obtain rfl : opc = opc' := Option.some.inj (hopc.symm.trans hopc')
    exact ⟨opc, r, hr, hmode, hmake, rfl⟩

/-- Settles O6: the opcode and the operand bytes are read where they lie, and decode to the instruction. -/
theorem stepRunsPlaced : Obligations.StepRunsPlaced := by
  intro s i bytes last hrun hnmi henc hlast hplaced hjam hrefuse
  obtain ⟨opc, r, hr, hmode, hmake, rfl⟩ := encode_some henc
  have hplaced : Placed s s.pc (opc :: i.operand.bytes) := hplaced
  have hlast : i.operand.bytes.getLastD opc = last := by simpa [List.getLast?_cons] using hlast
  have hbytes := readBytes_of_placed (s := s.setPc (s.pc + 1)) opc hplaced.tail
  rw [← State.latched_setPc, Operand.bytes_length, ← hmode, hlast] at hbytes
  have hdecode := encoded_of_encode henc []
  rw [List.append_nil] at hdecode
  exact stepRunsDecoded s (s.latched opc) _ opc r _ [] i hrun hnmi (memRead_of_peek hplaced.head) hr
    (fun ⟨hstuck, hmem⟩ => hjam ⟨hstuck, jam_of_record hmem hr hmake⟩)
    (fun ⟨hstrict, hmem⟩ => hrefuse ⟨hstrict, unstable_of_record hmem hr hmake⟩) hbytes hdecode

/-- Settles O42: the halt has no operand bytes. -/
theorem haltCompletes : Obligations.HaltCompletes :=
  ⟨fun s => rfl, fun s t hrun hnmi hread =>
    stepRunsDecoded s t _ 0x00 _ [] [] .brk hrun hnmi hread rfl (fun h => absurd h.2 (by decide))
      (fun h => absurd h.2 (by decide)) rfl rfl⟩

/-! ## The policies that stop a step -/

/-- Settles O50: the poll and the fetch find the opcode; a run stops at the step's answer. -/
theorem stuckJam : Obligations.StuckJam := by
  intro s t opc hrun hnmi hstuck hread hmem
  have hsticks : sticks s.cfg opc = true := by
    simp only [sticks, hstuck, decide_true, Bool.true_and, List.contains_iff_mem]
    exact hmem
  have hstep : step s = .fault (.stuck s) := by rw [step_of_running hrun hnmi, fetchExecute_of_sticks hread hsticks]
  refine ⟨hstep, fun n => ?_⟩
  simp [runMachine, resume, runLoop, hrun, hstep]

/-- A step refuses an unstable opcode only, and only where the policy says so. -/
theorem step_refused {f : Refusal} (h : step s = .refused f) :
    s.cfg.unstablePolicy = .refuse ∧ ∃ u, f = .unstableOpcode u := by
  have hrun : s.run = .running := by
    cases hrun : s.run <;> simp only [step, hrun] at h <;> first | rfl | cases h
  cases hnmi : s.video.nmiPending with
  | true => rw [step_of_nmi hrun hnmi, takeInterrupt_eq] at h; cases h
  | false =>
    rw [step_of_running hrun hnmi] at h
    obtain ⟨f, hf⟩ | ⟨u, hu, hpolicy⟩ | ⟨i, u, hexec, hbus, -⟩ := fetchExecute_outcome s
    · rw [hf] at h; cases h
    · rw [hu] at h; cases h
      exact ⟨hpolicy, _, rfl⟩
    · rw [hexec] at h
      obtain ⟨hpolicy, opc, -, rfl⟩ := exec_refused h
      exact ⟨by rw [← hpolicy, hbus.cfg, State.setPc_cfg], _, rfl⟩

/-- Settles O51: no unstable opcode is a JAM, so that the refusal follows the fetch. -/
theorem refusedUnstable : Obligations.RefusedUnstable := by
  refine ⟨fun s t opc hrun hnmi hstrict hread hmem => ?_, fun s a opc hrun t h => ?_, fun s hdefined f h => ?_⟩
  · have hjam : ∀ opc ∈ unstableOpcodes, opc ∉ jamOpcodes := by decide
    have hrefuses : refuses s.cfg opc = true := by
      simp only [refuses, hstrict, decide_true, Bool.true_and, List.contains_iff_mem]
      exact hmem
    rw [step_of_running hrun hnmi,
      fetchExecute_of_refuses hread (sticks_eq_false.mpr fun h => hjam opc hmem h.2) hrefuses]
  · cases hrun.symm.trans (step_next h).1
  · cases hdefined.symm.trans (step_refused h).1

/-! ## The interrupt sequence -/

/-- 60_exceptions R295: RAM with the three bytes that the sequence pushes. -/
theorem interruptRam_eq (s : State) :
    interruptRam s = ((s.ram.write (cell s.sp) (hi s.pc)).write (cell (s.sp - 1)) (lo s.pc)).write (cell (s.sp - 2))
      ((s.p &&& 0xEF) ||| 0x20) := by rw [interruptRam, sub_one_sub_one]; rfl

/-- 60_exceptions R291: the bytes of the interrupt vector. -/
theorem rom_nmiVector (c : Cartridge) : rom c 0xFFFB = c.prgByte 0x7FFB ∧ rom c 0xFFFA = c.prgByte 0x7FFA :=
  ⟨rom_eq c _, rom_eq c _⟩

/-- Settles O7: the closed form of the sequence, after the poll. -/
theorem interruptTaken : Obligations.InterruptTaken := by
  intro s hrun hnmi
  refine ⟨_, (step_of_nmi hrun hnmi).trans (takeInterrupt_eq _), ?_⟩
  rw [(rom_nmiVector s.cart).1, (rom_nmiVector s.cart).2, interruptRam_eq, sub_one_sub_one_sub_one]
  simp [State.latched_latch, Video.poll, hrun, nmiCycles, dotsPerCycle] <;> rfl

/-! ## The return -/

theorem cell_inj {b c : Byte} : cell b = cell c ↔ b = c := by
  rw [← BitVec.toNat_inj, cell, cell]; omega

/-- 20_memory R74: a stack cell holds what was stored to it last. -/
theorem read_write_cell {m : Memory} (hwf : m.wf = true) (b c v : Byte) :
    (m.write (cell b) v).read (cell c) = if c = b then v else m.read (cell c) := by
  simp only [Memory.read_write hwf, cell_inj]

/-- A word is its two bytes. -/
theorem word_hi_lo (w : Word) : word (hi w) (lo w) = w := by
  apply BitVec.eq_of_toNat_eq
  rw [word_toNat, hi_toNat, lo_toNat]; omega

/-- Settles O8: RTI pulls the three bytes from the cells that the sequence pushed them to. -/
theorem interruptReturns : Obligations.InterruptReturns := by
  intro s t u hrun hnmi hwf hstep hsp hcells
  obtain ⟨t', hstep', hram, hsp', -⟩ := interruptTaken s hrun hnmi
  obtain rfl : t' = t := by rw [hstep] at hstep'; cases hstep'; rfl
  have hpulls : u.sp + 1 = s.sp - 2 ∧ u.sp + 2 = s.sp - 1 ∧ u.sp + 3 = s.sp := by rw [hsp, hsp']; bv_omega
  have h01 : s.sp ≠ s.sp - 1 := by bv_omega
  have h02 : s.sp ≠ s.sp - 2 := by bv_omega
  have h12 : s.sp - 1 ≠ s.sp - 2 := by bv_omega
  have hwf1 := Memory.wf_write hwf (cell s.sp) (hi s.pc)
  have hwf2 := Memory.wf_write hwf1 (cell (s.sp - 1)) (lo s.pc)
  have hhigh : u.ram.read (cell s.sp) = hi s.pc := by
    rw [hcells _ (by simp), hram, read_write_cell hwf2, read_write_cell hwf1, read_write_cell hwf, if_neg h02, if_neg h01,
      if_pos rfl]
  have hlow : u.ram.read (cell (s.sp - 1)) = lo s.pc := by
    rw [hcells _ (by simp), hram, read_write_cell hwf2, read_write_cell hwf1, if_neg h12, if_pos rfl]
  have hp : u.ram.read (cell (s.sp - 2)) = (s.p &&& 0xEF) ||| 0x20 := by
    rw [hcells _ (by simp), hram, read_write_cell hwf2, if_pos rfl]
  refine ⟨_, (subroutinesComplete u).2.2, ?_⟩
  rw [hpulls.1, hpulls.2.1, hpulls.2.2, hhigh, hlow, hp, word_hi_lo]
  have hbits (p : Byte) : (((p &&& 0xEF) ||| 0x20) &&& 0xEF) ||| 0x20 = (p &&& 0xEF) ||| 0x20 := by revert p; decide
  exact ⟨by simp, by simp, by simpa using hbits s.p⟩

end Sys2Proof.Claims
end

section
/-! PROOFS. The family other, faults (60_exceptions R280 to R284): each fault is that of one failing access, recorded where it
failed. -/

namespace Sys2Proof.Claims

open Sys2Proof.Machine

variable {s t u v : State} {i : Instr} {o : Operand} {r : Resolved} {m b : Byte} {info : AddressFault}

/-! ## A fault of an instruction -/

/-- What a rule that is ended by a failing access keeps. -/
theorem uncharged_of_stopped {fp : Footprint} {wf : Bool} {k : FaultKind} (h : Stopped fp wf s k u) : Uncharged s u :=
  ⟨h.a, h.x, h.y, h.ram, h.cart, h.cycles, h.scanline, h.dot, h.frames⟩

/-- What accesses that write no RAM keep. -/
theorem uncharged_of_step (h : BusStep s u) (hram : u.ram = s.ram) : Uncharged s u :=
  ⟨h.a, h.x, h.y, hram, h.cart, h.cycles, h.scanline, h.dot, h.frames⟩

theorem Uncharged.trans (h : Uncharged s t) (g : Uncharged t u) : Uncharged s u := by
  obtain ⟨ha, hx, hy, hram, hcart, hcycles, hline, hdot, hframes⟩ := h
  obtain ⟨ga, gx, gy, gram, gcart, gcycles, gline, gdot, gframes⟩ := g
  exact ⟨ga.trans ha, gx.trans hx, gy.trans hy, gram.trans hram, gcart.trans hcart, gcycles.trans hcycles, gline.trans hline,
    gdot.trans hdot, gframes.trans hframes⟩

/-- A fault of a well-formed instruction is JAM's, or that of an access that ended its rule. -/
theorem exec_fault_of_wf {f : Fault} (hwf : i.wf = true) (h : exec i s = .fault f) :
    (s.cfg.jamPolicy = .stuck ∧ f = .stuck s ∧ ∃ k, i = .jam k) ∨
    ∃ opc info u, opcodeOf i = some opc ∧
      f = .invalidAddress info (faulted (.invalidAddress info) (s.pc - 1) (some opc) u) ∧
      Stopped (footprint i) true s (.invalidAddress info) u := by
  rcases exec_fault h with ⟨k, hk, hpolicy, hf⟩ | ⟨hnot, -⟩ | h
  · exact .inl ⟨hpolicy, hf, k, hk⟩
  · cases hwf.symm.trans hnot
  · exact .inr h

/-- The rule of an instruction that is ended by a failing access. -/
theorem faultsIn_of_fail {rule : State → Access Done} (hwf : i.wf = true) (hrule : exec i s = perform i rule s)
    (h : rule s = .fail (.invalidAddress info) u) : FaultsIn i s info u := by
  obtain ⟨opc, row, hrow, -⟩ := rowOf_wf hwf
  refine ⟨_, hrule.trans (perform_fails hrow h), ?_, rfl⟩
  rw [(rowOf_some hrow).1]
  rfl

/-! ## The failing accesses of each shape -/

theorem exec_reads (s : State) (hi : Reads i o) : ∃ update, exec i s = perform i (readThen o update) s := by
  rcases hi with hi | ⟨w, rfl, rfl⟩ | ⟨w, rfl, rfl⟩ | ⟨k, w, rfl, rfl⟩
  · simp only [List.mem_cons, List.not_mem_nil, or_false] at hi
    rcases hi with rfl | rfl | rfl | rfl | rfl | rfl | rfl | rfl | rfl | rfl | rfl | rfl | rfl <;> exact ⟨_, rfl⟩
  all_goals exact ⟨_, rfl⟩

theorem exec_modifies (hi : Modifies i o) (h : resolve o s = .ok r t) :
    ∃ result before after, exec i s = perform i (modifyThen o result before after) s := by
  rcases hi with hi | ⟨k, rfl⟩
  · simp only [List.mem_cons, List.not_mem_nil, or_false] at hi
    rcases hi with rfl | rfl | rfl | rfl | rfl | rfl | rfl | rfl <;> exact ⟨_, _, _, rfl⟩
  · exact ⟨_, _, _, exec_shiftInstr_of_resolve k h⟩

/-- The byte a store stores is made of registers, which resolving the operand keeps. -/
theorem exec_stored (hi : (i, b) ∈ stored o s) (h : resolve o s = .ok r t) :
    ∃ value, exec i s = perform i (storeThen o value) s ∧ value t = b := by
  have hstep := (resolve_ok h).2.1
  simp only [stored, List.mem_cons, Prod.mk.injEq, List.not_mem_nil, or_false] at hi
  obtain ⟨rfl, rfl⟩ | ⟨rfl, rfl⟩ | ⟨rfl, rfl⟩ | ⟨rfl, rfl⟩ := hi
  · exact ⟨_, rfl, hstep.a⟩
  · exact ⟨_, rfl, hstep.x⟩
  · exact ⟨_, rfl, hstep.y⟩
  · exact ⟨_, rfl, congrArg₂ (· &&& ·) hstep.a hstep.x⟩

/-- The byte a read-modify-write writes back; it has written no flag by then. -/
theorem exec_rewritten (hi : (i, b) ∈ rewritten o (getFlag s.p .c) m) (hp : u.p = s.p) :
    ∃ result after, exec i s = perform i (modifyThen o result (fun _ w => w) after) s ∧ result m u = b := by
  have hshift (k : ShiftKind) : shifted k m u = shiftValue k (getFlag s.p .c) m := by rw [shifted, hp, shiftResult_eq]
  simp only [rewritten, List.mem_cons, Prod.mk.injEq, List.not_mem_nil, or_false] at hi
  obtain ⟨rfl, rfl⟩ | ⟨rfl, rfl⟩ | ⟨rfl, rfl⟩ | ⟨rfl, rfl⟩ | ⟨rfl, rfl⟩ | ⟨rfl, rfl⟩ | ⟨rfl, rfl⟩ | ⟨rfl, rfl⟩ := hi
  · exact ⟨_, _, rfl, rfl⟩
  · exact ⟨_, _, rfl, rfl⟩
  · exact ⟨_, _, rfl, hshift .asl⟩
  · exact ⟨_, _, rfl, hshift .rol⟩
  · exact ⟨_, _, rfl, hshift .lsr⟩
  · exact ⟨_, _, rfl, hshift .ror⟩
  · exact ⟨_, _, rfl, rfl⟩
  · exact ⟨_, _, rfl, rfl⟩

/-- A shift has written C when its store fails. -/
theorem shift_faultsIn (k : ShiftKind) (hwf : (shiftInstr k o).wf = true) (h : resolve o s = .ok r t)
    (hread : memRead r.ea t = .ok m u)
    (hw : memWrite r.ea (shiftValue k (getFlag s.p .c) m) u = .fail (.invalidAddress info) v) :
    FaultsIn (shiftInstr k o) s info (v.setP (shiftFlags k s.p m)) := by
  have hp : u.p = s.p := (modify_step h hread).p
  have hw' : memWrite r.ea (shiftResult k (getFlag u.p .c) m) (u.setP (shiftFlags k u.p m)) =
      .fail (.invalidAddress info) (v.setP (shiftFlags k s.p m)) := by
    rw [memWrite_setP, shiftResult_eq, hp, hw]; rfl
  exact faultsIn_of_fail hwf (exec_shiftInstr_of_resolve k h) (modifyThen_fail_write h hread hw')

theorem highStore_faultsIn {value : State → Byte} (hwf : i.wf = true) (hrule : exec i s = perform i (highStore o value) s)
    (h : resolve o s = .ok r t) (hvalue : value t = b)
    (hw : memWrite (highStoreAddress r b) (highStoreValue r b) t = .fail (.invalidAddress info) u) : FaultsIn i s info u :=
  faultsIn_of_fail hwf hrule (highStore_fail h (by rw [hvalue]; exact hw))

/-! ## A fault of a step -/

/-- 60_exceptions R284: the interrupt sequence does not fault; a fetch does in its reads, JAM by its policy, `exec` in its
accesses. -/
theorem step_fault {f : Fault} (hrun : s.run = .running) (h : step s = .fault f) :
    (s.cfg.jamPolicy = .stuck ∧ f = .stuck s) ∨
    ∃ info opc t, f = .invalidAddress info t ∧ Records info s.pc opc t ∧
      t.pc = (if opc = none then s.pc else s.pc + 1) ∧ Uncharged s t := by
  cases hnmi : s.video.nmiPending with
  | true => rw [step_of_nmi hrun hnmi, takeInterrupt_eq] at h; cases h
  | false =>
    rw [step_of_running hrun hnmi] at h
    obtain ⟨info, opc, u, hraise, w, hstep, hram, hu⟩ | ⟨hstuck, hpolicy⟩ | ⟨opc, u, hrefuse, -⟩ |
      ⟨i, u, hexec, hwf, hstep, hram, hjam⟩ := fetchExecute_cases s
    · rw [hraise] at h; cases h
      refine .inr ⟨info, opc, _, rfl, rfl, ?_, ?_⟩
      · obtain ⟨rfl, rfl⟩ | ⟨hopc, rfl⟩ := hu
        · exact hstep.pc
        · rw [if_neg hopc]; rfl
      · have hkept : Uncharged s w := uncharged_of_step hstep hram
        obtain ⟨-, rfl⟩ | ⟨-, rfl⟩ := hu <;> exact hkept
    · rw [hstuck] at h; cases h
      exact .inl ⟨hpolicy, rfl⟩
    · rw [hrefuse] at h; cases h
    · rw [hexec] at h
      obtain ⟨hpolicy, -, hk⟩ | ⟨opc, info, w, -, rfl, hstopped⟩ := exec_fault_of_wf hwf h
      · obtain ⟨k, hk⟩ := hk
        exact absurd hk (hjam (hstep.cfg ▸ hpolicy) k)
      · have hpc : u.pc = s.pc + 1 := hstep.pc
        refine .inr ⟨info, some opc, _, rfl, ?_, hstopped.pc.trans hpc, ?_⟩
        · rw [hpc, BitVec.add_sub_cancel]; rfl
        · have hkept : Uncharged s w := (uncharged_of_step hstep hram).trans (uncharged_of_stopped hstopped)
          exact hkept

/-- Settles O52: each clause is the failing access of one shape of rule, or of the fetch. -/
theorem preciseFaults : Obligations.PreciseFaults := by
  refine ⟨?_, ?_, ?_, ?_, ?_, ?_, ?_, ?_, ?_, ?_, ?_, fun s f hrun h => step_fault hrun h⟩
  · intro i s f hwf h
    obtain h | ⟨opc, info, u, hopc, rfl, hstopped⟩ := exec_fault_of_wf hwf h
    · exact .inl h
    · have hkept : Uncharged s u := uncharged_of_stopped hstopped
      exact .inr ⟨info, opc, _, rfl, hopc, rfl, hstopped.pc, hkept, hstopped.sp, hstopped.flags⟩
  · intro i o s u info hwf hi h
    obtain ⟨update, hrule⟩ := exec_reads s hi
    exact faultsIn_of_fail hwf hrule (readThen_fail h)
  · intro i o b s t u r info hwf hi h hw
    obtain ⟨value, hrule, rfl⟩ := exec_stored hi h
    exact faultsIn_of_fail hwf hrule (storeThen_fail h hw)
  · intro i o s t u r info hwf hi h hread
    obtain ⟨result, before, after, hrule⟩ := exec_modifies hi h
    exact faultsIn_of_fail hwf hrule (modifyThen_fail_read h hread)
  · intro i o m b s t u v r info hwf hi h hread hw
    obtain ⟨result, after, hrule, rfl⟩ := exec_rewritten hi (modify_step h hread).p
    exact faultsIn_of_fail hwf hrule (modifyThen_fail_write h hread hw)
  · intro k o m s t u v r info hwf h hread hw
    exact ⟨_, writes_shiftFlags k s.p m, shift_faultsIn k hwf h hread hw⟩
  · intro o s t u r info hdefined h value fails
    have hstep := (resolve_ok h).2.1
    refine ⟨fun hwf hw => ?_, ?_, ?_, ?_⟩
    · exact highStore_faultsIn (i := .sha o) (value := fun t => t.a &&& t.x) hwf (exec_unstable hdefined rfl) h
        (congrArg₂ (· &&& ·) hstep.a hstep.x) hw
    · rintro w rfl hw
      cases h
      exact faultsIn_of_fail (i := .tas w) rfl (exec_unstable hdefined rfl) (highStore_fail rfl hw)
    · rintro w rfl hw
      exact highStore_faultsIn (i := .shy w) rfl (exec_unstable hdefined rfl) h hstep.y hw
    · rintro w rfl hw
      exact highStore_faultsIn (i := .shx w) rfl (exec_unstable hdefined rfl) h hstep.x hw
  · intro ptr s u info hread
    exact faultsIn_of_fail (i := .jmpIndirect ptr) rfl rfl (by simp [jumpIndirect, hread, Access.bind])
  · intro ptr l s t u info hread hread'
    rw [← samePageNext_eq] at hread'
    exact faultsIn_of_fail (i := .jmpIndirect ptr) rfl rfl (by simp [jumpIndirect, hread, hread', Access.bind])
  · intro s t k hrun hnmi hread
    obtain ⟨⟨info, rfl⟩, rfl⟩ := memRead_fail hread
    refine ⟨info, faulted (.invalidAddress info) t.pc none t, rfl, ?_, rfl, rfl⟩
    rw [step_of_running hrun hnmi, fetchExecute, hread]
    rfl
  · intro s t u opc row k hrun hnmi hread hrow hjam hrefuse hreads
    obtain ⟨⟨info, rfl⟩, hstep, hram⟩ := readBytes_fail hreads
    have hstep' := memRead_step hread
    refine ⟨info, faulted (.invalidAddress info) s.pc (some opc) u, rfl, ?_, rfl, rfl, hstep.pc, hstep.sp.trans hstep'.sp,
      hstep.p.trans hstep'.p, ?_⟩
    · rw [step_of_read hrun hnmi hread hrow hjam hrefuse, executeFetched, State.setPc_pc, hreads, BitVec.add_sub_cancel]
      rfl
    · have hfetch : Uncharged s (t.setPc (s.pc + 1)) := uncharged_of_step (u := t) hstep' (memRead_ramEq hread)
      exact hfetch.trans (uncharged_of_step (u := u) hstep hram)

/-! ## The outcomes of a step -/

/-- The interrupt sequence keeps the cartridge and the parameters; so do the accesses of a fetch and of a rule. -/
theorem step_next_kept (h : step s = .next t) : t.cart = s.cart ∧ t.cfg = s.cfg := by
  obtain ⟨-, ⟨-, hint⟩ | ⟨-, i, u, hexec, -, hstep⟩⟩ := step_next h
  · rw [takeInterrupt_eq] at hint; cases hint
    simp
  · rcases exec_next hexec with ⟨-, rfl⟩ | ⟨opc, row, d, w, -, rfl, hran⟩
    · exact ⟨hstep.cart, hstep.cfg⟩
    · exact ⟨hran.cart.trans hstep.cart, hran.cfg.trans hstep.cfg⟩

/-- 10_state R43. -/
theorem step_of_not_running (h : s.run ≠ .running) : step s = .fault (.notRunning s.run) := by
  cases hrun : s.run
  case running => exact absurd hrun h
  all_goals simp [step, hrun]

theorem step_fault_kind {f : Fault} (h : step s = .fault f) :
    (∃ t, f = .stuck t) ∨ (∃ info t, f = .invalidAddress info t) ∨ ∃ r, f = .notRunning r := by
  by_cases hrun : s.run = .running
  · obtain ⟨-, rfl⟩ | ⟨info, opc, t, rfl, -⟩ := step_fault hrun h
    · exact .inl ⟨s, rfl⟩
    · exact .inr (.inl ⟨info, t, rfl⟩)
  · rw [step_of_not_running hrun] at h; cases h
    exact .inr (.inr ⟨s.run, rfl⟩)

/-- Settles O53: the faults of a step are those of `step_fault_kind`, its refusals those of `step_refused`. -/
theorem stepOutcomes : Obligations.StepOutcomes :=
  ⟨fun _ _ => ⟨fun h => by simpa using step_fault_kind h, fun h => by simpa using step_fault_kind h⟩,
    fun _ _ h => (step_refused h).2, fun _ _ h => step_next_kept h⟩

end Sys2Proof.Claims
end

section
/-! PROOFS. The family other, frames: what no instruction changes but where its footprint and its stores say so, by the reach
of its rule (`Ran`). -/

namespace Sys2Proof.Claims

open Sys2Proof.Machine

variable {s t u : State} {i : Instr}

/-- Settles O57: a rule stays within the footprint, and its end changes PC, CYCLES and the video unit alone. -/
theorem registerFrame : Obligations.RegisterFrame := by
  intro i s t h
  obtain ⟨rfl, rfl⟩ | ⟨opc, row, d, u, -, rfl, hran⟩ := exec_next h
  · exact ⟨fun _ => rfl, fun _ => rfl, fun _ => rfl, fun _ => rfl, fun _ _ => rfl, rfl, rfl, fun h => absurd rfl h⟩
  · exact ⟨hran.a, hran.x, hran.y, hran.sp, hran.flags, hran.cart, hran.cfg, fun _ => hran.run⟩

/-! ## Memory -/

/-- A peek is a read of a RAM cell or of program ROM. -/
theorem peek_congr {a : Word} (hcart : t.cart = s.cart)
    (hram : ∀ j, regionOf a = .ram j → t.ram.read j = s.ram.read j) : peek t a = peek s a := by
  unfold peek
  rw [hcart]
  split_ifs with hlow
  · rw [hram _ (regionOf_ram (by omega))]
  · rfl
  · rfl

/-- Settles O58: data moves only from the loads and to the stores of a rule; then the cycles pass. -/
theorem memoryFrame : Obligations.MemoryFrame := by
  intro i s t h
  obtain ⟨rfl, rfl⟩ | ⟨opc, row, d, u, -, rfl, hran⟩ := exec_next h
  · exact ⟨fun _ _ => rfl, fun _ => by simp [Video.tick], fun _ => ⟨rfl, rfl, rfl⟩, fun _ => rfl⟩
  · obtain ⟨hram, hvideo, hmemory, hlatch⟩ := hran.touches
    refine ⟨fun a ha => peek_congr hran.cart fun j hj => ?_, fun hports => ?_, fun hports => ?_, hlatch⟩
    · exact hram j fun b hb => hj ▸ ha b hb
    · have hcharged : (finish row s.pc d u).cycles - s.cycles = cost row d := by simp [finish, hran.cycles]
      rw [hcharged, ← hvideo hports]; rfl
    · simpa [finish] using hmemory hports

/-! ## Cost and advance -/

/-- 30_encoding R121: a record with the penalty costs at most 7 cycles without it. -/
theorem cycles_of_penalty {opc : Byte} {r : Row} (hr : recordOf opc = some r) (h : r.penalty = true) : r.cycles ≤ 7 := by
  have hall : ∀ opc ∈ penaltyOpcodes, ∀ r ∈ recordOf opc, r.cycles ≤ 7 := by decide
  rw [recordOf_penalty hr, List.contains_iff_mem] at h
  exact hall opc h r hr

/-- 43_control_stack_flags R211: an instruction that may transfer control costs at most 6 cycles before its rule adds any. -/
theorem cycles_of_transfers {opc : Byte} {r : Row} (hrow : rowOf i = some (opc, r)) (h : (footprint i).transfers = true) :
    r.cycles ≤ 6 := by
  cases i <;> first | exact absurd h Bool.false_ne_true | (cases hrow; decide)

/-- 70_reset_and_hazards R362: the bounds of the charge. -/
theorem cost_bounds {opc : Byte} {r : Row} {rd wr : List Word} {d : Done} (hrow : rowOf i = some (opc, r))
    (hran : Ran (footprint i) rd wr s d u) : 2 ≤ cost r d ∧ cost r d ≤ 8 := by
  obtain ⟨-, hr, -, hlow, hhigh⟩ := rowOf_some hrow
  unfold cost
  cases htransferred : d.transferred with
  | true =>
    obtain ⟨htransfers, hcross, hextra⟩ := hran.transfers htransferred
    have hcycles := cycles_of_transfers hrow htransfers
    simp only [hcross, Bool.false_and, Bool.false_eq_true, if_false]
    omega
  | false =>
    obtain ⟨-, hextra⟩ := hran.stays htransferred
    split_ifs with hpenalty
    · have hcycles := cycles_of_penalty hr (Bool.and_eq_true_iff.mp hpenalty).2
      omega
    · omega

/-- 30_encoding R124: PC passes the operand bytes where the rule did not set it. -/
theorem pcAfter_of_stays {opc : Byte} {r : Row} {d : Done} (hrow : rowOf i = some (opc, r))
    (htransferred : d.transferred = false) (hpc : u.pc = s.pc) :
    pcAfter r s.pc d u = s.pc + BitVec.ofNat 16 i.operand.mode.operandBytes := by
  have hskips : skipsAdvance s.pc d u = false := by unfold skipsAdvance; split <;> simp [htransferred, hpc]
  obtain ⟨-, -, hmode, -⟩ := rowOf_some hrow
  rw [pcAfter, hskips, hpc, hmode]
  rfl

/-- Settles O59: the charge is that of `cost_bounds`; a rule that sets PC has the footprint of a transfer. -/
theorem costAndAdvance : Obligations.CostAndAdvance := by
  intro i s t h
  by_cases hbrk : i = .brk
  · subst hbrk; cases h
    exact .inl ⟨rfl, rfl, rfl⟩
  · obtain ⟨rfl, -⟩ | ⟨opc, row, d, u, hrow, rfl, hran⟩ := exec_next h
    · exact absurd rfl hbrk
    · obtain ⟨hlow, hhigh⟩ := cost_bounds hrow hran
      have hcycles : (finish row s.pc d u).cycles = s.cycles + cost row d := congrArg (· + cost row d) hran.cycles
      refine .inr ⟨hbrk, by omega, by omega, fun hstays => ?_⟩
      have htransferred : d.transferred = false := by
        cases htransferred : d.transferred with
        | true => cases hstays.symm.trans (hran.transfers htransferred).1
        | false => rfl
      exact pcAfter_of_stays hrow htransferred (hran.stays htransferred).1

end Sys2Proof.Claims
end

section
/-! PROOFS. The family other, inert flags (10_state R29 to R32): every instruction but PHP is blind to the flags that no rule
reads. -/

namespace Sys2Proof.Claims

open Sys2Proof.Machine

variable {s t u : State} {i : Instr} {f : Flag}

/-! ## Instructions -/

/-- An instruction that completes alike from states that differ in the flag `f` alone. -/
def ExecBlind (f : Flag) (i : Instr) : Prop :=
  ∀ (s t : State) (p : Byte), Agree f s.p p → exec i s = .next t →
    ∃ q, exec i (s.setP p) = .next (t.setP q) ∧ Agree f t.p q

theorem ExecBlind.of_rule {rule : State → Access Done} (hrule : ∀ s, exec i s = perform i rule s) (h : Blind f rule) :
    ExecBlind f i := fun s t p hagree hnext => by
  rw [hrule] at hnext ⊢
  exact perform_blind h hagree hnext

theorem ExecBlind.of_unstable {rule : State → Access Done} (hrule : ∀ s, exec i s = performUnstable i rule s)
    (h : Blind f rule) : ExecBlind f i := fun s t p hagree hnext => by
  rw [hrule] at hnext ⊢
  cases hpolicy : s.cfg.unstablePolicy with
  | defined =>
    rw [performUnstable_defined hpolicy] at hnext
    rw [performUnstable_defined (s := s.setP p) hpolicy]
    exact perform_blind h hagree hnext
  | refuse =>
    cases hrow : rowOf i with
    | none => simp [performUnstable, perform, hrow, raise] at hnext
    | some c => simp [performUnstable, hrow, hpolicy, refuseUnstable] at hnext

/-! ## Rules -/

/-- A branch where another flag is set. -/
theorem branchSet_blind {g : Flag} (disp : Byte) (hg : f ≠ g) : Blind f fun t => branch (getFlag t.p g) disp t :=
  fun s p d t hagree hdone => by
    simp only [State.setP_p, hagree g hg.symm]
    exact branch_blind _ disp s p d t hagree hdone

/-- A branch where another flag is clear. -/
theorem branchClear_blind {g : Flag} (disp : Byte) (hg : f ≠ g) : Blind f fun t => branch (!getFlag t.p g) disp t :=
  fun s p d t hagree hdone => by
    simp only [State.setP_p, hagree g hg.symm]
    exact branch_blind _ disp s p d t hagree hdone

theorem jump_blind (w : Word) : Blind f fun t => .ok { transferred := true } (t.setPc w) := fun _ p _ _ hagree hdone => by
  cases hdone
  exact ⟨p, rfl, hagree⟩

/-- 43_control_stack_flags R233: PLP replaces P whole. -/
theorem pulled_blind (v : Byte) : BlindTo f fun t => t.setP (pulledStatus v) := fun _ _ _ =>
  ⟨pulledStatus v, rfl, fun _ _ => rfl⟩

/-- 44_undocumented R241 to R243: a shift of memory, then a logic operation of A with its result. -/
theorem combineShift_blind {o : Operand} (hc : f ≠ .c) (k : ShiftKind) (g : Byte → Byte → Byte) :
    Blind f (modifyCombine o (shifted k) fun m r t => (t.shiftC k m).loadA (g t.a r)) :=
  combine_blind (shifted_blind hc k) fun m r => (shiftC_blind k m).comp (loadA_blind (g := fun t => g t.a r) fun _ _ => rfl)

/-- 44_undocumented R248: LAX puts one byte into X and A. -/
theorem lax_blind (m : Byte) : BlindTo f fun t => (t.setX m).loadA m :=
  (setX_blind (g := fun _ => m) fun _ _ => rfl).comp (loadA_blind (g := fun _ => m) fun _ _ => rfl)

/-- 44_undocumented R261: LAS puts one byte into X, SP and A. -/
theorem las_blind (m : Byte) :
    BlindTo f fun t => ((t.setX (m &&& t.sp)).setSp (m &&& t.sp)).loadA (m &&& t.sp) :=
  ((setX_blind (g := fun t => m &&& t.sp) fun _ _ => rfl).comp (setSp_blind (g := fun t => m &&& t.sp) fun _ _ => rfl)).comp
    (loadA_blind (g := fun t => t.sp) fun _ _ => rfl)

/-- 44_undocumented R258: TAS is a high-byte store after SP has been set. -/
theorem tas_blind (w : Word) : Blind f fun t => highStore (.absoluteY w) State.sp (t.setSp (t.a &&& t.x)) :=
  fun s p d t hagree hdone => highStore_blind (fun _ _ => rfl) (s.setSp (s.a &&& s.x)) p d t hagree hdone

theorem brk_blind : ExecBlind f .brk := fun _ _ p hagree hnext => by
  cases hnext
  exact ⟨p, rfl, hagree⟩

theorem jam_blind (k : Fin 12) : ExecBlind f (.jam k) := fun s t p hagree hnext => by
  have hrule {s : State} (hpolicy : s.cfg.jamPolicy = .nop) :
      exec (.jam k) s = perform (.jam k) (registerOnly fun t => t) s := by
    simp [exec, execJam, hpolicy]
  cases hpolicy : s.cfg.jamPolicy with
  | nop =>
    rw [hrule hpolicy] at hnext
    rw [hrule (s := s.setP p) hpolicy]
    exact perform_blind (registerOnly_blind blind_id) hagree hnext
  | stuck => simp [exec, execJam, hpolicy] at hnext

/-! ## Every instruction -/

theorem exec_blind (hc : f ≠ .c) (hz : f ≠ .z) (hn : f ≠ .n) (hv : f ≠ .v) (hphp : i ≠ .php) : ExecBlind f i := by
  cases i with
  | lda o => exact .of_rule (fun _ => rfl) (readThen_blind fun m => loadA_blind fun _ _ => rfl)
  | ldx o => exact .of_rule (fun _ => rfl) (readThen_blind fun m => loadX_blind fun _ _ => rfl)
  | ldy o => exact .of_rule (fun _ => rfl) (readThen_blind fun m => loadY_blind fun _ _ => rfl)
  | sta o => exact .of_rule (fun _ => rfl) (storeThen_blind fun _ _ => rfl)
  | stx o => exact .of_rule (fun _ => rfl) (storeThen_blind fun _ _ => rfl)
  | sty o => exact .of_rule (fun _ => rfl) (storeThen_blind fun _ _ => rfl)
  | tax => exact .of_rule (fun _ => rfl) (registerOnly_blind (loadX_blind fun _ _ => rfl))
  | tay => exact .of_rule (fun _ => rfl) (registerOnly_blind (loadY_blind fun _ _ => rfl))
  | txa => exact .of_rule (fun _ => rfl) (registerOnly_blind (loadA_blind fun _ _ => rfl))
  | tya => exact .of_rule (fun _ => rfl) (registerOnly_blind (loadA_blind fun _ _ => rfl))
  | tsx => exact .of_rule (fun _ => rfl) (registerOnly_blind (loadX_blind fun _ _ => rfl))
  | txs => exact .of_rule (fun _ => rfl) (registerOnly_blind (setSp_blind fun _ _ => rfl))
  | adc o => exact .of_rule (fun _ => rfl) (readThen_blind fun m => addCore_blind hc m)
  | sbc o => exact .of_rule (fun _ => rfl) (readThen_blind fun m => addCore_blind hc _)
  | and o => exact .of_rule (fun _ => rfl) (readThen_blind fun m => loadA_blind fun _ _ => rfl)
  | ora o => exact .of_rule (fun _ => rfl) (readThen_blind fun m => loadA_blind fun _ _ => rfl)
  | eor o => exact .of_rule (fun _ => rfl) (readThen_blind fun m => loadA_blind fun _ _ => rfl)
  | cmp o => exact .of_rule (fun _ => rfl) (readThen_blind fun m => compare_blind m fun _ _ => rfl)
  | cpx o => exact .of_rule (fun _ => rfl) (readThen_blind fun m => compare_blind m fun _ _ => rfl)
  | cpy o => exact .of_rule (fun _ => rfl) (readThen_blind fun m => compare_blind m fun _ _ => rfl)
  | bit o => exact .of_rule (fun _ => rfl) (readThen_blind fun m => bit_blind m)
  | inc o => exact .of_rule (fun _ => rfl) (combine_blind (fun _ _ _ _ => rfl) fun _ r => nz_blind r)
  | dec o => exact .of_rule (fun _ => rfl) (combine_blind (fun _ _ _ _ => rfl) fun _ r => nz_blind r)
  | inx => exact .of_rule (fun _ => rfl) (registerOnly_blind (loadX_blind fun _ _ => rfl))
  | iny => exact .of_rule (fun _ => rfl) (registerOnly_blind (loadY_blind fun _ _ => rfl))
  | dex => exact .of_rule (fun _ => rfl) (registerOnly_blind (loadX_blind fun _ _ => rfl))
  | dey => exact .of_rule (fun _ => rfl) (registerOnly_blind (loadY_blind fun _ _ => rfl))
  | asl o => exact .of_rule (fun _ => rfl) (shiftOperand_blind hc .asl o)
  | lsr o => exact .of_rule (fun _ => rfl) (shiftOperand_blind hc .lsr o)
  | rol o => exact .of_rule (fun _ => rfl) (shiftOperand_blind hc .rol o)
  | ror o => exact .of_rule (fun _ => rfl) (shiftOperand_blind hc .ror o)
  | bpl disp => exact .of_rule (fun _ => rfl) (branchClear_blind disp hn)
  | bmi disp => exact .of_rule (fun _ => rfl) (branchSet_blind disp hn)
  | bvc disp => exact .of_rule (fun _ => rfl) (branchClear_blind disp hv)
  | bvs disp => exact .of_rule (fun _ => rfl) (branchSet_blind disp hv)
  | bcc disp => exact .of_rule (fun _ => rfl) (branchClear_blind disp hc)
  | bcs disp => exact .of_rule (fun _ => rfl) (branchSet_blind disp hc)
  | bne disp => exact .of_rule (fun _ => rfl) (branchClear_blind disp hz)
  | beq disp => exact .of_rule (fun _ => rfl) (branchSet_blind disp hz)
  | jmpAbsolute w => exact .of_rule (fun _ => rfl) (jump_blind w)
  | jmpIndirect ptr => exact .of_rule (fun _ => rfl) (jumpIndirect_blind ptr)
  | jsr w => exact .of_rule (fun _ => rfl) (jsr_blind w)
  | rts => exact .of_rule (fun _ => rfl) rts_blind
  | rti => exact .of_rule (fun _ => rfl) rti_blind
  | brk => exact brk_blind
  | clc => exact .of_rule (fun _ => rfl) (registerOnly_blind (writeFlag_blind fun _ _ => rfl))
  | sec => exact .of_rule (fun _ => rfl) (registerOnly_blind (writeFlag_blind fun _ _ => rfl))
  | cli => exact .of_rule (fun _ => rfl) (registerOnly_blind (writeFlag_blind fun _ _ => rfl))
  | sei => exact .of_rule (fun _ => rfl) (registerOnly_blind (writeFlag_blind fun _ _ => rfl))
  | cld => exact .of_rule (fun _ => rfl) (registerOnly_blind (writeFlag_blind fun _ _ => rfl))
  | sed => exact .of_rule (fun _ => rfl) (registerOnly_blind (writeFlag_blind fun _ _ => rfl))
  | clv => exact .of_rule (fun _ => rfl) (registerOnly_blind (writeFlag_blind fun _ _ => rfl))
  | pha => exact .of_rule (fun _ => rfl) (pushThen_blind fun _ _ => rfl)
  | php => exact absurd rfl hphp
  | pla => exact .of_rule (fun _ => rfl) (popThen_blind fun v => loadA_blind fun _ _ => rfl)
  | plp => exact .of_rule (fun _ => rfl) (popThen_blind pulled_blind)
  | nop => exact .of_rule (fun _ => rfl) (registerOnly_blind blind_id)
  | slo o => exact .of_rule (fun _ => rfl) (combineShift_blind hc .asl (· ||| ·))
  | rla o => exact .of_rule (fun _ => rfl) (combineShift_blind hc .rol (· &&& ·))
  | sre o => exact .of_rule (fun _ => rfl) (combineShift_blind hc .lsr (· ^^^ ·))
  | rra o =>
    exact .of_rule (fun _ => rfl)
      (combine_blind (shifted_blind hc .ror) fun m r => (shiftC_blind .ror m).comp (addCore_blind hc r))
  | dcp o => exact .of_rule (fun _ => rfl) (combine_blind (fun _ _ _ _ => rfl) fun _ r => compare_blind r fun _ _ => rfl)
  | isc o => exact .of_rule (fun _ => rfl) (combine_blind (fun _ _ _ _ => rfl) fun _ r => addCore_blind hc _)
  | sax o => exact .of_rule (fun _ => rfl) (storeThen_blind fun _ _ => rfl)
  | lax o => exact .of_rule (fun _ => rfl) (readThen_blind lax_blind)
  | anc k b => exact .of_rule (fun _ => rfl) (readThen_blind (o := .immediate b) fun m => anc_blind m)
  | alr b => exact .of_rule (fun _ => rfl) (readThen_blind (o := .immediate b) fun m => alr_blind m)
  | arr b => exact .of_rule (fun _ => rfl) (readThen_blind (o := .immediate b) fun m => arr_blind hc m)
  | ane b => exact .of_unstable (fun _ => rfl) (readThen_blind fun m => ane_blind m)
  | lxa b => exact .of_unstable (fun _ => rfl) (readThen_blind fun m => lxa_blind m)
  | sbx b => exact .of_rule (fun _ => rfl) (readThen_blind (o := .immediate b) fun m => sbx_blind m)
  | usbc b => exact .of_rule (fun _ => rfl) (readThen_blind (o := .immediate b) fun m => addCore_blind hc _)
  | sha o => exact .of_unstable (fun _ => rfl) (highStore_blind fun _ _ => rfl)
  | tas w => exact .of_unstable (fun _ => rfl) (tas_blind w)
  | shy w => exact .of_unstable (fun _ => rfl) (highStore_blind fun _ _ => rfl)
  | shx w => exact .of_unstable (fun _ => rfl) (highStore_blind fun _ _ => rfl)
  | las w => exact .of_rule (fun _ => rfl) (readThen_blind las_blind)
  | nopImplied k => exact .of_rule (fun _ => rfl) (registerOnly_blind blind_id)
  | nopImmediate k b => exact .of_rule (fun _ => rfl) (readThen_blind (o := .immediate b) fun _ => blind_id)
  | nopZeroPage k b => exact .of_rule (fun _ => rfl) (readThen_blind fun _ => blind_id)
  | nopZeroPageX k b => exact .of_rule (fun _ => rfl) (readThen_blind fun _ => blind_id)
  | nopAbsolute w => exact .of_rule (fun _ => rfl) (readThen_blind fun _ => blind_id)
  | nopAbsoluteX k w => exact .of_rule (fun _ => rfl) (readThen_blind fun _ => blind_id)
  | jam k => exact jam_blind k

/-- Settles O60: the four flags are none of those that a branch, an addition or a rotate reads. -/
theorem inertFlags : Obligations.InertFlags := by
  intro i s t f v hf hphp h
  have hblind : ExecBlind f i := by rcases hf with rfl | rfl | rfl | rfl <;> exact exec_blind nofun nofun nofun nofun hphp
  exact hblind s t _ (setFlag_agree s.p f v) h

end Sys2Proof.Claims
end

section
/-! PROOFS. The family other, laws of several instructions (41_arith_logic R176, 42_shift_rotate R195, 43_control_stack_flags
R217, R234). -/

namespace Sys2Proof.Claims

open Sys2Proof.Machine

variable {s t u v : State} {i : Instr} {o : Operand} {k : ShiftKind} {m : Byte} {cross : Bool}

/-- An instruction other than the halt that completes is well formed. -/
theorem wf_of_next (h : exec i s = .next t) (hbrk : i ≠ .brk) : i.wf = true := by
  obtain ⟨rfl, -⟩ | ⟨opc, row, d, u, hrow, -⟩ := exec_next h
  · exact absurd rfl hbrk
  · exact wf_of_rowOf hrow

/-! ## Addition and subtraction -/

/-- 41_arith_logic R160: A after an ADC that completes. -/
theorem adc_a (h : exec (.adc o) s = .next t) (hread : readOperand o s = .ok (m, cross) u) :
    t.a = BitVec.ofNat 8 (s.a.toNat + m.toNat + bit (getFlag s.p .c)) := by
  have hstep := (readOperand_ok hread).1
  obtain ⟨w, ⟨q, rfl, -⟩, hexec⟩ := (addSubtractComplete o s u m cross hread).1 (wf_of_next h nofun)
  rw [hexec] at h; cases h
  rw [← hstep.a, ← hstep.p]; rfl

/-- 41_arith_logic R161: A after an SBC that completes. -/
theorem sbc_a (h : exec (.sbc o) s = .next t) (hread : readOperand o s = .ok (m, cross) u) :
    t.a = BitVec.ofInt 8 (s.a.toNat - m.toNat - bit (!getFlag s.p .c)) := by
  have hstep := (readOperand_ok hread).1
  obtain ⟨w, ⟨q, rfl, -⟩, hexec⟩ := (addSubtractComplete o s u m cross hread).2.1 (wf_of_next h nofun)
  rw [hexec] at h; cases h
  rw [← hstep.a, ← hstep.p]; rfl

theorem bit_le_one (c : Bool) : bit c ≤ 1 := by cases c <;> decide

theorem bit_not (c : Bool) : bit (!c) = 1 - bit c := by cases c <;> rfl

/-- Settles O54: the byte cancels modulo 256. -/
theorem addSubtractLaw : Obligations.AddSubtractLaw := by
  intro o1 o2 s s1 t w w1 u m x1 x2 hread1 hadc hw hread2 hsbc
  have ha := s.a.isLt
  have hm := m.isLt
  have hc1 := bit_le_one (getFlag s.p .c)
  have hc2 := bit_le_one (getFlag w.p .c)
  have hresult : u.a.toNat = (s.a.toNat + bit (getFlag s.p .c) + bit (getFlag w.p .c) + 255) % 256 := by
    rw [sbc_a hsbc hread2, hw, adc_a hadc hread1, bit_not]
    rw [BitVec.toNat_ofInt, BitVec.toNat_ofNat]
    omega
  refine ⟨BitVec.eq_of_toNat_eq ?_, ?_⟩
  · rw [hresult, BitVec.toNat_ofInt]; omega
  · rw [← BitVec.toNat_inj, hresult]; omega

/-! ## Shifts -/

/-- The accumulator form of a shift, again and again. -/
def shiftedTimes (k : ShiftKind) (n : Nat) : State → State := (fun s => retired 1 2 (shiftAccumulator k s))^[n]

theorem times_shiftAccumulator (k : ShiftKind) (n : Nat) (s : State) :
    times (shiftInstr k .accumulator) n s = .next (shiftedTimes k n s) := by
  induction n generalizing s with
  | zero => rfl
  | succ n ih =>
    rw [times, exec_shiftAccumulator]
    exact ih _

/-- 42_shift_rotate R190: a shift as a map of C and A. -/
def shiftPair (k : ShiftKind) (c : Bool × Byte) : Bool × Byte := (shiftCarry k c.2, shiftResult k c.1 c.2)

theorem shiftedTimes_pair (k : ShiftKind) (n : Nat) (s : State) :
    (getFlag (shiftedTimes k n s).p .c, (shiftedTimes k n s).a) = (shiftPair k)^[n] (getFlag s.p .c, s.a) := by
  have hstep : Function.Semiconj (fun s : State => (getFlag s.p .c, s.a)) (fun s => retired 1 2 (shiftAccumulator k s))
      (shiftPair k) := fun s => by
    simp [retired, shiftAccumulator, shiftPair, getFlag_setNZ, getFlag_shiftFlags]
  exact (hstep.iterate_right n) s

/-- 42_shift_rotate R195: C and A are the nine bits that a rotate turns. -/
theorem shiftPair_nine (hk : k = .rol ∨ k = .ror) (c : Bool) (a : Byte) : (shiftPair k)^[9] (c, a) = (c, a) := by
  rcases hk with rfl | rfl <;> revert c a <;> decide

theorem shiftedTimes_nine (hk : k = .rol ∨ k = .ror) (s : State) :
    (shiftedTimes k 9 s).a = s.a ∧ getFlag (shiftedTimes k 9 s).p .c = getFlag s.p .c := by
  have hpair := shiftedTimes_pair k 9 s
  rw [shiftPair_nine hk, Prod.mk.injEq] at hpair
  exact hpair.symm

/-- Two kinds of shift that agree where the carry in is 0 have one rule there. -/
theorem shiftOperand_congr {j : ShiftKind} (hresult : ∀ m, shiftResult k false m = shiftResult j false m)
    (hcarry : ∀ m, shiftCarry k m = shiftCarry j m) (hc : getFlag s.p .c = false) :
    shiftOperand k o s = shiftOperand j o s := by
  have haccumulator : shiftAccumulator k s = shiftAccumulator j s := by
    simp only [shiftAccumulator, shiftFlags, hc, hresult, hcarry]
  have hmemory : shiftMemory k o s = shiftMemory j o s := by
    unfold shiftMemory modifyThen
    cases h : resolve o s with
    | fail f t => rfl
    | ok r t =>
      simp only [Access.bind]
      cases hread : memRead r.ea t with
      | fail f u => rfl
      | ok m u =>
        have hu : getFlag u.p .c = false := by rw [(modify_step h hread).p, hc]
        simp only [shiftFlags, hu, hresult, hcarry]
  cases o with
  | accumulator => exact congrArg (Access.ok ({} : Done)) haccumulator
  | _ => exact hmemory

/-- Two kinds of shift have the same forms, at the same cost: where their rules agree they complete alike. -/
theorem exec_shift_congr {j : ShiftKind} (hrule : shiftOperand k o s = shiftOperand j o s)
    (h : exec (shiftInstr k o) s = .next t) : exec (shiftInstr j o) s = .next t := by
  have hwf : (shiftInstr k o).wf = true := wf_of_next h (by cases k <;> nofun)
  have hwf' : (shiftInstr j o).wf = true := by
    cases k <;> cases j <;> exact hwf
  rw [exec_shiftInstr] at h ⊢
  exact (costs_modifier (.inr ⟨k, rfl⟩) hwf).next_congr (costs_modifier (.inr ⟨j, rfl⟩) hwf') hrule h

/-- Settles O55: nine rotations turn nine bits; with C = 0 a shift and its rotate have one rule; the footprint of a shift is C,
N and Z. -/
theorem shiftLaws : Obligations.ShiftLaws := by
  refine ⟨fun s => ?_, fun o s t hc => ⟨?_, ?_⟩, fun k o s t h f hf => ?_⟩
  · obtain ⟨hleft, hleftC⟩ := shiftedTimes_nine (.inl rfl) s
    obtain ⟨hright, hrightC⟩ := shiftedTimes_nine (.inr rfl) s
    exact ⟨_, _, times_shiftAccumulator .rol 9 s, times_shiftAccumulator .ror 9 s, hleft, hleftC, hright, hrightC⟩
  · have hrule : shiftOperand .asl o s = shiftOperand .rol o s := shiftOperand_congr (by decide) (fun _ => rfl) hc
    exact ⟨exec_shift_congr (k := .asl) (j := .rol) hrule, exec_shift_congr (k := .rol) (j := .asl) hrule.symm⟩
  · have hrule : shiftOperand .lsr o s = shiftOperand .ror o s := shiftOperand_congr (by decide) (fun _ => rfl) hc
    exact ⟨exec_shift_congr (k := .lsr) (j := .ror) hrule, exec_shift_congr (k := .ror) (j := .lsr) hrule.symm⟩
  · obtain ⟨-, -, -, -, hflags, -⟩ := registerFrame _ s t h
    refine hflags f ?_
    have hnot : f ∉ [Flag.n, .z, .c] := fun hmem => hf (by simp at hmem ⊢; tauto)
    cases k <;> exact hnot

/-! ## Subroutines and the stack -/

/-- 43_control_stack_flags R217: the two bytes that JSR pushes are where RTS pulls them. -/
theorem jsr_rts (w : Word) (hwf : s.ram.wf = true) : ∃ t, exec (.jsr w) s = .next t ∧
    ∀ u : State, u.sp = t.sp → u.ram.read (cell s.sp) = t.ram.read (cell s.sp) →
      u.ram.read (cell (s.sp - 1)) = t.ram.read (cell (s.sp - 1)) →
      ∃ v, exec .rts u = .next v ∧ v.pc = s.pc + 2 ∧ v.sp = s.sp := by
  refine ⟨_, (subroutinesComplete s).1 w, fun u hsp hhigh hlow => ⟨_, (subroutinesComplete u).2.1, ?_⟩⟩
  simp only [tick_sp, State.setPc_sp, State.latched_sp, State.setSp_sp] at hsp
  have hpulls : u.sp + 1 = s.sp - 1 ∧ u.sp + 2 = s.sp := by rw [hsp]; bv_omega
  have hne : s.sp ≠ s.sp - 1 := by bv_omega
  have hwf1 := Memory.wf_write hwf (cell s.sp) (hi (s.pc + 1))
  simp only [tick_ram, State.setPc_ram, State.latched_ram, State.setSp_ram, State.setRam_ram] at hhigh hlow
  rw [read_write_cell hwf1, if_neg hne, read_write_cell hwf, if_pos rfl] at hhigh
  rw [read_write_cell hwf1, if_pos rfl] at hlow
  rw [hpulls.1, hpulls.2, hhigh, hlow, word_hi_lo]
  have hnext : s.pc + 1 + 1 = s.pc + 2 := by bv_omega
  exact ⟨by simpa using hnext, by simp⟩

/-- 43_control_stack_flags R234: what a push stored is what the next pull reads. -/
theorem read_pulled {b : Byte} {t u : State} (hwf : s.ram.wf = true) (hsp : u.sp = s.sp - 1) (hram : u.ram = t.ram)
    (ht : t.ram = s.ram.write (cell s.sp) b) : u.sp + 1 = s.sp ∧ u.ram.read (cell (u.sp + 1)) = b := by
  have hpull : u.sp + 1 = s.sp := by rw [hsp]; bv_omega
  exact ⟨hpull, by rw [hpull, hram, ht, read_write_cell hwf, if_pos rfl]⟩

/-- Settles O56: the pulls find SP and the cells as the pushes left them. -/
theorem subroutineAndStackLaws : Obligations.SubroutineAndStackLaws := by
  intro s hwf
  obtain ⟨hpha, hphp, -, -⟩ := stackComplete s
  refine ⟨fun w => jsr_rts w hwf, ⟨_, hpha, fun u hsp hram => ?_⟩, ⟨_, hphp, fun u hsp hram => ?_⟩⟩
  · obtain ⟨-, -, hpla, -⟩ := stackComplete u
    obtain ⟨hpull, hm⟩ := read_pulled (b := s.a) hwf (by simpa [retired] using hsp) hram (by simp [retired])
    exact ⟨_, hpla, by simpa [retired, withA] using hm, by simpa [retired, withA] using hpull⟩
  · obtain ⟨-, -, -, hplp⟩ := stackComplete u
    obtain ⟨hpull, hm⟩ := read_pulled (b := s.p ||| 0x30) hwf (by simpa [retired] using hsp) hram (by simp [retired])
    have hbits (p : Byte) : ((p ||| 0x30) &&& 0xEF) ||| 0x20 = (p ||| 0x20) &&& 0xEF := by revert p; decide
    refine ⟨_, hplp, ?_, by simpa [retired] using hpull⟩
    rw [hm, hbits]
    simp [retired]

end Sys2Proof.Claims
end

section
/-! PROOFS. The family other, the host's acts (70_reset_and_hazards R340 to R348) and the run states (10_state R43). -/

namespace Sys2Proof.Claims

open Sys2Proof.Machine

variable {s t : State} {bytes : List Byte} {m : Memory} {a j k : Nat} {b : Byte}

/-! ## Run states and the reset state -/

/-- Settles O9: the reset runs where `hostReset_of_active` says so, and nowhere else. -/
theorem onlyRunningSteps : Obligations.OnlyRunningSteps := by
  refine ⟨fun s t h => (step_next h).1, fun s h => ?_, fun s h => ?_, fun s h => hostReset_of_ended h⟩
  · rcases run_cases s with hactive | hended
    · exact hactive
    · rw [hostReset_of_ended hended] at h
      exact .inl h
  · rw [hostReset_of_active h]; rfl

/-- Settles O12: the memories of the reset state list nothing, and all its counters are 0. -/
theorem resetInvariants : Obligations.ResetInvariants := by
  unfold Obligations.ResetInvariants
  decide

/-- Settles O13: the reset state is its own reset. -/
theorem resetValues : Obligations.ResetValues :=
  ⟨rfl, rfl, rfl, rfl, rfl, rfl, rfl, rfl, rfl, rfl, rfl, rfl, rfl, rfl, rfl, rfl, rfl, rfl, rfl, rfl, rfl, rfl⟩

/-! ## Bytes at consecutive addresses -/

theorem read_writeAll_outside (h : j < a ∨ a + bytes.length ≤ j) : (m.writeAll a bytes).read j = m.read j := by
  induction bytes generalizing a m with
  | nil => rfl
  | cons b bs ih =>
    rw [List.length_cons] at h
    rw [Memory.writeAll, ih (by omega), Memory.read_write_other (by omega)]

theorem read_writeAll_at (hwf : m.wf = true) (h : bytes[k]? = some b) : (m.writeAll a bytes).read (a + k) = b := by
  induction bytes generalizing a k m with
  | nil => cases h
  | cons c bs ih =>
    rw [Memory.writeAll]
    cases k with
    | zero =>
      cases h
      rw [read_writeAll_outside (.inl (by omega))]
      exact Memory.read_write_same hwf _ _
    | succ k =>
      rw [show a + (k + 1) = a + 1 + k by omega]
      exact ih (Memory.wf_write hwf _ _) h

/-- Bus writes below 0x0800 store the bytes in RAM and change nothing else but LATCH. -/
theorem storeBytes_ram {a : Word} (h : a.toNat + bytes.length ≤ 0x800) :
    ∃ l, storeBytes bytes a s = .ok () ((s.setRam (s.ram.writeAll a.toNat bytes)).setLatch l) ∧
      (s.cfg.busPolicy = .fault → l = s.latch) := by
  induction bytes generalizing a s with
  | nil => exact ⟨s.latch, rfl, fun _ => rfl⟩
  | cons b bs ih =>
    rw [List.length_cons] at h
    have hnext : (a + 1).toNat = a.toNat + 1 := by bv_omega
    have hcell : a.toNat % 2048 = a.toNat := Nat.mod_eq_of_lt (by omega)
    have hwrite := memWrite_ram (regionOf_ram (a := a) (by omega)) b s
    rw [hcell] at hwrite
    obtain ⟨l, hrest, hlatch⟩ := ih (a := a + 1) (s := (s.latched b).setRam (s.ram.write a.toNat b)) (by omega)
    refine ⟨l, ?_, fun hpolicy => ?_⟩
    · rw [storeBytes, hwrite, Access.bind, hrest, hnext, latched_eq]
      rfl
    · rw [hlatch (by simpa using hpolicy), State.setRam_latch, State.latched_of_fault s b hpolicy]

/-! ## Load -/

/-- Settles O11: the window lies in RAM; a load keeps the run state, which decides what the reset and the run do. -/
theorem hostLoad : Obligations.HostLoad := by
  intro s bytes hwf
  refine ⟨fun hlen => ?_, fun hlen => ?_, fun t hload => ?_⟩
  · obtain ⟨l, hstore, hlatch⟩ := storeBytes_ram (s := s) (bytes := bytes) (a := loadAddr)
      (by have : loadAddr.toNat = 0x600 := rfl; omega)
    refine ⟨_, by rw [load, loadMax, if_pos hlen, hstore], fun k b hk => ?_, fun j hj => ?_, rfl, hlatch⟩
    · exact read_writeAll_at hwf hk
    · exact read_writeAll_outside hj
  · have hload : load bytes s = none := if_neg (by unfold loadMax; omega)
    exact ⟨hload, fun n => by simp [loadAndRun, loadAndStart, hload]⟩
  · have hrun : t.run = s.run := (storeBytes_step (load_some hload)).run
    have hstart (n : Nat) : loadAndRun bytes n s = some (runMachine n ((hostReset t).setPc 0x0600)) := by
      simp only [loadAndRun, loadAndStart, hload, Option.map_some]; rfl
    refine ⟨hstart, fun r hr n => ?_, fun a opc hr n => ?_⟩
    · have hended := hrun.trans hr
      rw [hstart, hostReset_of_ended (.inl ⟨r, hended⟩)]
      simp [runMachine, resume, runLoop, hended]
    · have hended := hrun.trans hr
      rw [hstart, hostReset_of_ended (.inr ⟨a, opc, hended⟩)]
      simp [runMachine, resume, runLoop, hended]

/-! ## Reset -/

/-- 70_reset_and_hazards R340: the bytes of the reset vector. -/
theorem rom_resetVector (c : Cartridge) : rom c 0xFFFD = c.prgByte 0x7FFD ∧ rom c 0xFFFC = c.prgByte 0x7FFC :=
  ⟨rom_eq c _, rom_eq c _⟩

/-- Settles O10: the vector's read cannot fail, and its second byte is the last one read. -/
theorem hostReset : Obligations.HostReset := by
  refine ⟨fun s hrun => ?_, fun s hrun => hostReset_of_ended hrun⟩
  rw [hostReset_of_active hrun, (rom_resetVector s.cart).1, (rom_resetVector s.cart).2, latched_eq, State.latched_latch]
  rfl

end Sys2Proof.Claims
end
